-- ==== Sys2Proof/Word.lean ====
section
/-! DEFINITION. Word.lean: the word types of the block and its small sets of names.

The spec gives every register a width (10_state.md R16, R18) and says that all values are unsigned
(00_scope.md R15).  A register with a width is a `BitVec` of that width; a cursor or a count the spec gives as a
natural number (R18 "address width", R22 "natural", 92_eei_decisions.md D23) is a `Nat`. -/

namespace Sys2Proof

/-- A byte of `SRC` or `OUT` (20_memory.md R31). -/
abbrev Byte := BitVec 8

/-- An index, 8 bits wide (00_scope.md R12). -/
abbrev Index := BitVec 8

/-- A code value, 12 bits wide (00_scope.md R8). -/
abbrev Code := BitVec 12

/-- The phase of a unit (40_host_commands.md R61). -/
inductive Phase where
  | idle
  | run
  | done
  | fault
  deriving DecidableEq, Repr, Inhabited

/-- Why a DECODE stopped reading codes (10_state.md R21). -/
inductive EndReason where
  | eoi
  | exhausted
  | overflow
  deriving DecidableEq, Repr, Inhabited

/-- The kind of a length mismatch (60_exceptions.md R98). -/
inductive LengthKind where
  | long
  | short
  deriving DecidableEq, Repr, Inhabited

/-- The agents of one block (00_scope.md R4): the host, its encoder unit and its decoder unit. -/
inductive Agent where
  | host
  | enc
  | dec
  deriving DecidableEq, Repr, Inhabited

/-- `bitlen v`, the number of bits of `v` (41_encoder.md R76). -/
def bitlen (v : Nat) : Nat := if v = 0 then 0 else Nat.log2 v + 1

end Sys2Proof
end

