-- ==== Sys2Proof/Config.lean ====
section
/-! DEFINITION. Config.lean: the parameters of the block (00_scope.md R7 to R10, R13) and its free values.

A free value is a constant with no body: nothing in Lean can evaluate it, so no statement can rest on what it is.
The spec leaves a value unspecified at the start of a command ("Unspecified" entries of 70_reset_and_hazards.md R110
and R111; 93_implementation_defined.md U7 "any value") and in storage that no rule has written since that start (U9).
The first argument `gen` is a plain number that State advances at every command, so two commands take different
free values (notes/assumptions/4.md). -/

namespace Sys2Proof

/-- R7 `MAX_CODE_WIDTH`. -/
abbrev Config.maxCodeWidth : Nat := 12

/-- R8 `TABLE_SIZE`. -/
abbrev Config.tableSize : Nat := 4096

/-- R9 `SUBBLOCK_MAX`. -/
abbrev Config.subBlockMax : Nat := 255

/-- R10 `MCS_MIN`. -/
abbrev Config.mcsMin : Nat := 2

/-- R10 `MCS_MAX`. -/
abbrev Config.mcsMax : Nat := 8

/-- R13: the default of `STRICT_LENGTH`, tolerant (92_eei_decisions.md D15, 93_implementation_defined.md U3). -/
abbrev Config.strictLengthDefault : Bool := false

/-- The registers and fields that R110 and R111 leave unspecified at the start of a command. -/
inductive FreeReg where
  | encM | encClear | encEoi | encNext | encWidth | encCur | encInPos | encAcc | encNbits | encSbLen
  | decM | decClear | decEoi | decNext | decWidth | decPrevValid | decPrev | decAcc | decNbits | decSbRem
  | decTerminated | decProduced
  deriving DecidableEq, Repr, Inhabited

/-- The unspecified value of a register of `w` bits at the start of command `gen`. -/
opaque Config.freeBits (w gen : Nat) (r : FreeReg) : BitVec w

/-- The unspecified value of a field that is a natural number. -/
opaque Config.freeNat (gen : Nat) (r : FreeReg) : Nat

/-- The unspecified value of a field of one bit. -/
opaque Config.freeBool (gen : Nat) (r : FreeReg) : Bool

/-- The unspecified `end_reason` at the start of command `gen` (R111). -/
opaque Config.freeEndReason (gen : Nat) : EndReason

/-- The unspecified contents of `enc.table` at the start of command `gen` (R110): keys and their codes. -/
opaque Config.freeKeys (gen : Nat) : List (Code × Index × Code)

/-- What cell `a` of a store of `w`-bit cells holds when nothing has written it since generation `gen`
(R109, R110 `enc.sb_buf`, R111 `dec.prefix[*]`, `dec.suffix[*]`). -/
opaque Config.freeCell (w gen a : Nat) : BitVec w

end Sys2Proof
end

