-- ==== Sys2Proof/Syntax.lean ====
section
/-! DEFINITION. Syntax.lean: the instructions, one constructor for each row of spec/opcode_table.json.

The table has four kinds of rows (92_eei_decisions.md D1): the two host commands, the encoder's steps, the framing
bytes of the compressed data and the classes of codes. -/

namespace Sys2Proof

/-- The ENCODE command record (10_state.md R22).  `S` holds naturals, so that a value no 8-bit index has (the 256 of
vector V-E10) is a value the start step can refuse; see notes/assumptions/7.md. -/
structure EncodeRecord where
  m : BitVec 8
  S : List Nat
  deriving DecidableEq, Repr, Inhabited

/-- The DECODE command record (10_state.md R22).  `strict` is `STRICT_LENGTH`, a parameter of each command; a record
written without it is tolerant (00_scope.md R13). -/
structure DecodeRecord where
  src : List Byte
  p0 : Nat
  outputLength : Nat
  strict : Bool := Config.strictLengthDefault
  deriving DecidableEq, Repr, Inhabited

/-- The instructions of the block. -/
inductive Instr where
  /-- ENCODE (R64): a host command with its record. -/
  | encode (r : EncodeRecord)
  /-- DECODE (R65): a host command with its record. -/
  | decode (r : DecodeRecord)
  /-- ENC-START (R68). -/
  | encStart
  /-- ENC-HIT (R70), `k` the index at `enc.in_pos`. -/
  | encHit (k : Index)
  /-- ENC-MISS (R71). -/
  | encMiss (k : Index)
  /-- ENC-FULL (R72). -/
  | encFull (k : Index)
  /-- ENC-FINISH (R73). -/
  | encFinish
  /-- B-MCS (R47, R79): the min-code-size byte, read by the start step of DECODE. -/
  | bMcs (m : Byte)
  /-- B-LEN (R47, R80): the length byte of a sub-block. -/
  | bLen (len : Byte)
  /-- B-TERM (R47, R80): the zero-length sub-block. -/
  | bTerm
  /-- B-DATA (R48, R80): a data byte. -/
  | bData (b : Byte)
  /-- CLR (R84). -/
  | clr
  /-- EOI (R85). -/
  | eoi
  /-- LIT (R86): the index it stands for. -/
  | lit (k : Index)
  /-- TAB (R87): a table address. -/
  | tab (c : Code)
  /-- KWK (R88): the code, equal to `next_code`, with a previous code. -/
  | kwk (c : Code)
  /-- ILL-NOPREV (R89). -/
  | illNoPrev (c : Code)
  /-- ILL-RANGE (R90). -/
  | illRange (c : Code)
  deriving DecidableEq, Repr, Inhabited

/-- The codes, the rows of format C(w). -/
def Instr.isCode : Instr → Bool
  | .clr | .eoi | .lit _ | .tab _ | .kwk _ | .illNoPrev _ | .illRange _ => true
  | .encode _ | .decode _ | .encStart | .encHit _ | .encMiss _ | .encFull _ | .encFinish
  | .bMcs _ | .bLen _ | .bTerm | .bData _ => false

end Sys2Proof
end

