-- ==== Sys2Proof/WellFormed.lean ====
section
/-! DEFINITION. WellFormed.lean: which operands the table's rows admit, whatever the state.

A term that fails the check is no row of the table, or is a row's operand that the spec names as faulting.  What the
match column makes depend on the state of a unit (`next_code`, `prev_valid`, `m`) is `Instr.wfIn` in Decode.lean. -/

namespace Sys2Proof

/-- A legal ENCODE record: `m` in 2..8, a non-empty `S`, every entry below `2^m` (R22). -/
def EncodeRecord.wf (r : EncodeRecord) : Bool :=
  decide (Config.mcsMin ≤ r.m.toNat) && decide (r.m.toNat ≤ Config.mcsMax) && !r.S.isEmpty &&
    r.S.all fun v => decide (v < 2 ^ r.m.toNat)

/-- The operands a row admits in some state.  The least `eoi_code` is 5, so no table code is below 6 (R51), and no
code above `next_code` is below 7. -/
def Instr.wf : Instr → Bool
  | .encode r => r.wf
  | .decode _ => true
  | .encStart | .encFinish => true
  | .encHit _ | .encMiss _ | .encFull _ => true
  | .bMcs m => decide (Config.mcsMin ≤ m.toNat) && decide (m.toNat ≤ Config.mcsMax)
  | .bLen len => decide (len ≠ 0#8)
  | .bTerm => true
  | .bData _ => true
  | .clr | .eoi => true
  | .lit _ => true
  | .tab c => decide (6 ≤ c.toNat)
  | .kwk c => decide (6 ≤ c.toNat)
  | .illNoPrev c => decide (6 ≤ c.toNat)
  | .illRange c => decide (7 ≤ c.toNat)

end Sys2Proof
end

