-- ==== Sys2Proof/Decode.lean ====
section
/-! DEFINITION. Decode.lean: from what a unit finds to the instruction it stands for, and back.

An instruction of this block is not one word at a program counter (10_state.md R20).  The table's match column says
for each row where its instruction is found: a host transaction, the state of the encoder, a byte at a framing
position of `SRC`, or a code of the current width.  `Raw` is what is found; `decode` is total on it and rejects by
name.  The encoder of the same tables, `encode`, stands after it, then the bit and byte layers (R37, R47, R48, R55). -/

namespace Sys2Proof

/-- The three framing positions of the compressed data (R47): the min-code-size byte, a length byte, a data byte. -/
inductive FramePos where
  | mcs
  | length
  | data
  deriving DecidableEq, Repr, Inhabited

/-- What the class of a code depends on (R52): the decoder's registers at the moment the code is read. -/
structure CodeCtx where
  clear : Nat
  eoi : Nat
  next : Nat
  prevValid : Bool
  width : Nat
  deriving DecidableEq, Repr, Inhabited

/-- What selects an encoder step (the match column of the ENC rows, R69). -/
structure EncView where
  started : Bool
  atEnd : Bool
  k : Index
  hit : Bool
  full : Bool
  deriving DecidableEq, Repr, Inhabited

/-- What a unit, or the host, finds to run next. -/
inductive Raw where
  | encodeCommand (r : EncodeRecord)
  | decodeCommand (r : DecodeRecord)
  | encState (v : EncView)
  | byte (pos : FramePos) (b : Byte)
  | code (cc : CodeCtx) (c : Nat)
  deriving DecidableEq, Repr, Inhabited

/-- Why a decoding is rejected. -/
inductive Reject where
  /-- A min-code-size byte outside 2..8 (R58). -/
  | badMinCodeSize (b : Byte)
  /-- A value no code of the width has, or above 4095 (R8, R49). -/
  | codeTooWide (c : Nat)
  /-- Fewer bits than the width (R81 `NONE`). -/
  | tooFewBits
  /-- Compressed data that ends inside its framing (R58). -/
  | truncated
  deriving DecidableEq, Repr, Inhabited

/-- The answer of `decode`. -/
inductive Decoded where
  | instr (i : Instr)
  | reject (r : Reject)
  deriving DecidableEq, Repr, Inhabited

/-- The classes of R52, compared in the order of its table. -/
def classify (cc : CodeCtx) (c : Nat) : Instr :=
  if c = cc.clear then .clr
  else if c = cc.eoi then .eoi
  else if c < cc.clear then .lit (BitVec.ofNat 8 c)
  else if c < cc.next then .tab (BitVec.ofNat 12 c)
  else if c = cc.next then
    if cc.prevValid then .kwk (BitVec.ofNat 12 c) else .illNoPrev (BitVec.ofNat 12 c)
  else .illRange (BitVec.ofNat 12 c)

/-- The encoder's next step (R64, R69): the start step first, the finish after the last index, and otherwise the one
action the table and `next_code` choose. -/
def selectEnc (v : EncView) : Instr :=
  if v.started = false then .encStart
  else if v.atEnd then .encFinish
  else if v.hit then .encHit v.k
  else if v.full then .encFull v.k
  else .encMiss v.k

/-- A byte at a framing position (R47, R58). -/
def decodeByte (pos : FramePos) (b : Byte) : Decoded :=
  match pos with
  | .mcs =>
    if Config.mcsMin ≤ b.toNat ∧ b.toNat ≤ Config.mcsMax then .instr (.bMcs b) else .reject (.badMinCodeSize b)
  | .length => if b = 0#8 then .instr .bTerm else .instr (.bLen b)
  | .data => .instr (.bData b)

/-- The decoder of the opcode table. -/
def decode : Raw → Decoded
  | .encodeCommand r => .instr (.encode r)
  | .decodeCommand r => .instr (.decode r)
  | .encState v => .instr (selectEnc v)
  | .byte pos b => decodeByte pos b
  | .code cc c => if c < 2 ^ cc.width ∧ c < Config.tableSize then .instr (classify cc c) else .reject (.codeTooWide c)

/-! ## The encoder of the same tables -/

/-- The value of a code in the context it is read in (R52, R53); 0 for an instruction that is no code. -/
def codeValue (cc : CodeCtx) : Instr → Nat
  | .clr => cc.clear
  | .eoi => cc.eoi
  | .lit k => k.toNat
  | .tab c => c.toNat
  | .kwk c => c.toNat
  | .illNoPrev c => c.toNat
  | .illRange c => c.toNat
  | .encode _ | .decode _ | .encStart | .encHit _ | .encMiss _ | .encFull _ | .encFinish
  | .bMcs _ | .bLen _ | .bTerm | .bData _ => 0

/-- What stands for an instruction: its transaction, the encoder state that selects it, its byte at its framing
position, or its code value. -/
def encode (cc : CodeCtx) : Instr → Raw
  | .encode r => .encodeCommand r
  | .decode r => .decodeCommand r
  | .encStart => .encState ⟨false, false, 0#8, false, false⟩
  | .encHit k => .encState ⟨true, false, k, true, false⟩
  | .encMiss k => .encState ⟨true, false, k, false, false⟩
  | .encFull k => .encState ⟨true, false, k, false, true⟩
  | .encFinish => .encState ⟨true, true, 0#8, false, false⟩
  | .bMcs m => .byte .mcs m
  | .bLen len => .byte .length len
  | .bTerm => .byte .length 0#8
  | .bData b => .byte .data b
  | .clr => .code cc (codeValue cc .clr)
  | .eoi => .code cc (codeValue cc .eoi)
  | .lit k => .code cc (codeValue cc (.lit k))
  | .tab c => .code cc (codeValue cc (.tab c))
  | .kwk c => .code cc (codeValue cc (.kwk c))
  | .illNoPrev c => .code cc (codeValue cc (.illNoPrev c))
  | .illRange c => .code cc (codeValue cc (.illRange c))

/-- The context a decoder with minimum code size `m` has after a clear code, or after its start step (R51, R84). -/
def CodeCtx.afterClear (m : Nat) : CodeCtx :=
  { clear := 2 ^ m, eoi := 2 ^ m + 1, next := 2 ^ m + 2, prevValid := false, width := m + 1 }

/-- A context that the registers of R18 give within their legal values. -/
def CodeCtx.ok (cc : CodeCtx) : Bool :=
  (List.range' Config.mcsMin 7).any fun m =>
    decide (cc.clear = 2 ^ m) && decide (cc.eoi = 2 ^ m + 1) && decide (2 ^ m + 2 ≤ cc.next) &&
      decide (cc.next ≤ Config.tableSize) && decide (m + 1 ≤ cc.width) && decide (cc.width ≤ Config.maxCodeWidth)

/-- The operands a row admits in a context: the match column of the table, R52, with the value inside C(w). -/
def Instr.wfIn (cc : CodeCtx) (i : Instr) : Bool :=
  i.wf &&
    match i with
    | .lit k => decide (k.toNat < cc.clear)
    | .tab c => decide (cc.eoi < c.toNat) && decide (c.toNat < cc.next) && decide (c.toNat < 2 ^ cc.width)
    | .kwk c => decide (c.toNat = cc.next) && cc.prevValid && decide (c.toNat < 2 ^ cc.width)
    | .illNoPrev c => decide (c.toNat = cc.next) && !cc.prevValid && decide (c.toNat < 2 ^ cc.width)
    | .illRange c => decide (cc.next < c.toNat) && decide (c.toNat < 2 ^ cc.width)
    | .encode _ | .decode _ | .encStart | .encHit _ | .encMiss _ | .encFull _ | .encFinish
    | .bMcs _ | .bLen _ | .bTerm | .bData _ | .clr | .eoi => true

/-! ## Bits: format C(w) and the packing of R37 -/

/-- The `w` bits of a value in stream order, least significant first (R37, R49). -/
def bitsOfNat : Nat → Nat → List Bool
  | 0, _ => []
  | w + 1, v => decide (v % 2 = 1) :: bitsOfNat w (v / 2)

/-- The value of bits in stream order. -/
def natOfBits : List Bool → Nat
  | [] => 0
  | b :: bs => b.toNat + 2 * natOfBits bs

/-- A code as the bits C(w) of the stream. -/
def encodeBits (cc : CodeCtx) (i : Instr) : List Bool := bitsOfNat cc.width (codeValue cc i)

/-- The next code of a bit stream and the bits after it; rejected when the stream is too short (R81). -/
def decodeBits (cc : CodeCtx) (bits : List Bool) : Except Reject (Instr × List Bool) :=
  if bits.length < cc.width then .error .tooFewBits
  else
    match decode (.code cc (natOfBits (bits.take cc.width))) with
    | .instr i => .ok (i, bits.drop cc.width)
    | .reject r => .error r

/-- The bit string of data bytes: byte `j` supplies bits `8j .. 8j + 7` (R37). -/
def dataBits (bs : List Byte) : List Bool := bs.flatMap fun b => bitsOfNat 8 b.toNat

/-! ## Bytes: the framing of R47 -/

/-- One sub-block: its length byte, then its data bytes (R47). -/
def subBlock (d : List Byte) : List Byte := BitVec.ofNat 8 d.length :: d

/-- Data bytes cut into sub-blocks of 255, the last one shorter, none of them empty (R55). -/
def frameBlocks : Nat → List Byte → List Byte
  | 0, _ => []
  | fuel + 1, d =>
    if d.isEmpty then []
    else subBlock (d.take Config.subBlockMax) ++ frameBlocks fuel (d.drop Config.subBlockMax)

/-- The compressed data the encoder makes of `m` and data bytes (R55). -/
def frame (m : Byte) (d : List Byte) : List Byte := m :: frameBlocks d.length d ++ [0#8]

/-- The payloads of sub-blocks up to the terminator, and what follows it (R48). -/
def unframeBlocks : Nat → List Byte → Except Reject (List Byte × List Byte)
  | 0, _ => .error .truncated
  | _ + 1, [] => .error .truncated
  | fuel + 1, len :: rest =>
    if len = 0#8 then .ok ([], rest)
    else if rest.length < len.toNat then .error .truncated
    else
      match unframeBlocks fuel (rest.drop len.toNat) with
      | .ok (d, after) => .ok (rest.take len.toNat ++ d, after)
      | .error r => .error r

/-- Compressed data of any framing (R57): `m`, the data bytes, and the bytes after the terminator. -/
def unframe : List Byte → Except Reject (Byte × List Byte × List Byte)
  | [] => .error .truncated
  | m :: rest =>
    match decodeByte .mcs m with
    | .reject r => .error r
    | .instr _ =>
      match unframeBlocks (rest.length + 1) rest with
      | .ok (d, after) => .ok (m, d, after)
      | .error r => .error r

/-! ## The listing syntax of R60 -/

/-- A code in a listing, with the width it is read or written at; the other instructions have no form of their own. -/
def Instr.listing (w : Nat) : Instr → Option String
  | .clr => some ("CLR/" ++ toString w)
  | .eoi => some ("EOI/" ++ toString w)
  | .lit k => some ("LIT " ++ toString k.toNat ++ "/" ++ toString w)
  | .tab c => some ("TAB " ++ toString c.toNat ++ "/" ++ toString w)
  | .kwk c => some ("KWK " ++ toString c.toNat ++ "/" ++ toString w)
  | .illNoPrev c => some ("ILL-NOPREV " ++ toString c.toNat ++ "/" ++ toString w)
  | .illRange c => some ("ILL-RANGE " ++ toString c.toNat ++ "/" ++ toString w)
  | .bMcs m => some ("MCS " ++ toString m.toNat)
  | .bTerm => some "TERM"
  | .encode _ | .decode _ | .encStart | .encHit _ | .encMiss _ | .encFull _ | .encFinish | .bLen _ | .bData _ => none

/-! ## Words as the host of this row numbers them -/

/-- The instruction read from table bits alone, with no state to place them in.  8 bits are a byte at a length
position, the one byte of the table with fixed bits; 16 bits hold, in their low 9, a code read by a decoder of
`m = 8` right after a clear code.  Every other number of bits is none (notes/assumptions/13.md). -/
def decodeTableWord (nbits w : Nat) : Option Instr :=
  if nbits = 8 then
    if w < 2 ^ 8 then
      match decode (.byte .length (BitVec.ofNat 8 w)) with
      | .instr i => some i
      | .reject _ => none
    else none
  else if nbits = 16 then
    match decode (.code (.afterClear 8) w) with
    | .instr i => some i
    | .reject _ => none
  else none

end Sys2Proof
end

