-- ==== Sys2Proof/Machine/State.lean ====
section
/-! DEFINITION. Machine/State.lean: the state of one block, as plain data.

One block is one encoder unit ENC, one decoder unit DEC and the host that drives them (00_scope.md R3, R4).  A system of
several blocks is Machine/System.lean.  Every register of 10_state.md R16 and R18, every field of the records of R22
and R23, and the four host-visible memories of 20_memory.md R31 are fields below. -/

namespace Sys2Proof.Machine

/-- Memory as a list of position and value pairs, positions strictly rising (`Memory.wf` in Machine/Ops.lean).  What an
unlisted position reads as is said where the memory is used. -/
abbrev Memory (w : Nat) := List (Nat × BitVec w)

/-- Storage whose contents are unspecified until written: an unlisted position reads as the free value
`Config.freeCell w gen`. -/
structure Store (w : Nat) where
  gen : Nat
  cells : Memory w
  deriving DecidableEq, Repr, Inhabited

/-- A key of the encoder's table and the code it maps to (R25). -/
structure EncEntry where
  pre : Code
  k : Index
  code : Code
  deriving DecidableEq, Repr, Inhabited

/-- The fault causes of 60_exceptions.md R98. -/
inductive Cause where
  | none
  | eBadMinCodeSize
  | eEmptyInput
  | eIndexRange
  | dBadMinCodeSize
  | dSourceOverrun
  | dKwkwkNoPrev
  | dInvalidCode
  | dLengthMismatch
  deriving DecidableEq, Repr, Inhabited

/-- The cause codes of R98, the value of the 8-bit field `cause`. -/
def Cause.code : Cause → BitVec 8
  | .none => 0x00#8
  | .eBadMinCodeSize => 0x01#8
  | .eEmptyInput => 0x02#8
  | .eIndexRange => 0x03#8
  | .dBadMinCodeSize => 0x11#8
  | .dSourceOverrun => 0x12#8
  | .dKwkwkNoPrev => 0x13#8
  | .dInvalidCode => 0x14#8
  | .dLengthMismatch => 0x15#8

/-- The cause-specific record `info` of R98. -/
inductive Info where
  | empty
  | minCodeSize (m : BitVec 8)
  | index (pos : Nat) (value : Nat)
  | mcsByte (value : Byte) (addr : Nat)
  | overrun (addr : Nat)
  | code (code : Code) (nextCode : BitVec 13) (srcPos : Nat)
  | length (kind : LengthKind) (produced : Nat) (outputLength : Nat)
  deriving DecidableEq, Repr, Inhabited

/-- The datapath registers of ENC (R16), but for `enc.phase`. -/
structure EncRegs where
  m : BitVec 4
  clearCode : BitVec 9
  eoiCode : BitVec 9
  nextCode : BitVec 13
  width : BitVec 4
  curCode : Code
  inPos : Nat
  acc : BitVec 20
  nbits : BitVec 5
  sbBuf : Store 8
  sbLen : BitVec 8
  /-- `enc.table`, the entry inserted last at the head. -/
  table : List EncEntry
  deriving DecidableEq, Repr, Inhabited

/-- The encoder unit.  `started` says whether the start step of the command has run (R113); `phase` is both `enc.phase`
and the status field. -/
structure EncUnit where
  phase : Phase
  started : Bool
  cmd : EncodeRecord
  regs : EncRegs
  cause : Cause
  info : Info
  outLen : Nat
  /-- The output byte stream `OUT` (R31, R34). -/
  out : List Byte
  deriving DecidableEq, Repr, Inhabited

/-- The datapath registers of DEC (R18), but for `dec.phase`. -/
structure DecRegs where
  m : BitVec 4
  clearCode : BitVec 9
  eoiCode : BitVec 9
  nextCode : BitVec 13
  width : BitVec 4
  prevValid : Bool
  prevCode : Code
  acc : BitVec 20
  nbits : BitVec 5
  srcPos : Nat
  sbRem : BitVec 8
  terminated : Bool
  outPos : Nat
  /-- `dec.prefix[c]`. -/
  prefixes : Store 12
  /-- `dec.suffix[c]`. -/
  suffixes : Store 8
  deriving DecidableEq, Repr, Inhabited

/-- The decoder unit. -/
structure DecUnit where
  phase : Phase
  started : Bool
  cmd : DecodeRecord
  regs : DecRegs
  cause : Cause
  info : Info
  produced : Nat
  endReason : EndReason
  tooLong : Bool
  tooShort : Bool
  /-- The output index buffer `IDX` (R31, R36); an unlisted cell holds what the model does not know. -/
  idx : Memory 8
  deriving DecidableEq, Repr, Inhabited

/-- What the host does next: issue a command, or write a cell of `IDX` between commands (R42, R66). -/
inductive HostMove where
  | encode (r : EncodeRecord)
  | decode (r : DecodeRecord)
  | writeIdx (pos : Nat) (v : Index)
  deriving DecidableEq, Repr, Inhabited

/-- The state of one block. -/
structure State where
  enc : EncUnit
  dec : DecUnit
  /-- The moves the host has still to make, in order (the model's own field, notes/assumptions/2.md). -/
  hostq : List HostMove
  /-- Which agent moves at the coming steps (the model's own field, notes/assumptions/3.md). -/
  sched : List Agent
  /-- The generation the next command's free values take (the model's own field, notes/assumptions/4.md). -/
  freeTick : Nat
  deriving DecidableEq, Repr, Inhabited

/-- What stops the machine.  The faults of R98 are no such stop: they are recorded in a status record and the machine
goes on.  Both constructors are raised only in states that no run reaches (`Obligations.StepFromInvariantNeverStops`). -/
inductive Fault where
  /-- Raised by TAB and KWK when the prefix links from the code do not end at a literal, so R94 gives no sequence.
  Safe: R28 rules the state out. -/
  | brokenChain
  /-- Raised by step when `width` is above 12 and the code read is above 4095.  Safe: R18 rules the state out. -/
  | illegalWidth
  deriving DecidableEq, Repr, Inhabited

/-- Why the model has no such move. -/
inductive Refusal where
  /-- Raised by an arm of exec whose instruction has no meaning yet.  Safe. -/
  | notModelled (mnemonic : String)
  /-- Raised by ENCODE when ENC is in phase RUN (93_implementation_defined.md U16, host duty).  Safe. -/
  | encBusy
  /-- Raised by DECODE when DEC is in phase RUN (U16).  Safe. -/
  | decBusy
  /-- Raised by a host write to `IDX` while DEC is in phase RUN (U17).  Safe. -/
  | memoryOwned
  /-- Raised by an encoder step, a framing byte or a code that the unit's state does not select: the match column of
  its row does not hold.  Safe: step runs only what the state selects. -/
  | notSelected
  deriving DecidableEq, Repr, Inhabited

/-- The answer of an instruction. -/
abbrev Result := Host.Outcome State Fault Refusal

/-- ENC at power-on (R109): IDLE; the spec gives no other value (notes/assumptions/1.md). -/
def EncUnit.reset : EncUnit :=
  { phase := .idle, started := false, cmd := { m := 0, S := [] },
    regs :=
      { m := 0, clearCode := 0, eoiCode := 0, nextCode := 0, width := 0, curCode := 0, inPos := 0, acc := 0,
        nbits := 0, sbBuf := { gen := 0, cells := [] }, sbLen := 0, table := [] },
    cause := .none, info := .empty, outLen := 0, out := [] }

/-- DEC at power-on (R109): IDLE; the spec gives no other value (notes/assumptions/1.md). -/
def DecUnit.reset : DecUnit :=
  { phase := .idle, started := false, cmd := { src := [], p0 := 0, outputLength := 0, strict := false },
    regs :=
      { m := 0, clearCode := 0, eoiCode := 0, nextCode := 0, width := 0, prevValid := false, prevCode := 0, acc := 0,
        nbits := 0, srcPos := 0, sbRem := 0, terminated := false, outPos := 0,
        prefixes := { gen := 0, cells := [] }, suffixes := { gen := 1, cells := [] } },
    cause := .none, info := .empty, produced := 0, endReason := .eoi, tooLong := false, tooShort := false, idx := [] }

/-- The machine at power-on (R109, R113): both units IDLE, no host move waiting. -/
def State.reset : State :=
  { enc := EncUnit.reset, dec := DecUnit.reset, hostq := [], sched := [], freeTick := 2 }

end Sys2Proof.Machine
end

