-- ==== Sys2Proof/Machine/Flags.lean ====
section
/-! DEFINITION. Machine/Flags.lean: the block's only flags (10_state.md R21; 60_exceptions.md R99, R100).

They are the two warning flags and the end reason of the DEC status record.  The encoder has none. -/

namespace Sys2Proof.Machine

/-- `warn(W_TOO_LONG)` (R100). -/
def DecUnit.warnTooLong (u : DecUnit) : DecUnit := { u with tooLong := true }

/-- `warn(W_TOO_SHORT)` (R100). -/
def DecUnit.warnTooShort (u : DecUnit) : DecUnit := { u with tooShort := true }

/-- The two warnings are cleared at the start of a DECODE (R111). -/
def DecUnit.clearWarnings (u : DecUnit) : DecUnit := { u with tooLong := false, tooShort := false }

/-- `dec.end_reason <- r` (R82, R85, R92). -/
def DecUnit.setEndReason (r : EndReason) (u : DecUnit) : DecUnit := { u with endReason := r }

/-- The warning field of R99: bit 0 is `W_TOO_LONG`, bit 1 is `W_TOO_SHORT`. -/
def DecUnit.warningField (u : DecUnit) : BitVec 2 :=
  BitVec.ofNat 2 (u.tooLong.toNat + 2 * u.tooShort.toNat)

end Sys2Proof.Machine
end

