-- ==== Sys2Proof/Machine/Ops.lean ====
section
/-! DEFINITION. Machine/Ops.lean: the operations that the meanings share.

Memory and storage; the access primitives of 20_memory.md R33 to R36; the encoder's bit packer and sub-blocker (R74,
R75); the decoder's bit accumulator and framing state (R80, R81); taking a fault (R101) and the one way out of it, the
start of a command (R110, R111); and what a unit finds to run next. -/

namespace Sys2Proof.Machine

/-! ## Memory and storage -/

/-- What a listed position holds. -/
def Memory.read {w : Nat} : Memory w → Nat → Option (BitVec w)
  | [], _ => none
  | (b, v) :: rest, a => if b = a then some v else Memory.read rest a

/-- Write one position, keeping positions strictly rising. -/
def Memory.write {w : Nat} : Memory w → Nat → BitVec w → Memory w
  | [], a, v => [(a, v)]
  | (b, u) :: rest, a, v =>
    if a < b then (a, v) :: (b, u) :: rest
    else if a = b then (a, v) :: rest
    else (b, u) :: Memory.write rest a v

/-- The canonical form: positions strictly rising.  An unlisted position reads as unknown or as a free value, never as a
value a listed one could equal, so no entry is superfluous (notes/assumptions/6.md). -/
def Memory.wf {w : Nat} : Memory w → Bool
  | [] => true
  | (a, _) :: rest => (rest.all fun c => decide (a < c.1)) && Memory.wf rest

/-- Write a run of values at consecutive positions. -/
def Memory.writeRun {w : Nat} : Memory w → Nat → List (BitVec w) → Memory w
  | mem, _, [] => mem
  | mem, a, v :: vs => Memory.writeRun (Memory.write mem a v) (a + 1) vs

/-- What a cell of a store holds. -/
def Store.read {w : Nat} (st : Store w) (a : Nat) : BitVec w :=
  (Memory.read st.cells a).getD (Config.freeCell w st.gen a)

/-- Write a cell of a store. -/
def Store.write {w : Nat} (st : Store w) (a : Nat) (v : BitVec w) : Store w :=
  { st with cells := Memory.write st.cells a v }

/-- Storage that nothing has written since generation `gen`. -/
def Store.fresh (w gen : Nat) : Store w := { gen := gen, cells := [] }

/-! ## Taking a fault, and starting a command -/

/-- `raise Fault(cause, info)` in ENC (R101). -/
def EncUnit.raise (c : Cause) (i : Info) (u : EncUnit) : EncUnit := { u with cause := c, info := i, phase := .fault }

/-- `raise Fault(cause, info)` in DEC, which also records `produced` (R101). -/
def DecUnit.raise (c : Cause) (i : Info) (u : DecUnit) : DecUnit :=
  { u with cause := c, info := i, produced := u.regs.outPos, phase := .fault }

/-- The registers of ENC that R110 leaves unspecified at the start of command `gen`. -/
def EncRegs.unspecified (gen : Nat) : EncRegs :=
  { m := Config.freeBits 4 gen .encM
    clearCode := Config.freeBits 9 gen .encClear
    eoiCode := Config.freeBits 9 gen .encEoi
    nextCode := Config.freeBits 13 gen .encNext
    width := Config.freeBits 4 gen .encWidth
    curCode := Config.freeBits 12 gen .encCur
    inPos := Config.freeNat gen .encInPos
    acc := Config.freeBits 20 gen .encAcc
    nbits := Config.freeBits 5 gen .encNbits
    sbBuf := Store.fresh 8 gen
    sbLen := Config.freeBits 8 gen .encSbLen
    table := (Config.freeKeys gen).map fun e => { pre := e.1, k := e.2.1, code := e.2.2 } }

/-- The start of an ENCODE, before any step (R110, second column). -/
def EncUnit.begin (r : EncodeRecord) (gen : Nat) : EncUnit :=
  { phase := .run, started := false, cmd := r, regs := EncRegs.unspecified gen,
    cause := .none, info := .empty, outLen := 0, out := [] }

/-- The registers of DEC at the start of command `gen` (R111): `src_pos` is `p0`, `out_pos` is 0
(notes/assumptions/5.md), the others unspecified. -/
def DecRegs.unspecified (gen p0 : Nat) : DecRegs :=
  { m := Config.freeBits 4 gen .decM
    clearCode := Config.freeBits 9 gen .decClear
    eoiCode := Config.freeBits 9 gen .decEoi
    nextCode := Config.freeBits 13 gen .decNext
    width := Config.freeBits 4 gen .decWidth
    prevValid := Config.freeBool gen .decPrevValid
    prevCode := Config.freeBits 12 gen .decPrev
    acc := Config.freeBits 20 gen .decAcc
    nbits := Config.freeBits 5 gen .decNbits
    srcPos := p0
    sbRem := Config.freeBits 8 gen .decSbRem
    terminated := Config.freeBool gen .decTerminated
    outPos := 0
    prefixes := Store.fresh 12 gen
    suffixes := Store.fresh 8 gen }

/-- The start of a DECODE, before any step (R111, second column); `idx` is what the host left in `IDX`. -/
def DecUnit.begin (r : DecodeRecord) (gen : Nat) (idx : Memory 8) : DecUnit :=
  DecUnit.clearWarnings
    { phase := .run, started := false, cmd := r, regs := DecRegs.unspecified gen r.p0,
      cause := .none, info := .empty, produced := Config.freeNat gen .decProduced,
      endReason := Config.freeEndReason gen, tooLong := false, tooShort := false, idx := idx }

/-! ## The encoder: `InRead`, `Append`, the bit packer and the sub-blocker -/

/-- `InRead(i)` (R33). -/
def EncUnit.inRead (u : EncUnit) (i : Nat) : Option Nat := u.cmd.S[i]?

/-- `Append(b)` (R34). -/
def EncUnit.append (u : EncUnit) (b : Byte) : EncUnit := { u with out := u.out ++ [b], outLen := u.outLen + 1 }

/-- `Append` of each byte in turn. -/
def EncUnit.appendAll (u : EncUnit) (bs : List Byte) : EncUnit := bs.foldl EncUnit.append u

/-- The valid bytes of `enc.sb_buf`, in order. -/
def EncRegs.sbBytes (r : EncRegs) : List Byte := (List.range r.sbLen.toNat).map r.sbBuf.read

/-- Append the open sub-block with its length byte, and empty it (R73, R75). -/
def EncUnit.closeSubBlock (u : EncUnit) : EncUnit :=
  let v := (u.append u.regs.sbLen).appendAll u.regs.sbBytes
  { v with regs := { v.regs with sbLen := 0 } }

/-- `PutByte(b)` (R75). -/
def EncUnit.putByte (u : EncUnit) (b : Byte) : EncUnit :=
  let v :=
    { u with
      regs :=
        { u.regs with
          sbBuf := u.regs.sbBuf.write u.regs.sbLen.toNat b
          sbLen := BitVec.ofNat 8 (u.regs.sbLen.toNat + 1) } }
  if v.regs.sbLen.toNat = Config.subBlockMax then v.closeSubBlock else v

/-- The loop of R74 that moves whole bytes out of the accumulator.  `enc.nbits` is below 32, so three rounds end it. -/
def EncUnit.flush : Nat → EncUnit → EncUnit
  | 0, u => u
  | fuel + 1, u =>
    if 8 ≤ u.regs.nbits.toNat then
      let v := u.putByte (u.regs.acc.setWidth 8)
      EncUnit.flush fuel
        { v with regs := { v.regs with acc := v.regs.acc >>> 8, nbits := BitVec.ofNat 5 (v.regs.nbits.toNat - 8) } }
    else u

/-- The two register writes at the head of R74: the code goes above the bits held. -/
def EncUnit.pushCode (u : EncUnit) (c : Code) : EncUnit :=
  { u with
    regs :=
      { u.regs with
        acc := u.regs.acc ||| (c.setWidth 20 <<< u.regs.nbits.toNat)
        nbits := BitVec.ofNat 5 (u.regs.nbits.toNat + u.regs.width.toNat) } }

/-- `EmitCode(c)` (R74), at the current width. -/
def EncUnit.emitCode (u : EncUnit) (c : Code) : EncUnit := (u.pushCode c).flush 3

/-- Reset the encoder's table and width (R72, R112). -/
def EncUnit.resetTable (u : EncUnit) : EncUnit :=
  { u with
    regs :=
      { u.regs with
        nextCode := BitVec.ofNat 13 (u.regs.eoiCode.toNat + 1)
        width := BitVec.ofNat 4 (u.regs.m.toNat + 1)
        table := [] } }

/-- The code of a key in the table, if it is present (R25). -/
def EncRegs.lookup (r : EncRegs) (pre : Code) (k : Index) : Option Code :=
  (r.table.find? fun e => decide (e.pre = pre) && decide (e.k = k)).map EncEntry.code

/-- Grow the width when `next_code` would exceed its range (R71). -/
def EncUnit.growWidth (u : EncUnit) : EncUnit :=
  if 2 ^ u.regs.width.toNat ≤ u.regs.nextCode.toNat then
    { u with regs := { u.regs with width := BitVec.ofNat 4 (u.regs.width.toNat + 1) } }
  else u

/-- `enc.table[(enc.cur_code, k)] <- enc.next_code; enc.next_code <- enc.next_code + 1` (R71). -/
def EncUnit.insertKey (u : EncUnit) (k : Index) : EncUnit :=
  { u with
    regs :=
      { u.regs with
        table := { pre := u.regs.curCode, k := k, code := u.regs.nextCode.setWidth 12 } :: u.regs.table
        nextCode := BitVec.ofNat 13 (u.regs.nextCode.toNat + 1) } }

/-- `enc.cur_code <- k` (R71, R72). -/
def EncUnit.setCur (u : EncUnit) (c : Code) : EncUnit := { u with regs := { u.regs with curCode := c } }

/-- `enc.in_pos <- enc.in_pos + 1` (R69). -/
def EncUnit.advance (u : EncUnit) : EncUnit := { u with regs := { u.regs with inPos := u.regs.inPos + 1 } }

/-! ## The decoder: `MemRead`, `OutWrite`, the framing state and the bit accumulator -/

/-- `MemRead(a, 1)` (R35): none where the source buffer has no byte. -/
def DecUnit.memRead (u : DecUnit) (a : Nat) : Option Byte := u.cmd.src[a]?

/-- `OutWrite` of a run at consecutive cells (R36, R92). -/
def DecUnit.outWriteRun (u : DecUnit) (i : Nat) (run : List Index) : DecUnit :=
  { u with idx := Memory.writeRun u.idx i run }

/-- One byte has been read at `dec.src_pos` (R20, R80). -/
def DecUnit.advance (u : DecUnit) : DecUnit := { u with regs := { u.regs with srcPos := u.regs.srcPos + 1 } }

/-- A data byte goes above the bits held (R80, R81). -/
def DecUnit.pushByte (u : DecUnit) (b : Byte) : DecUnit :=
  { u with
    regs :=
      { u.regs with
        sbRem := BitVec.ofNat 8 (u.regs.sbRem.toNat - 1)
        acc := u.regs.acc ||| (b.setWidth 20 <<< u.regs.nbits.toNat)
        nbits := BitVec.ofNat 5 (u.regs.nbits.toNat + 8) } }

/-- The code read leaves the accumulator (R81). -/
def DecUnit.consumeCode (u : DecUnit) : DecUnit :=
  { u with
    regs :=
      { u.regs with
        acc := u.regs.acc >>> u.regs.width.toNat
        nbits := BitVec.ofNat 5 (u.regs.nbits.toNat - u.regs.width.toNat) } }

/-- The table reset of a clear code (R84, R112): storage keeps its stale cells. -/
def DecUnit.resetTable (u : DecUnit) : DecUnit :=
  { u with
    regs :=
      { u.regs with
        nextCode := BitVec.ofNat 13 (u.regs.eoiCode.toNat + 1)
        width := BitVec.ofNat 4 (u.regs.m.toNat + 1)
        prevValid := false } }

/-- `Insert(f)` (R93). -/
def DecUnit.insert (u : DecUnit) (f : Index) : DecUnit :=
  if u.regs.prevValid = true ∧ u.regs.nextCode.toNat < Config.tableSize then
    let c := u.regs.nextCode.toNat
    { u with
      regs :=
        { u.regs with
          prefixes := u.regs.prefixes.write c u.regs.prevCode
          suffixes := u.regs.suffixes.write c f
          nextCode := BitVec.ofNat 13 (c + 1)
          width :=
            if 2 ^ u.regs.width.toNat ≤ c + 1 ∧ u.regs.width.toNat < Config.maxCodeWidth then
              BitVec.ofNat 4 (u.regs.width.toNat + 1)
            else u.regs.width } }
  else u

/-- `dec.prev_code <- c; dec.prev_valid <- 1` (R91). -/
def DecUnit.setPrev (u : DecUnit) (c : Code) : DecUnit :=
  { u with regs := { u.regs with prevCode := c, prevValid := true } }

/-- `DecFinish()` (R95). -/
def DecUnit.finish (u : DecUnit) : DecUnit :=
  let v := { u with produced := u.regs.outPos }
  if v.endReason ≠ .overflow ∧ v.regs.outPos ≠ v.cmd.outputLength then
    if v.cmd.strict then v.raise .dLengthMismatch (.length .short v.regs.outPos v.cmd.outputLength)
    else { v.warnTooShort with phase := .done }
  else { v with phase := .done }

/-- `WriteRun(s)` when the run would pass `output_length` (R92): the fault of strict mode, or the warning and the end
of the command. -/
def DecUnit.overflow (u : DecUnit) : DecUnit :=
  if u.cmd.strict then u.raise .dLengthMismatch (.length .long u.regs.outPos u.cmd.outputLength)
  else (u.warnTooLong.setEndReason .overflow).finish

/-- `WriteRun(s)` when the run fits (R92). -/
def DecUnit.writeRun (u : DecUnit) (run : List Index) : DecUnit :=
  let v := u.outWriteRun u.regs.outPos run
  { v with regs := { v.regs with outPos := v.regs.outPos + run.length } }

/-- `DataCode(c, s)` (R91) for the run `first :: rest`, with the end of the command when `WriteRun` ends it (R65). -/
def DecUnit.dataCode (u : DecUnit) (c : Code) (first : Index) (rest : List Index) : DecUnit :=
  if u.cmd.outputLength < u.regs.outPos + (first :: rest).length then u.overflow
  else ((u.writeRun (first :: rest)).insert first).setPrev c

/-- The end by exhaustion (R82), then `DecFinish`. -/
def DecUnit.exhaust (u : DecUnit) : DecUnit := (u.setEndReason .exhausted).finish

/-- `DecStart()` once the byte at `p0` has been read (R79). -/
def DecUnit.start (b : Byte) (u : DecUnit) : DecUnit :=
  let v := { u with regs := { u.regs with srcPos := u.cmd.p0 + 1 } }
  if b.toNat < Config.mcsMin ∨ Config.mcsMax < b.toNat then
    v.raise .dBadMinCodeSize (.mcsByte b u.cmd.p0)
  else
    { v with
      started := true
      regs :=
        { v.regs with
          m := b.setWidth 4
          clearCode := BitVec.ofNat 9 (2 ^ b.toNat)
          eoiCode := BitVec.ofNat 9 (2 ^ b.toNat + 1)
          nextCode := BitVec.ofNat 13 (2 ^ b.toNat + 2)
          width := BitVec.ofNat 4 (b.toNat + 1)
          prevValid := false
          acc := 0
          nbits := 0
          sbRem := 0
          terminated := false
          outPos := 0 } }

/-! ## What a unit finds to run next -/

/-- What selects the encoder's next step (R64, R69). -/
def EncUnit.view (u : EncUnit) : EncView :=
  let k := BitVec.ofNat 8 ((u.inRead u.regs.inPos).getD 0)
  { started := u.started
    atEnd := decide (u.cmd.S.length ≤ u.regs.inPos)
    k := k
    hit := (u.regs.lookup u.regs.curCode k).isSome
    full := decide (u.regs.nextCode.toNat = Config.tableSize) }

/-- Whether ENC is in a command and its state selects this step. -/
def EncUnit.selects (u : EncUnit) (i : Instr) : Bool :=
  decide (u.phase = .run) && decide (decode (.encState u.view) = .instr i)

/-- The context of the next code (R52). -/
def DecRegs.codeCtx (r : DecRegs) : CodeCtx :=
  { clear := r.clearCode.toNat, eoi := r.eoiCode.toNat, next := r.nextCode.toNat, prevValid := r.prevValid,
    width := r.width.toNat }

/-- The code in the low bits of the accumulator, `acc[width-1:0]` (R53, R81). -/
def DecRegs.codeHeld (r : DecRegs) : Nat := r.acc.toNat % 2 ^ r.width.toNat

/-- What DEC finds. -/
inductive DecFetch where
  /-- A byte at a framing position, or a code in the accumulator. -/
  | raw (r : Raw)
  /-- A byte is needed at an offset where `SRC` has none (R35). -/
  | overrun (addr : Nat)
  /-- A byte is needed after the terminator: `NONE` (R80). -/
  | exhausted
  deriving DecidableEq, Repr

/-- A byte of the source buffer at a framing position, or the overrun (R35). -/
def DecUnit.fetchByteAt (u : DecUnit) (pos : FramePos) (a : Nat) : DecFetch :=
  match u.memRead a with
  | some b => .raw (.byte pos b)
  | none => .overrun a

/-- What DEC reads next: the min-code-size byte at the start (R79); a byte only while a code needs bits (R80, R81); else
the code. -/
def DecUnit.fetch (u : DecUnit) : DecFetch :=
  if u.started = false then u.fetchByteAt .mcs u.cmd.p0
  else if u.regs.nbits.toNat < u.regs.width.toNat then
    if u.regs.sbRem = 0#8 then
      if u.regs.terminated then .exhausted else u.fetchByteAt .length u.regs.srcPos
    else u.fetchByteAt .data u.regs.srcPos
  else .raw (.code u.regs.codeCtx u.regs.codeHeld)

/-- Whether DEC is in a command and finds this instruction.  A min-code-size byte that the table rejects still belongs to
B-MCS, whose meaning takes the fault (R79). -/
def DecUnit.selects (u : DecUnit) (i : Instr) : Bool :=
  decide (u.phase = .run) &&
    match u.fetch with
    | .raw r =>
      match decode r with
      | .instr j => decide (j = i)
      | .reject (.badMinCodeSize b) => decide (Instr.bMcs b = i)
      | .reject _ => false
    | .overrun _ => false
    | .exhausted => false

/-! ## Running a unit inside the block -/

/-- One step of ENC, when its state selects it; DEC, the host and every other field stay (R3). -/
def State.runEnc (s : State) (i : Instr) (f : EncUnit → EncUnit) : Result :=
  if s.enc.selects i then .next { s with enc := f s.enc } else .refused .notSelected

/-- One step of DEC, when it finds this instruction. -/
def State.runDec (s : State) (i : Instr) (f : DecUnit → DecUnit) : Result :=
  if s.dec.selects i then .next { s with dec := f s.dec } else .refused .notSelected

/-- Whether an agent has a move: a unit in phase RUN, or a host whose next move R66 allows (it waits while the unit the
move concerns is in RUN). -/
def State.ready (s : State) : Agent → Bool
  | .enc => decide (s.enc.phase = .run)
  | .dec => decide (s.dec.phase = .run)
  | .host =>
    match s.hostq with
    | [] => false
    | .encode _ :: _ => decide (s.enc.phase ≠ .run)
    | .decode _ :: _ => decide (s.dec.phase ≠ .run)
    | .writeIdx _ _ :: _ => decide (s.dec.phase ≠ .run)

/-- The agent that moves: the scheduled one, or else the first of the host, ENC and DEC that has a move.  None when no
agent has a move. -/
def State.nextAgent (s : State) : Option Agent :=
  (s.sched.take 1 ++ [Agent.host, Agent.enc, Agent.dec]).find? s.ready

/-- The host writes a cell of `IDX`, which it owns between commands (R36, R42, R66). -/
def State.hostWriteIdx (s : State) (pos : Nat) (v : Index) : Result :=
  if s.dec.phase = .run then .refused .memoryOwned
  else .next { s with dec := { s.dec with idx := Memory.write s.dec.idx pos v } }

end Sys2Proof.Machine
end

