-- ==== Sys2Proof/Machine/Operands.lean ====
section
/-! DEFINITION. Machine/Operands.lean: the operands of codes (30_encoding.md R53) and the sequences they stand for
(42_decoder.md R94). -/

namespace Sys2Proof.Machine

/-- The reversed `seq(c)` of R94 by its two equations, over at most `fuel` prefix links; none when they do not end at a
literal. -/
def DecRegs.seqRev (r : DecRegs) : Nat → Code → Option (List Index)
  | 0, _ => none
  | fuel + 1, c =>
    if c.toNat < r.clearCode.toNat then some [c.setWidth 8]
    else if r.eoiCode.toNat < c.toNat ∧ c.toNat < r.nextCode.toNat then
      (r.seqRev fuel (r.prefixes.read c.toNat)).map fun s => r.suffixes.read c.toNat :: s
    else none

/-- `seq(c)` (R94).  By R28 a chain has fewer than 4096 links. -/
def DecRegs.seq (r : DecRegs) (c : Code) : Option (List Index) := (r.seqRev Config.tableSize c).map List.reverse

/-- `first(c)` (R94). -/
def DecRegs.first (r : DecRegs) (c : Code) : Option Index := (r.seq c).bind List.head?

/-- The run of a KWK code, `p ++ [p[0]]` with `p = seq(prev_code)` (R88). -/
def DecRegs.kwkRun (r : DecRegs) : Option (List Index) :=
  match r.seq r.prevCode with
  | some (f :: p) => some (f :: p ++ [f])
  | _ => none

/-! ## The source's two-phase chase (R94)

The first walk finds the literal at the end of the prefix links and counts them; the second writes the suffixes from
the run's last position back to its second.  It is a second procedure for `seq`; the machine runs `seq`. -/

/-- The first walk: the literal and the number of links. -/
def DecRegs.chaseCount (r : DecRegs) : Nat → Code → Option (Index × Nat)
  | 0, _ => none
  | fuel + 1, c =>
    if c.toNat < r.clearCode.toNat then some (c.setWidth 8, 0)
    else if r.eoiCode.toNat < c.toNat ∧ c.toNat < r.nextCode.toNat then
      (r.chaseCount fuel (r.prefixes.read c.toNat)).map fun p => (p.1, p.2 + 1)
    else none

/-- The second walk: `n` links from `c`, each suffix written one position before the last, into `mem` at `at0`. -/
def DecRegs.chaseCopy (r : DecRegs) (mem : Memory 8) (at0 : Nat) : Nat → Code → Memory 8
  | 0, _ => mem
  | n + 1, c => r.chaseCopy (Memory.write mem (at0 + n + 1) (r.suffixes.read c.toNat)) at0 n (r.prefixes.read c.toNat)

/-- The second walk from `c` and the run's first index, `p` being what the first walk found. -/
def DecRegs.chaseWrite (r : DecRegs) (mem : Memory 8) (at0 : Nat) (c : Code) (p : Index × Nat) : Memory 8 :=
  Memory.write (r.chaseCopy mem at0 p.2 c) at0 p.1

/-- Both walks: the run of `c` written at `at0`, its first index last. -/
def DecRegs.chase (r : DecRegs) (mem : Memory 8) (at0 : Nat) (c : Code) : Option (Memory 8) :=
  (r.chaseCount Config.tableSize c).map (r.chaseWrite mem at0 c)

/-- The walks of a KwKwK code: they start from `prev_code`, and one more copy of `first(prev_code)` is written after
the run. -/
def DecRegs.chaseKwk (r : DecRegs) (mem : Memory 8) (at0 : Nat) : Option (Memory 8) :=
  (r.chaseCount Config.tableSize r.prevCode).map fun p =>
    Memory.write (r.chaseWrite mem at0 r.prevCode p) (at0 + p.2 + 1) p.1

end Sys2Proof.Machine
end

