-- ==== Sys2Proof/Machine/CodeClass.lean ====
section
/-! DEFINITION. Machine/CodeClass.lean: the code classes (42_decoder.md R83 to R91).

Each first takes the code out of the accumulator (R81), then acts on its class (R83). -/

namespace Sys2Proof.Machine

/-- A data code with a run (R91); `Fault.brokenChain` when R94 gives none. -/
def State.runDataCode (s : State) (i : Instr) (c : Code) (run : Option (List Index)) : Result :=
  if s.dec.selects i then
    match run with
    | some (first :: rest) => .next { s with dec := s.dec.consumeCode.dataCode c first rest }
    | some [] => .fault .brokenChain
    | none => .fault .brokenChain
  else .refused .notSelected

/-- The two illegal classes (R89, R90). -/
def DecUnit.illegal (cause : Cause) (c : Code) (u : DecUnit) : DecUnit :=
  u.consumeCode.raise cause (.code c u.regs.nextCode u.regs.srcPos)

/-- `DecClear()` (R84). -/
def DecUnit.clearCode (u : DecUnit) : DecUnit := u.consumeCode.resetTable

/-- `DecEoi()` (R85), then `DecFinish()` (R65, R95). -/
def DecUnit.endOfInformation (u : DecUnit) : DecUnit := (u.consumeCode.setEndReason .eoi).finish

/-- CLR (R84). -/
def execClr (s : State) : Result := s.runDec .clr DecUnit.clearCode

/-- EOI (R85). -/
def execEoi (s : State) : Result := s.runDec .eoi DecUnit.endOfInformation

/-- LIT (R86). -/
def execLit (k : Index) (s : State) : Result := s.runDataCode (.lit k) (k.setWidth 12) (some [k])

/-- TAB (R87). -/
def execTab (c : Code) (s : State) : Result :=
  s.runDataCode (.tab c) c (s.dec.regs.seq c)

/-- KWK (R88). -/
def execKwk (c : Code) (s : State) : Result :=
  s.runDataCode (.kwk c) c s.dec.regs.kwkRun

/-- ILL-NOPREV (R89). -/
def execIllNoPrev (c : Code) (s : State) : Result := s.runDec (.illNoPrev c) (DecUnit.illegal .dKwkwkNoPrev c)

/-- ILL-RANGE (R90). -/
def execIllRange (c : Code) (s : State) : Result := s.runDec (.illRange c) (DecUnit.illegal .dInvalidCode c)

end Sys2Proof.Machine
end

