-- ==== Sys2Proof/Machine/Command.lean ====
section
/-! DEFINITION. Machine/Command.lean: the two host commands (40_host_commands.md R64, R65).

A command here is its start (R110, R111); its steps are the instructions of EncStep.lean, Framing.lean and CodeClass.lean,
which `step` runs one at a time until the unit leaves RUN. -/

namespace Sys2Proof.Machine

/-- ENCODE (R64, R110).  Never on a unit in RUN (R61, R66). -/
def execEncode (r : EncodeRecord) (s : State) : Result :=
  if s.enc.phase = .run then .refused .encBusy
  else .next { s with enc := EncUnit.begin r s.freeTick, freeTick := s.freeTick + 1 }

/-- DECODE (R65, R111).  Never on a unit in RUN (R61, R66). -/
def execDecode (r : DecodeRecord) (s : State) : Result :=
  if s.dec.phase = .run then .refused .decBusy
  else .next { s with dec := DecUnit.begin r s.freeTick s.dec.idx, freeTick := s.freeTick + 1 }

end Sys2Proof.Machine
end

