-- ==== Sys2Proof/Machine/EncStep.lean ====
section
/-! DEFINITION. Machine/EncStep.lean: the steps of the encoder (41_encoder.md R68 to R73). -/

namespace Sys2Proof.Machine

/-- The registers R68 writes before it appends anything. -/
def EncUnit.startRegs (u : EncUnit) : EncUnit :=
  { u with
    started := true
    regs :=
      { u.regs with
        m := u.cmd.m.setWidth 4
        clearCode := BitVec.ofNat 9 (2 ^ u.cmd.m.toNat)
        eoiCode := BitVec.ofNat 9 (2 ^ u.cmd.m.toNat + 1)
        nextCode := BitVec.ofNat 13 (2 ^ u.cmd.m.toNat + 2)
        width := BitVec.ofNat 4 (u.cmd.m.toNat + 1)
        table := []
        acc := 0
        nbits := 0
        sbLen := 0 } }

/-- The part of R68 after its three checks, `first` being `S[0]`. -/
def EncUnit.startValid (first : Nat) (u : EncUnit) : EncUnit :=
  let v := u.startRegs.append u.cmd.m
  let w := v.emitCode (v.regs.clearCode.setWidth 12)
  { w with regs := { w.regs with curCode := BitVec.ofNat 12 first, inPos := 1 } }

/-- EncStart (R68): the three checks in their order, then the start. -/
def EncUnit.start (u : EncUnit) : EncUnit :=
  if u.cmd.m.toNat < Config.mcsMin ∨ Config.mcsMax < u.cmd.m.toNat then
    u.raise .eBadMinCodeSize (.minCodeSize u.cmd.m)
  else
    match u.inRead 0 with
    | none => u.raise .eEmptyInput .empty
    | some first =>
      match u.cmd.S.findIdx? fun v => decide (2 ^ u.cmd.m.toNat ≤ v) with
      | some i => u.raise .eIndexRange (.index i ((u.inRead i).getD 0))
      | none => u.startValid first

/-- EncHit(k) (R70), then the advance of R69. -/
def EncUnit.hit (k : Index) (u : EncUnit) : EncUnit :=
  (u.setCur ((u.regs.lookup u.regs.curCode k).getD u.regs.curCode)).advance

/-- EncMiss(k) (R71), then the advance of R69. -/
def EncUnit.miss (k : Index) (u : EncUnit) : EncUnit :=
  ((((u.emitCode u.regs.curCode).growWidth).insertKey k).setCur (k.setWidth 12)).advance

/-- EncFull(k) (R72), then the advance of R69. -/
def EncUnit.full (k : Index) (u : EncUnit) : EncUnit :=
  ((((u.emitCode u.regs.curCode).emitCode (u.regs.clearCode.setWidth 12)).resetTable).setCur (k.setWidth 12)).advance

/-- The last partial byte, with zero pad bits (R56, R73). -/
def EncUnit.padByte (u : EncUnit) : EncUnit :=
  if 0 < u.regs.nbits.toNat then
    let v := u.putByte (u.regs.acc.setWidth 8)
    { v with regs := { v.regs with acc := 0, nbits := 0 } }
  else u

/-- EncFinish (R73). -/
def EncUnit.finish (u : EncUnit) : EncUnit :=
  let v := ((u.emitCode u.regs.curCode).emitCode (u.regs.eoiCode.setWidth 12)).padByte
  let w := if 0 < v.regs.sbLen.toNat then v.closeSubBlock else v
  { w.append 0 with phase := .done }

/-- ENC-START (R68). -/
def execEncStart (s : State) : Result := s.runEnc .encStart EncUnit.start

/-- ENC-HIT (R69, R70). -/
def execEncHit (k : Index) (s : State) : Result := s.runEnc (.encHit k) (EncUnit.hit k)

/-- ENC-MISS (R69, R71). -/
def execEncMiss (k : Index) (s : State) : Result := s.runEnc (.encMiss k) (EncUnit.miss k)

/-- ENC-FULL (R69, R72). -/
def execEncFull (k : Index) (s : State) : Result := s.runEnc (.encFull k) (EncUnit.full k)

/-- ENC-FINISH (R73). -/
def execEncFinish (s : State) : Result := s.runEnc .encFinish EncUnit.finish

end Sys2Proof.Machine
end

