-- ==== Sys2Proof/Machine/Framing.lean ====
section
/-! DEFINITION. Machine/Framing.lean: the framing bytes as the decoder reads them (30_encoding.md R47, R48; 42_decoder.md
R79, R80). -/

namespace Sys2Proof.Machine

/-- A length byte other than 0 (R80). -/
def DecUnit.lenByte (len : Byte) (u : DecUnit) : DecUnit :=
  let v := u.advance
  { v with regs := { v.regs with sbRem := len } }

/-- The terminator (R80); the code that needed it gets `NONE`, which ends the command (R81, R82, R95). -/
def DecUnit.terminator (u : DecUnit) : DecUnit :=
  let v := u.advance
  { v with regs := { v.regs with terminated := true } }.exhaust

/-- A data byte (R80), which the code that needed it takes into the accumulator (R81). -/
def DecUnit.dataByte (b : Byte) (u : DecUnit) : DecUnit := u.advance.pushByte b

/-- B-MCS (R79): the start step of DECODE. -/
def execBMcs (m : Byte) (s : State) : Result := s.runDec (.bMcs m) (DecUnit.start m)

/-- B-LEN (R80). -/
def execBLen (len : Byte) (s : State) : Result := s.runDec (.bLen len) (DecUnit.lenByte len)

/-- B-TERM (R80, R82). -/
def execBTerm (s : State) : Result := s.runDec .bTerm DecUnit.terminator

/-- B-DATA (R80, R81). -/
def execBData (b : Byte) (s : State) : Result := s.runDec (.bData b) (DecUnit.dataByte b)

end Sys2Proof.Machine
end

