-- ==== Sys2Proof/Machine/Dispatch.lean ====
section
/-! DEFINITION. Machine/Dispatch.lean: one arm per instruction, each a direct call of its meaning. -/

namespace Sys2Proof.Machine

def exec (i : Instr) (s : State) : Host.Outcome State Fault Refusal :=
  match i with
  | .encode r => Sys2Proof.Machine.execEncode r s
  | .decode r => Sys2Proof.Machine.execDecode r s
  | .encStart => Sys2Proof.Machine.execEncStart s
  | .encHit k => Sys2Proof.Machine.execEncHit k s
  | .encMiss k => Sys2Proof.Machine.execEncMiss k s
  | .encFull k => Sys2Proof.Machine.execEncFull k s
  | .encFinish => Sys2Proof.Machine.execEncFinish s
  | .bMcs m => Sys2Proof.Machine.execBMcs m s
  | .bLen len => Sys2Proof.Machine.execBLen len s
  | .bTerm => Sys2Proof.Machine.execBTerm s
  | .bData b => Sys2Proof.Machine.execBData b s
  | .clr => Sys2Proof.Machine.execClr s
  | .eoi => Sys2Proof.Machine.execEoi s
  | .lit k => Sys2Proof.Machine.execLit k s
  | .tab c => Sys2Proof.Machine.execTab c s
  | .kwk c => Sys2Proof.Machine.execKwk c s
  | .illNoPrev c => Sys2Proof.Machine.execIllNoPrev c s
  | .illRange c => Sys2Proof.Machine.execIllRange c s

end Sys2Proof.Machine
end

