-- ==== Sys2Proof/Machine/Step.lean ====
section
/-! DEFINITION. Machine/Step.lean: one step of the block.

A step is one move of one agent: the host issues its next command or writes a cell of `IDX`, ENC runs the step its state
selects, or DEC runs what it finds.  The granularity is not architectural (70_reset_and_hazards.md R122). -/

namespace Sys2Proof.Machine

/-- The host's next move. -/
def stepHost (s : State) : Result :=
  match s.hostq with
  | [] => .next s
  | .encode r :: rest => exec (.encode r) { s with hostq := rest }
  | .decode r :: rest => exec (.decode r) { s with hostq := rest }
  | .writeIdx pos v :: rest => State.hostWriteIdx { s with hostq := rest } pos v

/-- ENC's next step. -/
def stepEnc (s : State) : Result := exec (selectEnc s.enc.view) s

/-- DEC's next step: what it finds, the fault of a read past `SRC` (R35), or the end by exhaustion (R82). -/
def stepDec (s : State) : Result :=
  match s.dec.fetch with
  | .raw r =>
    match decode r with
    | .instr i => exec i s
    | .reject (.badMinCodeSize b) => exec (.bMcs b) s
    | .reject _ => .fault .illegalWidth
  | .overrun a => .next { s with dec := s.dec.raise .dSourceOverrun (.overrun a) }
  | .exhausted => .next { s with dec := s.dec.exhaust }

/-- The schedule moves on by one entry. -/
def State.nextTurn (s : State) : State := { s with sched := s.sched.drop 1 }

/-- One step: the agent whose turn it is makes its move; nothing happens while none has one (R113). -/
def step (s : State) : Host.Outcome State Fault Refusal :=
  match s.nextAgent with
  | none => .next s
  | some .host => stepHost s.nextTurn
  | some .enc => stepEnc s.nextTurn
  | some .dec => stepDec s.nextTurn

/-- A decoder unit in the middle of a command, right after its start step with minimum code size `m`. -/
def DecUnit.placed (u : DecUnit) (m : Nat) (src : List Byte) : DecUnit :=
  { u with
    phase := .run, started := true, cmd := { u.cmd with src := src, p0 := 0 },
    regs :=
      { u.regs with
        m := BitVec.ofNat 4 m
        clearCode := BitVec.ofNat 9 (2 ^ m)
        eoiCode := BitVec.ofNat 9 (2 ^ m + 1)
        nextCode := BitVec.ofNat 13 (2 ^ m + 2)
        width := BitVec.ofNat 4 (m + 1)
        prevValid := false
        acc := 0
        nbits := 0
        srcPos := 1
        sbRem := 0
        terminated := false } }

/-- The state in which the very next step runs the instruction `decodeTableWord nbits w`: DEC is in a command, right after
its start step, and finds the byte at a length position, or holds the code (notes/assumptions/13.md). -/
def State.withFetchWord (s : State) (nbits w : Nat) : State :=
  if nbits = 8 then
    { s with dec := s.dec.placed 2 [2#8, BitVec.ofNat 8 w], sched := [.dec] }
  else
    let u := s.dec.placed 8 [8#8]
    { s with dec := { u with regs := { u.regs with acc := BitVec.ofNat 20 (w % 2 ^ 9), nbits := 9 } }, sched := [.dec] }

end Sys2Proof.Machine
end

