-- ==== Sys2Proof/Machine/Reference.lean ====
section
/-! DEFINITION. Machine/Reference.lean: the decoder's own step, as its pseudocode writes it.

`step` runs one framing byte or one code at a time; 42_decoder.md R80, R81 and R83 read all the bytes a code needs and
act on the code in one `DecStep`.  `DecUnit.decStep` is that step, in the order and with the names of the pseudocode,
and `Obligations.StepsRefineDecStep` says that the machine's steps add up to it. -/

namespace Sys2Proof.Machine

/-- The answer of `FetchByte` and `ReadCode`: a value, `NONE`, or a unit that has raised a fault. -/
inductive Got (α : Type) where
  | value (a : α) (u : DecUnit)
  | noMore (u : DecUnit)
  | raised (u : DecUnit)

/-- The last three lines of `FetchByte` (R80). -/
def DecUnit.readDataByte (u : DecUnit) : Got Byte :=
  match u.memRead u.regs.srcPos with
  | none => .raised (u.raise .dSourceOverrun (.overrun u.regs.srcPos))
  | some b =>
    .value b
      { u with
        regs := { u.regs with srcPos := u.regs.srcPos + 1, sbRem := BitVec.ofNat 8 (u.regs.sbRem.toNat - 1) } }

/-- `FetchByte()` (R80).  Its loop goes round at most once, since a length byte other than 0 ends it. -/
def DecUnit.fetchByte (u : DecUnit) : Got Byte :=
  if u.regs.sbRem = 0#8 then
    if u.regs.terminated then .noMore u
    else
      match u.memRead u.regs.srcPos with
      | none => .raised (u.raise .dSourceOverrun (.overrun u.regs.srcPos))
      | some len =>
        let v := { u with regs := { u.regs with srcPos := u.regs.srcPos + 1 } }
        if len = 0#8 then .noMore { v with regs := { v.regs with terminated := true } }
        else DecUnit.readDataByte { v with regs := { v.regs with sbRem := len } }
  else u.readDataByte

/-- `ReadCode()` (R81).  `width` is below 16, so its loop fetches at most two bytes. -/
def DecUnit.readCode : Nat → DecUnit → Got Nat
  | 0, u => .noMore u
  | fuel + 1, u =>
    if u.regs.nbits.toNat < u.regs.width.toNat then
      match u.fetchByte with
      | .value b v =>
        DecUnit.readCode fuel
          { v with
            regs :=
              { v.regs with
                acc := v.regs.acc ||| (b.setWidth 20 <<< v.regs.nbits.toNat)
                nbits := BitVec.ofNat 5 (v.regs.nbits.toNat + 8) } }
      | .noMore v => .noMore v
      | .raised v => .raised v
    else .value u.regs.codeHeld u.consumeCode

/-- `DataCode(c, s)` for a run that R94 may not give. -/
def DecUnit.dataCode? (u : DecUnit) (c : Code) (run : Option (List Index)) : Option DecUnit :=
  match run with
  | some (first :: rest) => some (u.dataCode c first rest)
  | _ => none

/-- `DecStep()` (R83), with the `DecFinish` that follows an END (R65).  None in the states where the machine's own
step stops (`Fault`). -/
def DecUnit.decStep (u : DecUnit) : Option DecUnit :=
  match u.readCode 3 with
  | .noMore v => some (v.setEndReason .exhausted).finish
  | .raised v => some v
  | .value c v =>
    if Config.tableSize ≤ c then none
    else
      let code := BitVec.ofNat 12 c
      if c = v.regs.clearCode.toNat then some v.resetTable
      else if c = v.regs.eoiCode.toNat then some (v.setEndReason .eoi).finish
      else if c < v.regs.clearCode.toNat then v.dataCode? (code.setWidth 8 |>.setWidth 12) (some [code.setWidth 8])
      else if c < v.regs.nextCode.toNat then v.dataCode? code (v.regs.seq code)
      else if c = v.regs.nextCode.toNat ∧ v.regs.prevValid = true then v.dataCode? code v.regs.kwkRun
      else if c = v.regs.nextCode.toNat then
        some (v.raise .dKwkwkNoPrev (.code code v.regs.nextCode v.regs.srcPos))
      else some (v.raise .dInvalidCode (.code code v.regs.nextCode v.regs.srcPos))

/-- The loop of DECODE (R65): at most `n` steps, ending with the command. -/
def DecUnit.decSteps : Nat → DecUnit → Option DecUnit
  | 0, u => some u
  | n + 1, u => if u.phase = .run then u.decStep.bind (DecUnit.decSteps n) else some u

end Sys2Proof.Machine
end

