-- ==== Sys2Proof/Machine/System.lean ====
section
/-! DEFINITION. Machine/System.lean: any number of blocks at once (00_scope.md R4; 60_exceptions.md R107).

Blocks share no state and send each other nothing, so a system is a list of them and a move of the system is one step
of one block.  A source buffer that several decoders read at once (20_memory.md R42) is held by each in its command
record, which no step writes. -/

namespace Sys2Proof.Machine

/-- A system of blocks. -/
abbrev System := List State

/-- One step of block `i`; a position with no block has no move. -/
def System.stepAt (sys : System) (i : Nat) : Host.Outcome System Fault Refusal :=
  match sys[i]? with
  | none => .next sys
  | some s =>
    match step s with
    | .next t => .next (sys.set i t)
    | .fault f => .fault f
    | .refused r => .refused r

/-- A schedule of a system: which block moves at each step. -/
def System.run : List Nat → System → Host.Outcome System Fault Refusal
  | [], sys => .next sys
  | i :: rest, sys =>
    match sys.stepAt i with
    | .next t => System.run rest t
    | .fault f => .fault f
    | .refused r => .refused r

end Sys2Proof.Machine
end

