-- ==== Sys2Proof/Safety.lean ====
section
/-! DEFINITION. Safety.lean: what a run shows, what the host owes, and what every reachable state satisfies. -/

namespace Sys2Proof.Machine

/-! ## What the host sees (10_state.md R23; 40_host_commands.md R63) -/

/-- The result of an ENCODE: its status record and `OUT`. -/
structure EncResult where
  phase : Phase
  cause : Cause
  info : Info
  outLen : Nat
  out : List Byte
  deriving DecidableEq, Repr

/-- The result of a DECODE: its status record and the cells `0 .. produced - 1` of `IDX`.  `endReason` is shown in
phase DONE only (93_implementation_defined.md U10). -/
structure DecResult where
  phase : Phase
  cause : Cause
  info : Info
  produced : Nat
  endReason : Option EndReason
  tooLong : Bool
  tooShort : Bool
  cells : List (Option Index)
  deriving DecidableEq, Repr

/-- What the host may read of ENC: nothing before the end of a command (R42, R63). -/
def EncUnit.result (u : EncUnit) : Option EncResult :=
  if u.phase = .done ∨ u.phase = .fault then
    some { phase := u.phase, cause := u.cause, info := u.info, outLen := u.outLen, out := u.out }
  else none

/-- What the host may read of DEC. -/
def DecUnit.result (u : DecUnit) : Option DecResult :=
  if u.phase = .done ∨ u.phase = .fault then
    some
      { phase := u.phase, cause := u.cause, info := u.info, produced := u.produced,
        endReason := if u.phase = .done then some u.endReason else none,
        tooLong := u.tooLong, tooShort := u.tooShort,
        cells := (List.range u.produced).map (Memory.read u.idx) }
  else none

/-! ## When an instruction is next

The match column of the table, as conditions on the registers.  Statements take them as hypotheses. -/

/-- ENC is at the index `k = S[in_pos]` of a command whose start step has run (R69). -/
def EncUnit.AtIndex (u : EncUnit) (k : Index) : Prop :=
  u.phase = .run ∧ u.started = true ∧ ∃ v, u.cmd.S[u.regs.inPos]? = some v ∧ k = BitVec.ofNat 8 v

/-- DEC, in a command whose start step has run, has too few bits for a code (R81). -/
def DecUnit.NeedsByte (u : DecUnit) : Prop :=
  u.phase = .run ∧ u.started = true ∧ u.regs.nbits.toNat < u.regs.width.toNat

/-- DEC, in a command whose start step has run, holds the code `c`, `acc[width-1:0]` (R53, R81). -/
def DecUnit.HoldsCode (u : DecUnit) (c : Nat) : Prop :=
  u.phase = .run ∧ u.started = true ∧ u.regs.width.toNat ≤ u.regs.nbits.toNat ∧ u.regs.codeHeld = c

/-- The code and the run of a data code (R86, R87, R88). -/
def DecRegs.runOf (r : DecRegs) : Instr → Option (Code × List Index)
  | .lit k => some (k.setWidth 12, [k])
  | .tab c => (r.seq c).map fun s => (c, s)
  | .kwk c => r.kwkRun.map fun s => (c, s)
  | .encode _ | .decode _ | .encStart | .encHit _ | .encMiss _ | .encFull _ | .encFinish
  | .bMcs _ | .bLen _ | .bTerm | .bData _ | .clr | .eoi | .illNoPrev _ | .illRange _ => none

/-- The steps of the encoder. -/
def IsEncStep (i : Instr) : Prop :=
  i = .encStart ∨ (∃ k, i = .encHit k) ∨ (∃ k, i = .encMiss k) ∨ (∃ k, i = .encFull k) ∨ i = .encFinish

/-- What the decoder runs: framing bytes and codes. -/
def IsDecStep (i : Instr) : Prop :=
  (∃ b, i = .bMcs b) ∨ (∃ b, i = .bLen b) ∨ i = .bTerm ∨ (∃ b, i = .bData b) ∨ i.isCode = true

/-- The block with a schedule that gives the next `n` moves to one agent. -/
def State.onlyFor (s : State) (a : Agent) (n : Nat) : State := { s with sched := List.replicate n a }

/-! ## The bits an encoder holds (20_memory.md R37) -/

/-- The code-stream bits that ENC holds: those of the bytes in `sb_buf`, then the valid bits of the accumulator. -/
def EncRegs.heldBits (r : EncRegs) : List Bool := dataBits r.sbBytes ++ bitsOfNat r.nbits.toNat r.acc.toNat

/-! ## What the host owes (40_host_commands.md R66) -/

/-- The `m` the host gives ENCODE for a palette: `max(2, ceil(log2(palette_size)))`. -/
def hostMinCodeSize (paletteSize : Nat) : Nat := max 2 (Nat.clog 2 paletteSize)

/-- The palette sizes R66 names: powers of two in [2, 256]. -/
def PaletteSize (p : Nat) : Prop := ∃ e, 1 ≤ e ∧ e ≤ 8 ∧ p = 2 ^ e

/-- An ENCODE record as R66 has the host make it for a frame of `w * h` indices. -/
def EncodeDuty (paletteSize w h : Nat) (r : EncodeRecord) : Prop :=
  PaletteSize paletteSize ∧ r.m.toNat = hostMinCodeSize paletteSize ∧ r.S.length = w * h ∧
    ∀ v ∈ r.S, v < paletteSize

/-- A DECODE record as R66 has the host make it for a frame of `w * h` indices whose data lies at `offset`. -/
def DecodeDuty (offset w h : Nat) (r : DecodeRecord) : Prop := r.p0 = offset ∧ r.outputLength = w * h

/-! ## Invariants -/

/-- A code that stands for a sequence when `next_code` is `next`: a literal or a code in the table. -/
def DataCodeBelow (clear eoi next c : Nat) : Prop := c < clear ∨ (eoi < c ∧ c < next)

/-- The encoder between the steps of a command (R16, R17, R27, R76, R77). -/
structure EncRegs.Legal (r : EncRegs) : Prop where
  m_range : 2 ≤ r.m.toNat ∧ r.m.toNat ≤ 8
  clear_eq : r.clearCode.toNat = 2 ^ r.m.toNat
  eoi_eq : r.eoiCode.toNat = 2 ^ r.m.toNat + 1
  next_range : r.eoiCode.toNat + 1 ≤ r.nextCode.toNat ∧ r.nextCode.toNat ≤ 4096
  width_eq : r.width.toNat = max (r.m.toNat + 1) (bitlen (r.nextCode.toNat - 1))
  cur_legal : DataCodeBelow r.clearCode.toNat r.eoiCode.toNat r.nextCode.toNat r.curCode.toNat
  nbits_lt : r.nbits.toNat < 8
  acc_lt : r.acc.toNat < 2 ^ r.nbits.toNat
  sbLen_le : r.sbLen.toNat ≤ 254
  /-- R27: the codes in the table are `eoi_code + 1 .. next_code - 1`, each once, the newest at the head. -/
  table_codes : r.table.map (fun e => e.code.toNat) = (List.range' (r.eoiCode.toNat + 1) r.table.length).reverse
  table_size : r.table.length = r.nextCode.toNat - (r.eoiCode.toNat + 1)
  /-- R27: no key twice. -/
  table_keys : (r.table.map fun e => (e.pre, e.k)).Nodup
  /-- R27: every key's prefix is a literal or a code inserted before. -/
  table_links : ∀ e ∈ r.table, DataCodeBelow r.clearCode.toNat r.eoiCode.toNat e.code.toNat e.pre.toNat

/-- The encoder unit in a command whose start step has run. -/
structure EncUnit.Running (u : EncUnit) : Prop where
  regs : u.regs.Legal
  cmd_m : u.cmd.m.toNat = u.regs.m.toNat
  input : ∀ v ∈ u.cmd.S, v < 2 ^ u.cmd.m.toNat
  pos_range : 1 ≤ u.regs.inPos ∧ u.regs.inPos ≤ u.cmd.S.length
  out_len : u.outLen = u.out.length
  /-- What has been appended is `m` and full sub-blocks (R55, R75). -/
  framed : ∃ blocks : List (List Byte), (∀ d ∈ blocks, d.length = 255) ∧ u.out = u.cmd.m :: blocks.flatMap subBlock

/-- The encoder invariant: nothing is claimed before the start step has run (R110). -/
def EncUnit.Inv (u : EncUnit) : Prop :=
  u.phase = .run → if u.started then u.Running else u.out = [] ∧ u.outLen = 0

/-- The decoder between the steps of a command (R18, R19, R28, R96). -/
structure DecRegs.Legal (r : DecRegs) : Prop where
  m_range : 2 ≤ r.m.toNat ∧ r.m.toNat ≤ 8
  clear_eq : r.clearCode.toNat = 2 ^ r.m.toNat
  eoi_eq : r.eoiCode.toNat = 2 ^ r.m.toNat + 1
  next_range : r.eoiCode.toNat + 1 ≤ r.nextCode.toNat ∧ r.nextCode.toNat ≤ 4096
  width_eq : r.width.toNat = min 12 (bitlen r.nextCode.toNat)
  nbits_le : r.nbits.toNat ≤ 19
  acc_lt : r.acc.toNat < 2 ^ r.nbits.toNat
  not_terminated : r.terminated = false
  /-- R84, R79: with no previous code the table is empty. -/
  fresh : r.prevValid = false → r.nextCode.toNat = r.eoiCode.toNat + 1
  prev_legal : r.prevValid = true →
    DataCodeBelow r.clearCode.toNat r.eoiCode.toNat r.nextCode.toNat r.prevCode.toNat
  /-- R28: following prefix links reaches a literal. -/
  links : ∀ c, r.eoiCode.toNat < c → c < r.nextCode.toNat →
    DataCodeBelow r.clearCode.toNat r.eoiCode.toNat c (r.prefixes.read c).toNat
  /-- Every stored last byte is an index of `m` bits. -/
  bytes : ∀ c, r.eoiCode.toNat < c → c < r.nextCode.toNat → (r.suffixes.read c).toNat < r.clearCode.toNat

/-- The decoder unit in a command whose start step has run. -/
structure DecUnit.Running (u : DecUnit) : Prop where
  regs : u.regs.Legal
  src_range : u.cmd.p0 < u.regs.srcPos ∧ u.regs.srcPos ≤ u.cmd.src.length
  out_range : u.regs.outPos ≤ u.cmd.outputLength
  no_warning : u.tooLong = false ∧ u.tooShort = false
  /-- The cells produced so far hold indices of `m` bits. -/
  written : ∀ i, i < u.regs.outPos → ∃ v, Memory.read u.idx i = some v ∧ v.toNat < u.regs.clearCode.toNat

/-- The decoder invariant: before the start step only the cursors are set (R111). -/
def DecUnit.Inv (u : DecUnit) : Prop :=
  u.phase = .run →
    if u.started then u.Running
    else u.regs.outPos = 0 ∧ u.regs.srcPos = u.cmd.p0 ∧ u.tooLong = false ∧ u.tooShort = false

/-- Every memory is in its canonical form. -/
def State.memWf (s : State) : Bool :=
  Memory.wf s.enc.regs.sbBuf.cells && Memory.wf s.dec.regs.prefixes.cells &&
    Memory.wf s.dec.regs.suffixes.cells && Memory.wf s.dec.idx

/-- The invariant of the block. -/
def State.Inv (s : State) : Prop := s.enc.Inv ∧ s.dec.Inv ∧ s.memWf = true

end Sys2Proof.Machine
end

