-- ==== Sys2Proof/Certificates/Slice0/Obligations.lean ====
section
/-! DEFINITION. Obligations.lean: what is claimed of the machine, one definition each, for the provers.

The file follows the spec's files: commands and phases, the encoder, the decoder, faults, encoding, the invariant and
the whole-machine rules. -/

section

open Sys2Proof Sys2Proof.Machine

/-! ## Power-on and commands -/

/-- R109, R113: at power-on both units are IDLE, and no step happens until the host starts a command.  The other power-on
values are the model's (notes/assumptions/1.md) and are not stated; that a step with no agent to move leaves the
state as it is, is the model's step (notes/assumptions/3.md). -/
def Obligations.PowerOnTakesNoStep : Prop :=
  State.reset.enc.phase = .idle ∧ State.reset.dec.phase = .idle ∧ step State.reset = .next State.reset

/-- R64, R110 (second column), R113: ENCODE on a unit that is not in RUN starts the command.  Nothing but ENC and the
model's own counter of free values changes; the free values of the datapath (notes/assumptions/4.md) are not
stated. -/
def Obligations.EncodeStartsCommand : Prop :=
  ∀ (r : EncodeRecord) (s : State), s.enc.phase ≠ .run →
    ∃ t, exec (.encode r) s = .next t ∧ t.enc.phase = .run ∧ t.enc.started = false ∧ t.enc.cmd = r ∧
      t.enc.cause = .none ∧ t.enc.info = .empty ∧ t.enc.outLen = 0 ∧ t.enc.out = [] ∧
      selectEnc t.enc.view = .encStart ∧ t = { s with enc := t.enc, freeTick := s.freeTick + 1 }

/-- R65, R111 (second column), R113: DECODE on a unit that is not in RUN starts the command; the first thing DEC
finds is the min-code-size byte at `p0`; `IDX` is as the host left it.  R13: a record written without `STRICT_LENGTH`
starts a tolerant command.  That `out_pos` is 0 is the model's reading (notes/assumptions/5.md, DEDUCED); the free
values of the datapath (notes/assumptions/4.md) are not stated. -/
def Obligations.DecodeStartsCommand : Prop :=
  (∀ (r : DecodeRecord) (s : State), s.dec.phase ≠ .run →
    ∃ t, exec (.decode r) s = .next t ∧ t.dec.phase = .run ∧ t.dec.started = false ∧ t.dec.cmd = r ∧
      t.dec.cause = .none ∧ t.dec.info = .empty ∧ t.dec.tooLong = false ∧ t.dec.tooShort = false ∧
      t.dec.regs.srcPos = r.p0 ∧ t.dec.regs.outPos = 0 ∧ t.dec.idx = s.dec.idx ∧
      (∀ b, r.src[r.p0]? = some b → t.dec.fetch = .raw (.byte .mcs b)) ∧
      (r.src.length ≤ r.p0 → t.dec.fetch = .overrun r.p0) ∧
      t = { s with dec := t.dec, freeTick := s.freeTick + 1 }) ∧
  ∀ (src : List Byte) (p0 n : Nat) (s : State), s.dec.phase ≠ .run →
    ∃ t, exec (.decode { src := src, p0 := p0, outputLength := n }) s = .next t ∧ t.dec.phase = .run ∧
      t.dec.cmd.strict = false

/-- R61, R66 (93_implementation_defined.md U16): a command on a unit in RUN is no move of the model.  The refusal by name
is the model's way to say that the host has no such move (notes/assumptions/9.md, DESIGN CHOICE). -/
def Obligations.CommandOnRunningUnitIsRefused : Prop :=
  (∀ (r : EncodeRecord) (s : State), s.enc.phase = .run → exec (.encode r) s = .refused .encBusy) ∧
    ∀ (r : DecodeRecord) (s : State), s.dec.phase = .run → exec (.decode r) s = .refused .decBusy

/-- R61, R105, R42, R46: a unit that is not in RUN changes only when the host starts its next command (or, for DEC,
writes a cell of the `IDX` it owns between commands); a unit in RUN leaves it only for DONE or FAULT, and while it
runs no step writes its command record, its `S` or its `SRC`.  The host's moves stand in a queue of the model
(notes/assumptions/2.md, DESIGN CHOICE). -/
def Obligations.UnitsChangeOnlyByTheirCommands : Prop :=
  ∀ s t : State, step s = .next t →
    (s.enc.phase ≠ .run → t.enc = s.enc ∨ ∃ r rest, s.hostq = .encode r :: rest ∧ t.enc = EncUnit.begin r s.freeTick) ∧
    (s.dec.phase ≠ .run →
      t.dec = s.dec ∨
        (∃ r rest, s.hostq = .decode r :: rest ∧ t.dec = DecUnit.begin r s.freeTick s.dec.idx) ∨
        ∃ pos v rest, s.hostq = .writeIdx pos v :: rest ∧
          t.dec = { s.dec with idx := Memory.write s.dec.idx pos v }) ∧
    (s.enc.phase = .run → t.enc.phase ≠ .idle ∧ t.enc.cmd = s.enc.cmd) ∧
    (s.dec.phase = .run → t.dec.phase ≠ .idle ∧ t.dec.cmd = s.dec.cmd)

/-! ## The encoder -/

/-- R68: the three checks of EncStart in their order, then the start.  The start's last two writes follow the emission
of the clear code. -/
def Obligations.EncStartFollowsItsPseudocode : Prop :=
  ∀ s : State, s.enc.phase = .run → s.enc.started = false →
    let m := s.enc.cmd.m.toNat
    ((m < 2 ∨ 8 < m) →
      exec .encStart s =
        .next { s with
          enc := { s.enc with phase := .fault, cause := .eBadMinCodeSize, info := .minCodeSize s.enc.cmd.m } }) ∧
    (2 ≤ m → m ≤ 8 → s.enc.cmd.S = [] →
      exec .encStart s =
        .next { s with enc := { s.enc with phase := .fault, cause := .eEmptyInput, info := .empty } }) ∧
    (2 ≤ m → m ≤ 8 → ∀ i v, s.enc.cmd.S[i]? = some v → 2 ^ m ≤ v →
      (∀ j w, j < i → s.enc.cmd.S[j]? = some w → w < 2 ^ m) →
      exec .encStart s =
        .next { s with enc := { s.enc with phase := .fault, cause := .eIndexRange, info := .index i v } }) ∧
    (2 ≤ m → m ≤ 8 → ∀ first rest, s.enc.cmd.S = first :: rest → (∀ v ∈ s.enc.cmd.S, v < 2 ^ m) →
      ∃ e : EncUnit,
        e = EncUnit.emitCode
          { s.enc with
            started := true, out := s.enc.out ++ [s.enc.cmd.m], outLen := s.enc.outLen + 1
            regs :=
              { s.enc.regs with
                m := BitVec.ofNat 4 m, clearCode := BitVec.ofNat 9 (2 ^ m), eoiCode := BitVec.ofNat 9 (2 ^ m + 1)
                nextCode := BitVec.ofNat 13 (2 ^ m + 2), width := BitVec.ofNat 4 (m + 1), table := []
                acc := 0, nbits := 0, sbLen := 0 } }
          (BitVec.ofNat 12 (2 ^ m)) ∧
        exec .encStart s =
          .next { s with enc := { e with regs := { e.regs with curCode := BitVec.ofNat 12 first, inPos := 1 } } })

/-- R110 (third column): every register after a successful start step. -/
def Obligations.EncStartLeavesTheTabledValues : Prop :=
  ∀ s : State, s.enc.phase = .run → s.enc.started = false → s.enc.out = [] → s.enc.outLen = 0 →
    s.enc.cmd.wf = true →
    ∃ t, exec .encStart s = .next t ∧ t = { s with enc := t.enc } ∧
      let m := s.enc.cmd.m.toNat
      let r := t.enc.regs
      t.enc.phase = .run ∧ t.enc.started = true ∧ t.enc.cmd = s.enc.cmd ∧ t.enc.cause = s.enc.cause ∧
      t.enc.info = s.enc.info ∧ t.enc.outLen = 1 ∧ t.enc.out = [s.enc.cmd.m] ∧ r.m.toNat = m ∧
      r.clearCode.toNat = 2 ^ m ∧ r.eoiCode.toNat = 2 ^ m + 1 ∧ r.nextCode.toNat = 2 ^ m + 2 ∧
      r.width.toNat = m + 1 ∧ r.table = [] ∧
      (m ≤ 6 → r.acc.toNat = 2 ^ m ∧ r.nbits.toNat = m + 1 ∧ r.sbLen.toNat = 0) ∧
      (m = 7 → r.acc.toNat = 0 ∧ r.nbits.toNat = 0 ∧ r.sbLen.toNat = 1 ∧ r.sbBuf.read 0 = 0x80#8) ∧
      (m = 8 → r.acc.toNat = 1 ∧ r.nbits.toNat = 1 ∧ r.sbLen.toNat = 1 ∧ r.sbBuf.read 0 = 0x00#8) ∧
      s.enc.cmd.S[0]? = some r.curCode.toNat ∧ r.inPos = 1

/-- R69, R70: a key in the table extends the current sequence; nothing else changes but the advance.  In legal registers
the new current code is a table code. -/
def Obligations.EncHitExtendsTheCurrentSequence : Prop :=
  ∀ (s : State) (k : Index) (c : Code), s.enc.AtIndex k → s.enc.regs.lookup s.enc.regs.curCode k = some c →
    exec (.encHit k) s =
        .next { s with
          enc := { s.enc with regs := { s.enc.regs with curCode := c, inPos := s.enc.regs.inPos + 1 } } } ∧
      (s.enc.regs.Legal → s.enc.regs.eoiCode.toNat < c.toNat ∧ c.toNat < s.enc.regs.nextCode.toNat)

/-- R69, R71, R115: an absent key and a table that is not full.  The current code is emitted at the width before any
growth; then the width grows if `next_code` does not fit it; then the key is inserted.  In legal registers growth
happens exactly at `next_code = 2^width`, and the width stays at most 12. -/
def Obligations.EncMissEmitsThenGrowsThenInserts : Prop :=
  ∀ (s : State) (k : Index), s.enc.AtIndex k → s.enc.regs.lookup s.enc.regs.curCode k = none →
    s.enc.regs.nextCode.toNat < 4096 →
    let r := s.enc.regs
    let e := s.enc.emitCode r.curCode
    exec (.encMiss k) s =
        .next { s with
          enc :=
            { e with
              regs :=
                { e.regs with
                  width := if 2 ^ r.width.toNat ≤ r.nextCode.toNat then BitVec.ofNat 4 (r.width.toNat + 1) else r.width
                  table := { pre := r.curCode, k := k, code := BitVec.ofNat 12 r.nextCode.toNat } :: r.table
                  nextCode := BitVec.ofNat 13 (r.nextCode.toNat + 1)
                  curCode := k.setWidth 12
                  inPos := r.inPos + 1 } } } ∧
      (r.Legal →
        (2 ^ r.width.toNat ≤ r.nextCode.toNat ↔ r.nextCode.toNat = 2 ^ r.width.toNat) ∧
          (2 ^ r.width.toNat ≤ r.nextCode.toNat → r.width.toNat ≤ 11))

/-- R69, R72, R119: an absent key and a full table.  The current code and a clear code are emitted, then the table and
the width are reset; no key is inserted.  In legal registers both codes are 12 bits wide. -/
def Obligations.EncFullEmitsClearAndResets : Prop :=
  ∀ (s : State) (k : Index), s.enc.AtIndex k → s.enc.regs.lookup s.enc.regs.curCode k = none →
    s.enc.regs.nextCode.toNat = 4096 →
    let r := s.enc.regs
    let e := (s.enc.emitCode r.curCode).emitCode (r.clearCode.setWidth 12)
    exec (.encFull k) s =
        .next { s with
          enc :=
            { e with
              regs :=
                { e.regs with
                  nextCode := BitVec.ofNat 13 (r.eoiCode.toNat + 1)
                  width := BitVec.ofNat 4 (r.m.toNat + 1)
                  table := []
                  curCode := k.setWidth 12
                  inPos := r.inPos + 1 } } } ∧
      (r.Legal → r.width.toNat = 12)

/-- R73, R56: after the last index, the leftover code and the EOI code, the partial byte with zero pad bits, the open
sub-block if it holds a byte, the terminator; the command is DONE.  In legal registers fewer than 8 bits are left for
the partial byte, and its bits above them are 0. -/
def Obligations.EncFinishClosesTheStream : Prop :=
  ∀ s : State, s.enc.phase = .run → s.enc.started = true → s.enc.cmd.S.length ≤ s.enc.regs.inPos →
    let r := s.enc.regs
    let e := (s.enc.emitCode r.curCode).emitCode (r.eoiCode.setWidth 12)
    let p := if 0 < e.regs.nbits.toNat then e.putByte (e.regs.acc.setWidth 8) else e
    let tail := (if 0 < p.regs.sbLen.toNat then p.regs.sbLen :: p.regs.sbBytes else []) ++ [0x00#8]
    ∃ t, exec .encFinish s = .next t ∧ t = { s with enc := t.enc } ∧ t.enc.phase = .done ∧
      t.enc.out = p.out ++ tail ∧ t.enc.outLen = p.outLen + tail.length ∧ t.enc.regs.sbLen = 0#8 ∧
      t.enc.regs.nbits = 0#5 ∧
      (r.Legal → t.enc.regs.acc = 0#20 ∧ e.regs.nbits.toNat < 8 ∧ e.regs.acc.toNat < 2 ^ e.regs.nbits.toNat ∧
        ∀ j, e.regs.nbits.toNat ≤ j → (e.regs.acc.setWidth 8).getLsbD j = false) ∧
      t.enc.cmd = s.enc.cmd ∧
      t.enc.cause = s.enc.cause ∧ t.enc.info = s.enc.info ∧ t.enc.regs.table = r.table ∧
      t.enc.regs.nextCode = r.nextCode ∧ t.enc.regs.width = r.width ∧ t.enc.regs.curCode = r.curCode ∧
      t.enc.regs.inPos = r.inPos

/-- R75: one data byte goes into the open sub-block; the 255th closes it, and its length byte goes out before its
data. -/
def Obligations.PutByteClosesFullSubBlocks : Prop :=
  ∀ (u : EncUnit) (b : Byte), u.regs.sbLen.toNat ≤ 254 →
    let v := u.putByte b
    (u.regs.sbLen.toNat < 254 →
      v.out = u.out ∧ v.outLen = u.outLen ∧ v.regs.sbLen.toNat = u.regs.sbLen.toNat + 1 ∧
        v.regs.sbBytes = u.regs.sbBytes ++ [b]) ∧
    (u.regs.sbLen.toNat = 254 →
      v.out = u.out ++ 255#8 :: (u.regs.sbBytes ++ [b]) ∧ v.outLen = u.outLen + 256 ∧ v.regs.sbLen = 0#8) ∧
    v.regs.acc = u.regs.acc ∧ v.regs.nbits = u.regs.nbits ∧ v.regs.width = u.regs.width

/-- R74, R37: a code goes into the stream least significant bit first at the current width, right after the bits already
there, and whole bytes leave in order; `acc < 2^nbits` and `nbits < 8` on return. -/
def Obligations.EmitCodeAppendsItsBits : Prop :=
  ∀ (u : EncUnit) (c : Code), u.regs.nbits.toNat < 8 → u.regs.acc.toNat < 2 ^ u.regs.nbits.toNat →
    u.regs.width.toNat ≤ 12 → u.regs.sbLen.toNat ≤ 254 → c.toNat < 2 ^ u.regs.width.toNat →
    ∃ blocks : List (List Byte), (∀ d ∈ blocks, d.length = 255) ∧
      (u.emitCode c).out = u.out ++ blocks.flatMap subBlock ∧
      dataBits blocks.flatten ++ (u.emitCode c).regs.heldBits =
        u.regs.heldBits ++ bitsOfNat u.regs.width.toNat c.toNat ∧
      (u.emitCode c).regs.nbits.toNat < 8 ∧
      (u.emitCode c).regs.acc.toNat < 2 ^ (u.emitCode c).regs.nbits.toNat ∧
      (u.emitCode c).regs.sbLen.toNat ≤ 254

/-- R54, R76: every code the encoder can emit next fits the width it is emitted at. -/
def Obligations.EmittedCodesFitTheWidth : Prop :=
  ∀ r : EncRegs, r.Legal →
    r.curCode.toNat < 2 ^ r.width.toNat ∧ r.clearCode.toNat < 2 ^ r.width.toNat ∧
      r.eoiCode.toNat < 2 ^ r.width.toNat ∧ r.width.toNat ≤ 12 ∧ (2049 ≤ r.nextCode.toNat → r.width.toNat = 12)

/-- R34, R3: the frame of the encoder's steps.  DEC, the host's moves and the schedule stay; the command record stays;
`OUT` only grows, and `out_len` counts it.  After the start step the code constants stay, `cause` and `info` stay, and
only the finish leaves RUN; a hit changes no register but `cur_code` and `in_pos`; only a hit, a miss and a full step
move `in_pos`, by 1. -/
def Obligations.EncoderStepFrame : Prop :=
  ∀ (i : Instr) (s t : State), IsEncStep i → exec i s = .next t →
    t = { s with enc := t.enc } ∧ t.enc.cmd = s.enc.cmd ∧
      (∃ bs, t.enc.out = s.enc.out ++ bs ∧ t.enc.outLen = s.enc.outLen + bs.length) ∧
      (i ≠ .encStart →
        t.enc.started = s.enc.started ∧ t.enc.cause = s.enc.cause ∧ t.enc.info = s.enc.info ∧
          t.enc.regs.m = s.enc.regs.m ∧ t.enc.regs.clearCode = s.enc.regs.clearCode ∧
          t.enc.regs.eoiCode = s.enc.regs.eoiCode ∧
          (i ≠ .encFinish → t.enc.phase = s.enc.phase ∧ t.enc.regs.inPos = s.enc.regs.inPos + 1) ∧
          (i = .encFinish →
            t.enc.regs.inPos = s.enc.regs.inPos ∧ t.enc.regs.curCode = s.enc.regs.curCode ∧
              t.enc.regs.nextCode = s.enc.regs.nextCode ∧ t.enc.regs.width = s.enc.regs.width ∧
              t.enc.regs.table = s.enc.regs.table)) ∧
      ∀ k, i = .encHit k →
        t.enc =
          { s.enc with
            regs := { s.enc.regs with curCode := t.enc.regs.curCode, inPos := s.enc.regs.inPos + 1 } }

/-! ## The decoder: framing -/

/-- R79, R111 (third column): a legal min-code-size byte at `p0`. -/
def Obligations.LegalMinCodeSizeByteStartsDecoding : Prop :=
  ∀ (s : State) (b : Byte), s.dec.phase = .run → s.dec.started = false → s.dec.cmd.src[s.dec.cmd.p0]? = some b →
    2 ≤ b.toNat → b.toNat ≤ 8 →
    exec (.bMcs b) s =
      .next { s with
        dec :=
          { s.dec with
            started := true
            regs :=
              { s.dec.regs with
                m := BitVec.ofNat 4 b.toNat, clearCode := BitVec.ofNat 9 (2 ^ b.toNat)
                eoiCode := BitVec.ofNat 9 (2 ^ b.toNat + 1), nextCode := BitVec.ofNat 13 (2 ^ b.toNat + 2)
                width := BitVec.ofNat 4 (b.toNat + 1), prevValid := false, acc := 0, nbits := 0
                srcPos := s.dec.cmd.p0 + 1, sbRem := 0, terminated := false, outPos := 0 } } }

/-- R58, R79: a min-code-size byte outside 2..8 faults.  That the decoder of the table rejects such a byte by name, and
that its fault is the effect of B-MCS, is the model's reading (notes/assumptions/12.md, DEDUCED); so is the value of
`produced`, the `out_pos` the model sets at the start of DECODE (notes/assumptions/5.md, DEDUCED). -/
def Obligations.IllegalMinCodeSizeByteFaults : Prop :=
  ∀ (s : State) (b : Byte), s.dec.phase = .run → s.dec.started = false → s.dec.cmd.src[s.dec.cmd.p0]? = some b →
    (b.toNat < 2 ∨ 8 < b.toNat) →
    decode (.byte .mcs b) = .reject (.badMinCodeSize b) ∧
      ∃ t, exec (.bMcs b) s = .next t ∧ t = { s with dec := t.dec } ∧
        t.dec =
          { s.dec with
            phase := .fault, cause := .dBadMinCodeSize, info := .mcsByte b s.dec.cmd.p0
            produced := s.dec.regs.outPos, regs := { s.dec.regs with srcPos := s.dec.cmd.p0 + 1 } }

/-- R80: a length byte other than 0 announces that many data bytes. -/
def Obligations.LengthByteOpensASubBlock : Prop :=
  ∀ (s : State) (len : Byte), s.dec.NeedsByte → s.dec.regs.sbRem = 0#8 → s.dec.regs.terminated = false →
    s.dec.cmd.src[s.dec.regs.srcPos]? = some len → len ≠ 0#8 →
    exec (.bLen len) s =
      .next { s with
        dec := { s.dec with regs := { s.dec.regs with srcPos := s.dec.regs.srcPos + 1, sbRem := len } } }

/-- R80, R81, R82: the terminator ends the data; the code that needed it gets no bits, and the command finishes with
`end_reason` EXHAUSTED.  That all of it is one step is the model's (notes/assumptions/8.md, DESIGN CHOICE). -/
def Obligations.TerminatorEndsByExhaustion : Prop :=
  ∀ s : State, s.dec.NeedsByte → s.dec.regs.sbRem = 0#8 → s.dec.regs.terminated = false →
    s.dec.cmd.src[s.dec.regs.srcPos]? = some 0#8 →
    exec .bTerm s =
      .next { s with
        dec :=
          DecUnit.finish
            { s.dec with
              endReason := .exhausted
              regs := { s.dec.regs with srcPos := s.dec.regs.srcPos + 1, terminated := true } } }

/-- R80, R81, R37: a data byte goes into the accumulator above the bits held. -/
def Obligations.DataByteFillsTheAccumulator : Prop :=
  ∀ (s : State) (b : Byte), s.dec.NeedsByte → s.dec.regs.sbRem ≠ 0#8 →
    s.dec.cmd.src[s.dec.regs.srcPos]? = some b →
    ∃ t, exec (.bData b) s = .next t ∧
      t = { s with
            dec :=
              { s.dec with
                regs :=
                  { s.dec.regs with
                    srcPos := s.dec.regs.srcPos + 1, sbRem := t.dec.regs.sbRem, acc := t.dec.regs.acc
                    nbits := t.dec.regs.nbits } } } ∧
      t.dec.regs.sbRem.toNat = s.dec.regs.sbRem.toNat - 1 ∧
      t.dec.regs.nbits.toNat = s.dec.regs.nbits.toNat + 8 ∧
      (s.dec.regs.width.toNat ≤ 12 → s.dec.regs.acc.toNat < 2 ^ s.dec.regs.nbits.toNat →
        t.dec.regs.acc.toNat = s.dec.regs.acc.toNat + 2 ^ s.dec.regs.nbits.toNat * b.toNat ∧
          bitsOfNat t.dec.regs.nbits.toNat t.dec.regs.acc.toNat =
            bitsOfNat s.dec.regs.nbits.toNat s.dec.regs.acc.toNat ++ bitsOfNat 8 b.toNat)

/-- R35, R80, R101: where the byte DEC needs lies past the end of `SRC`, the step raises `D_SOURCE_OVERRUN` with its
offset; a byte needed once the terminator has been read is none, and the command finishes.  The model's choices in it:
these two are steps of their own (notes/assumptions/8.md, DESIGN CHOICE), and before the start step `produced` is the
`out_pos` the model sets at the start of DECODE (notes/assumptions/5.md, DEDUCED). -/
def Obligations.MissingSourceByteFaultsOrExhausts : Prop :=
  ∀ s : State, s.nextAgent = some .dec →
    (∀ a,
      (s.dec.started = false ∧ a = s.dec.cmd.p0 ∨
        s.dec.NeedsByte ∧ (s.dec.regs.sbRem ≠ 0#8 ∨ s.dec.regs.terminated = false) ∧ a = s.dec.regs.srcPos) →
      s.dec.cmd.src.length ≤ a →
      step s =
        .next { s.nextTurn with
          dec :=
            { s.dec with
              phase := .fault, cause := .dSourceOverrun, info := .overrun a, produced := s.dec.regs.outPos } }) ∧
    (s.dec.NeedsByte → s.dec.regs.sbRem = 0#8 → s.dec.regs.terminated = true →
      step s = .next { s.nextTurn with dec := DecUnit.finish { s.dec with endReason := .exhausted } })

/-! ## The decoder: codes -/

/-- R52: exactly one class applies to every code value, and which one is decided in the order of the table. -/
def Obligations.EveryCodeHasExactlyOneClass : Prop :=
  ∀ (cc : CodeCtx) (c : Nat), cc.ok = true → c < 2 ^ cc.width →
    decode (.code cc c) = .instr (classify cc c) ∧
    (classify cc c = .clr ↔ c = cc.clear) ∧
    (classify cc c = .eoi ↔ c = cc.eoi) ∧
    ((∃ k, classify cc c = .lit k ∧ k.toNat = c) ↔ c < cc.clear) ∧
    ((∃ x, classify cc c = .tab x ∧ x.toNat = c) ↔ cc.eoi < c ∧ c < cc.next) ∧
    ((∃ x, classify cc c = .kwk x ∧ x.toNat = c) ↔ c = cc.next ∧ cc.prevValid = true) ∧
    ((∃ x, classify cc c = .illNoPrev x ∧ x.toNat = c) ↔ c = cc.next ∧ cc.prevValid = false) ∧
    ((∃ x, classify cc c = .illRange x ∧ x.toNat = c) ↔ cc.next < c) ∧
    (cc.next = 4096 → (∀ x, classify cc c ≠ .kwk x) ∧ (∀ x, classify cc c ≠ .illNoPrev x) ∧
      ∀ x, classify cc c ≠ .illRange x)

/-- R120: after a clear code and at the start the decoder has no previous code, so the first data code of a table period
must be a literal.  In legal registers with no previous code, the code `eoi_code + 1` is ILL-NOPREV and a larger one
ILL-RANGE. -/
def Obligations.FirstDataCodeIsALiteral : Prop :=
  ∀ (r : DecRegs) (c : Nat), r.Legal → r.prevValid = false → c < 2 ^ r.width.toNat → c ≠ r.clearCode.toNat →
    c ≠ r.eoiCode.toNat →
    (c < r.clearCode.toNat → classify r.codeCtx c = .lit (BitVec.ofNat 8 c)) ∧
    (c = r.eoiCode.toNat + 1 → classify r.codeCtx c = .illNoPrev (BitVec.ofNat 12 c)) ∧
    (r.eoiCode.toNat + 1 < c → classify r.codeCtx c = .illRange (BitVec.ofNat 12 c))

/-- R84: a clear code resets the table, the width and the previous code, and produces no output; the bits still held
stay. -/
def Obligations.ClearResetsTheDecoder : Prop :=
  ∀ (s : State) (c : Nat), s.dec.HoldsCode c → c = s.dec.regs.clearCode.toNat →
    let r := s.dec.regs
    exec .clr s =
      .next { s with
        dec :=
          { s.dec with
            regs :=
              { r with
                acc := r.acc >>> r.width.toNat, nbits := BitVec.ofNat 5 (r.nbits.toNat - r.width.toNat)
                nextCode := BitVec.ofNat 13 (r.eoiCode.toNat + 1), width := BitVec.ofNat 4 (r.m.toNat + 1)
                prevValid := false } } }

/-- R85, R65: an EOI code ends decoding, and the command finishes. -/
def Obligations.EoiEndsDecoding : Prop :=
  ∀ (s : State) (c : Nat), s.dec.HoldsCode c → c ≠ s.dec.regs.clearCode.toNat → c = s.dec.regs.eoiCode.toNat →
    let r := s.dec.regs
    exec .eoi s =
      .next { s with
        dec :=
          DecUnit.finish
            { s.dec with
              endReason := .eoi
              regs :=
                { r with
                  acc := r.acc >>> r.width.toNat, nbits := BitVec.ofNat 5 (r.nbits.toNat - r.width.toNat) } } }

/-- R86, R91, R92: a literal whose index fits the output writes it, inserts an entry as R93 allows, and becomes the
previous code, with `prev_valid` 1. -/
def Obligations.LiteralWritesItsIndex : Prop :=
  ∀ (s : State) (c : Nat) (k : Index), s.dec.HoldsCode c → c ≠ s.dec.regs.clearCode.toNat →
    c ≠ s.dec.regs.eoiCode.toNat → c < s.dec.regs.clearCode.toNat → k = BitVec.ofNat 8 c →
    s.dec.regs.outPos + 1 ≤ s.dec.cmd.outputLength →
    let v := (s.dec.consumeCode.writeRun [k]).insert k
    exec (.lit k) s =
      .next { s with dec := { v with regs := { v.regs with prevCode := k.setWidth 12, prevValid := true } } }

/-- R87, R91, R92: a table code whose run fits the output writes it, inserts an entry as R93 allows, and becomes the
previous code, with `prev_valid` 1. -/
def Obligations.TableCodeWritesItsRun : Prop :=
  ∀ (s : State) (c : Code) (f : Index) (rest : List Index), s.dec.HoldsCode c.toNat →
    c.toNat ≠ s.dec.regs.clearCode.toNat → c.toNat ≠ s.dec.regs.eoiCode.toNat →
    s.dec.regs.clearCode.toNat ≤ c.toNat → c.toNat < s.dec.regs.nextCode.toNat →
    s.dec.regs.seq c = some (f :: rest) → s.dec.regs.outPos + (f :: rest).length ≤ s.dec.cmd.outputLength →
    let v := (s.dec.consumeCode.writeRun (f :: rest)).insert f
    exec (.tab c) s = .next { s with dec := { v with regs := { v.regs with prevCode := c, prevValid := true } } }

/-- R88, R91, R92: a KwKwK code whose run fits the output writes `p ++ [p[0]]` with `p = seq(prev_code)`, inserts an entry
as R93 allows, and becomes the previous code, with `prev_valid` 1. -/
def Obligations.KwkwkCodeWritesItsRun : Prop :=
  ∀ (s : State) (c : Code) (f : Index) (rest : List Index), s.dec.HoldsCode c.toNat →
    c.toNat ≠ s.dec.regs.clearCode.toNat → c.toNat ≠ s.dec.regs.eoiCode.toNat →
    s.dec.regs.clearCode.toNat ≤ c.toNat → c.toNat = s.dec.regs.nextCode.toNat → s.dec.regs.prevValid = true →
    s.dec.regs.seq s.dec.regs.prevCode = some (f :: rest) →
    s.dec.regs.outPos + (rest.length + 2) ≤ s.dec.cmd.outputLength →
    let v := (s.dec.consumeCode.writeRun (f :: rest ++ [f])).insert f
    exec (.kwk c) s = .next { s with dec := { v with regs := { v.regs with prevCode := c, prevValid := true } } }

/-- R88: after a KwKwK code has been written, the entry inserted for it stands for the run just produced. -/
def Obligations.KwkwkEntryStandsForItsRun : Prop :=
  ∀ (s t : State) (c : Code) (run : List Index), s.Inv → s.dec.started = true → s.dec.regs.kwkRun = some run →
    exec (.kwk c) s = .next t → t.dec.phase = .run → t.dec.regs.seq c = some run

/-- R92, R101: a run that would pass `output_length` is dropped whole: the fault of strict mode, or the warning and the
end of the command. -/
def Obligations.OverflowingRunIsDroppedWhole : Prop :=
  ∀ (s : State) (i : Instr) (c : Code) (f : Index) (rest : List Index), s.dec.selects i = true →
    s.dec.regs.runOf i = some (c, f :: rest) →
    s.dec.cmd.outputLength < s.dec.regs.outPos + (f :: rest).length →
    (s.dec.cmd.strict = true →
      exec i s =
        .next { s with
          dec :=
            { s.dec.consumeCode with
              phase := .fault, cause := .dLengthMismatch, produced := s.dec.regs.outPos
              info := .length .long s.dec.regs.outPos s.dec.cmd.outputLength } }) ∧
    (s.dec.cmd.strict = false →
      exec i s =
        .next { s with
          dec :=
            { s.dec.consumeCode with
              phase := .done, tooLong := true, endReason := .overflow, produced := s.dec.regs.outPos } })

/-- R89, R90, R101: the two illegal classes fault with the code, `next_code` and `src_pos`; nothing is written for
the code. -/
def Obligations.IllegalCodesFault : Prop :=
  ∀ (s : State) (c : Code), s.dec.HoldsCode c.toNat → c.toNat ≠ s.dec.regs.clearCode.toNat →
    c.toNat ≠ s.dec.regs.eoiCode.toNat → s.dec.regs.clearCode.toNat ≤ c.toNat →
    let fault := fun cause =>
      { s with
        dec :=
          { s.dec.consumeCode with
            phase := .fault, cause := cause, produced := s.dec.regs.outPos
            info := .code c s.dec.regs.nextCode s.dec.regs.srcPos } }
    (c.toNat = s.dec.regs.nextCode.toNat → s.dec.regs.prevValid = false →
      exec (.illNoPrev c) s = .next (fault .dKwkwkNoPrev)) ∧
    (s.dec.regs.nextCode.toNat < c.toNat → exec (.illRange c) s = .next (fault .dInvalidCode))

/-- R81, R53: what taking a code out of the accumulator does to the bits: the code is the low `width` bits, and the bits
after it stay in order. -/
def Obligations.ConsumedCodeIsTheNextBits : Prop :=
  ∀ u : DecUnit, u.regs.width.toNat ≤ u.regs.nbits.toNat →
    bitsOfNat u.regs.nbits.toNat u.regs.acc.toNat =
        bitsOfNat u.regs.width.toNat u.regs.codeHeld ++
          bitsOfNat u.consumeCode.regs.nbits.toNat u.consumeCode.regs.acc.toNat ∧
      u.consumeCode.regs.nbits.toNat = u.regs.nbits.toNat - u.regs.width.toNat ∧
      u.consumeCode =
        { u with regs := { u.regs with acc := u.consumeCode.regs.acc, nbits := u.consumeCode.regs.nbits } }

/-- R93: an insertion stores `(prev_code, f)` at `next_code`, then grows the width when `next_code` passes the largest
code it can hold; with no previous code or a full table nothing changes. -/
def Obligations.InsertAddsOneEntry : Prop :=
  ∀ (u : DecUnit) (f : Index),
    let r := u.regs
    let v := u.insert f
    (r.prevValid = true → r.nextCode.toNat < 4096 →
      (∀ c, v.regs.prefixes.read c = if c = r.nextCode.toNat then r.prevCode else r.prefixes.read c) ∧
      (∀ c, v.regs.suffixes.read c = if c = r.nextCode.toNat then f else r.suffixes.read c) ∧
      v.regs.nextCode.toNat = r.nextCode.toNat + 1 ∧
      v.regs.width.toNat =
        (if 2 ^ r.width.toNat ≤ r.nextCode.toNat + 1 ∧ r.width.toNat < 12 then r.width.toNat + 1 else r.width.toNat) ∧
      v =
        { u with
          regs :=
            { r with
              prefixes := v.regs.prefixes, suffixes := v.regs.suffixes, nextCode := v.regs.nextCode
              width := v.regs.width } }) ∧
    ((r.prevValid = false ∨ 4096 ≤ r.nextCode.toNat) → v = u)

/-- R92, R36: the cells a fitting run is written to, and every other cell. -/
def Obligations.WriteRunWritesItsCells : Prop :=
  ∀ (u : DecUnit) (run : List Index),
    let v := u.writeRun run
    (∀ j, j < run.length → Memory.read v.idx (u.regs.outPos + j) = run[j]?) ∧
      (∀ a, a < u.regs.outPos ∨ u.regs.outPos + run.length ≤ a → Memory.read v.idx a = Memory.read u.idx a) ∧
      v = { u with idx := v.idx, regs := { u.regs with outPos := u.regs.outPos + run.length } }

/-- R95: `DecFinish` records `produced`; a mismatch that is no overflow is the fault of strict mode or the warning; the
command is otherwise DONE. -/
def Obligations.FinishChecksTheLength : Prop :=
  ∀ u : DecUnit,
    let short := u.endReason ≠ .overflow ∧ u.regs.outPos ≠ u.cmd.outputLength
    (¬ short → u.finish = { u with produced := u.regs.outPos, phase := .done }) ∧
    (short → u.cmd.strict = true →
      u.finish =
        { u with
          produced := u.regs.outPos, phase := .fault, cause := .dLengthMismatch
          info := .length .short u.regs.outPos u.cmd.outputLength }) ∧
    (short → u.cmd.strict = false →
      u.finish = { u with produced := u.regs.outPos, tooShort := true, phase := .done })

/-- R94, R28, R87: in legal registers every literal and table code has a sequence, by the two equations; a table code's
sequence has at least 2 and at most `c - eoi_code + 1` indices. -/
def Obligations.EveryDataCodeHasItsSequence : Prop :=
  ∀ (r : DecRegs) (c : Code), r.Legal →
    (c.toNat < r.clearCode.toNat → r.seq c = some [c.setWidth 8]) ∧
    (r.eoiCode.toNat < c.toNat → c.toNat < r.nextCode.toNat →
      ∃ p, r.seq (r.prefixes.read c.toNat) = some p ∧ p ≠ [] ∧
        r.seq c = some (p ++ [r.suffixes.read c.toNat]) ∧ p.length + 1 ≤ c.toNat - r.eoiCode.toNat + 1)

/-- R94: the source's two-phase chase writes the same run to the same cells as `seq`; for a KwKwK code the walks start
from `prev_code`, and with one more copy of `first(prev_code)` after the run they write the same run to the same
cells as R88. -/
def Obligations.TwoPhaseChaseWritesTheSequence : Prop :=
  ∀ (r : DecRegs) (mem : Memory 8) (at0 : Nat), r.Legal →
    (∀ c : Code, DataCodeBelow r.clearCode.toNat r.eoiCode.toNat r.nextCode.toNat c.toNat →
      ∃ run mem', r.seq c = some run ∧ r.chase mem at0 c = some mem' ∧
        ∀ a, Memory.read mem' a = Memory.read (Memory.writeRun mem at0 run) a) ∧
    (r.prevValid = true →
      ∃ f rest mem', r.seq r.prevCode = some (f :: rest) ∧ r.kwkRun = some (f :: rest ++ [f]) ∧
        r.chaseKwk mem at0 = some mem' ∧
        ∀ a, Memory.read mem' a = Memory.read (Memory.writeRun mem at0 (f :: rest ++ [f])) a)

/-- R36, R3: the frame of the decoder's steps.  ENC, the host's moves and the schedule stay; the command record stays; a
cell of `IDX` changes only inside the cells the step counts as produced; after the start step the code constants
stay; the cursors never move back.  That one framing byte is a step of its own, so that `src_pos` advances by 1 over a
framing byte and not at all over a code, is the model's choice (notes/assumptions/8.md, DESIGN CHOICE); R20 gives 1
per byte read. -/
def Obligations.DecoderStepFrame : Prop :=
  ∀ (i : Instr) (s t : State), IsDecStep i → exec i s = .next t →
    t = { s with dec := t.dec } ∧ t.dec.cmd = s.dec.cmd ∧
      (∀ a, a < s.dec.regs.outPos ∨ t.dec.regs.outPos ≤ a → Memory.read t.dec.idx a = Memory.read s.dec.idx a) ∧
      ((∀ b, i ≠ .bMcs b) →
        t.dec.started = s.dec.started ∧ t.dec.regs.m = s.dec.regs.m ∧
          t.dec.regs.clearCode = s.dec.regs.clearCode ∧ t.dec.regs.eoiCode = s.dec.regs.eoiCode ∧
          s.dec.regs.outPos ≤ t.dec.regs.outPos ∧
          (i.isCode = true → t.dec.regs.srcPos = s.dec.regs.srcPos ∧ t.dec.regs.sbRem = s.dec.regs.sbRem ∧
            t.dec.regs.terminated = s.dec.regs.terminated) ∧
          (i.isCode = false →
            t.dec.regs.srcPos = s.dec.regs.srcPos + 1 ∧ t.dec.regs.outPos = s.dec.regs.outPos ∧
              t.dec.idx = s.dec.idx ∧ t.dec.regs.nextCode = s.dec.regs.nextCode ∧
              t.dec.regs.width = s.dec.regs.width ∧ t.dec.regs.prevValid = s.dec.regs.prevValid ∧
              t.dec.regs.prevCode = s.dec.regs.prevCode ∧ t.dec.regs.prefixes = s.dec.regs.prefixes ∧
              t.dec.regs.suffixes = s.dec.regs.suffixes) ∧
          ((∀ b, i ≠ .bData b) → i.isCode = false →
            t.dec.regs.acc = s.dec.regs.acc ∧ t.dec.regs.nbits = s.dec.regs.nbits)) ∧
      ∀ c, c ≠ s.dec.regs.nextCode.toNat →
        t.dec.regs.prefixes.read c = s.dec.regs.prefixes.read c ∧
          t.dec.regs.suffixes.read c = s.dec.regs.suffixes.read c

/-- R20, R36, R43: within a command `enc.in_pos` advances by at most 1 a step, neither cursor moves back, and neither
passes its end; a step writes no cell of `IDX` at or above `output_length` and none that the command has already
produced.  That `dec.src_pos` advances by at most 1 a step is the model's choice (notes/assumptions/8.md, DESIGN
CHOICE): its step reads at most one byte, where R20 gives 1 per byte read and the step of R83 may read several. -/
def Obligations.CursorsAdvanceInsideTheirBuffers : Prop :=
  ∀ s t : State, s.Inv → step s = .next t →
    (s.enc.phase = .run → s.enc.started = true →
      s.enc.regs.inPos ≤ t.enc.regs.inPos ∧ t.enc.regs.inPos ≤ s.enc.regs.inPos + 1 ∧
        t.enc.regs.inPos ≤ t.enc.cmd.S.length) ∧
    (s.dec.phase = .run →
      s.dec.regs.srcPos ≤ t.dec.regs.srcPos ∧ t.dec.regs.srcPos ≤ s.dec.regs.srcPos + 1 ∧
        (s.dec.regs.srcPos < t.dec.regs.srcPos → t.dec.regs.srcPos ≤ t.dec.cmd.src.length) ∧
        ∀ a, (s.dec.cmd.outputLength ≤ a ∨ a < s.dec.regs.outPos) →
          Memory.read t.dec.idx a = Memory.read s.dec.idx a)

/-! ## Faults and warnings -/

/-- R98: the cause codes. -/
def Obligations.CauseCodesAreTheTable : Prop :=
  Cause.none.code = 0x00#8 ∧ Cause.eBadMinCodeSize.code = 0x01#8 ∧ Cause.eEmptyInput.code = 0x02#8 ∧
    Cause.eIndexRange.code = 0x03#8 ∧ Cause.dBadMinCodeSize.code = 0x11#8 ∧ Cause.dSourceOverrun.code = 0x12#8 ∧
    Cause.dKwkwkNoPrev.code = 0x13#8 ∧ Cause.dInvalidCode.code = 0x14#8 ∧ Cause.dLengthMismatch.code = 0x15#8 ∧
    ∀ a b : Cause, a.code = b.code → a = b

/-- R101, R102: faults are precise.  A faulted ENCODE leaves `OUT` empty.  The step in which DEC faults writes no cell of
`IDX`, and `produced` is the number of indices written before it.  A step of DEC is the model's, one framing byte or one
code (notes/assumptions/8.md, DESIGN CHOICE); before the start step `produced` is the `out_pos` the model sets at the
start of DECODE (notes/assumptions/5.md, DEDUCED). -/
def Obligations.FaultsArePrecise : Prop :=
  ∀ s t : State, s.Inv → step s = .next t →
    (s.enc.phase = .run → t.enc.phase = .fault →
      t.enc.out = [] ∧ t.enc.outLen = 0 ∧ t.enc.cause ≠ .none ∧ s.enc.started = false) ∧
    (s.dec.phase = .run → t.dec.phase = .fault →
      t.dec.idx = s.dec.idx ∧ t.dec.produced = s.dec.regs.outPos ∧ t.dec.regs.outPos = s.dec.regs.outPos ∧
        t.dec.cause ≠ .none)

/-- R99, R103: at most one warning, never in strict mode, never with a fault; `W_TOO_LONG` exactly with OVERFLOW, and
`W_TOO_SHORT` exactly when fewer indices than `output_length` were produced otherwise. -/
def Obligations.WarningsSayTheLength : Prop :=
  ∀ s t : State, s.Inv → s.dec.phase = .run → step s = .next t → t.dec.phase ≠ .run →
    (t.dec.cmd.strict = true ∨ t.dec.phase = .fault → t.dec.tooLong = false ∧ t.dec.tooShort = false) ∧
      ¬ (t.dec.tooLong = true ∧ t.dec.tooShort = true) ∧
      (t.dec.phase = .done → t.dec.cmd.strict = false →
        (t.dec.tooLong = true ↔ t.dec.endReason = .overflow) ∧
          (t.dec.tooShort = true ↔ t.dec.endReason ≠ .overflow ∧ t.dec.produced < t.dec.cmd.outputLength) ∧
          (t.dec.tooLong = false → t.dec.tooShort = false → t.dec.produced = t.dec.cmd.outputLength))

/-! ## Encoding -/

/-- R47, R52: decoding what stands for a well-formed instruction gives it back, with every operand its row admits in a
legal context; and no value of a code is lost by its class: encoding what a value decodes to gives the value. -/
def Obligations.DecodeAndEncodeAgree : Prop :=
  (∀ (cc : CodeCtx) (i : Instr), cc.ok = true → i.wfIn cc = true → decode (encode cc i) = .instr i) ∧
    ∀ (cc : CodeCtx) (c : Nat), cc.ok = true → c < 2 ^ cc.width →
      ∃ i, decode (.code cc c) = .instr i ∧ i.wfIn cc = true ∧ encode cc i = .code cc c

/-- R37, R49: a code written as its bits at the head of any bit string is read back, and the bits after it are left. -/
def Obligations.DecodeBitsGivesBackTheCodeAndTheRest : Prop :=
  ∀ (cc : CodeCtx) (i : Instr) (rest : List Bool), cc.ok = true → i.wfIn cc = true → i.isCode = true →
    decodeBits cc (encodeBits cc i ++ rest) = .ok (i, rest)

/-- R47, R48, R57: sub-blocks of 1 to 255 data bytes each, in any mix, then the terminator: unframing gives back `m`, the
payloads joined in order and what follows the terminator.  R55: the encoder's own framing is one of these, and the
framing of `D` data bytes is `2 + D + ceil(D / 255)` bytes long. -/
def Obligations.FramingGivesBackItsData : Prop :=
  (∀ (m : Byte) (blocks : List (List Byte)) (rest : List Byte), 2 ≤ m.toNat → m.toNat ≤ 8 →
    (∀ d ∈ blocks, 1 ≤ d.length ∧ d.length ≤ 255) →
    unframe (m :: blocks.flatMap subBlock ++ [0#8] ++ rest) = .ok (m, blocks.flatten, rest)) ∧
  (∀ (m : Byte) (d rest : List Byte), 2 ≤ m.toNat → m.toNat ≤ 8 → unframe (frame m d ++ rest) = .ok (m, d, rest)) ∧
    ∀ (m : Byte) (d : List Byte), (frame m d).length = 2 + d.length + (d.length + 254) / 255

/-- R47, R49, R51, R60: a few words written out from the encoding tables.  Two clauses are the model's choice: a lone
8-bit word is read as a byte at a length position (notes/assumptions/13.md, DESIGN CHOICE), and the decoder rejects
the min-code-size byte 9 by name (notes/assumptions/12.md, DEDUCED). -/
def Obligations.WordsDecodeAsTheTablesSay : Prop :=
  decodeTableWord 8 0 = some .bTerm ∧ decode (.byte .length 3#8) = .instr (.bLen 3#8) ∧
    decode (.byte .mcs 2#8) = .instr (.bMcs 2#8) ∧ decode (.byte .mcs 9#8) = .reject (.badMinCodeSize 9#8) ∧
    decode (.byte .data 0x44#8) = .instr (.bData 0x44#8) ∧
    decodeBits (.afterClear 2) [false, false, true] = .ok (.clr, []) ∧
    decodeBits (.afterClear 2) [true, false, true, false] = .ok (.eoi, [false]) ∧
    decodeBits (.afterClear 2) [true, true, false] = .ok (.lit 3#8, []) ∧
    decodeBits (.afterClear 2) [false, true, true] = .ok (.illNoPrev 6#12, []) ∧
    decodeBits (.afterClear 2) [true, true, true] = .ok (.illRange 7#12, [])

/-! ## Steps -/

/-- A step runs the instruction that is next: the step the encoder's state selects, what the decoder finds, or the host's
move, a command or a write of one cell of `IDX` between commands (R36, R42); the schedule moves on by one entry.  The
model's choices in it: which agent moves (notes/assumptions/3.md, DESIGN CHOICE); one framing byte or one code a step
of DEC (notes/assumptions/8.md, DESIGN CHOICE); a min-code-size byte that the table rejects runs as B-MCS
(notes/assumptions/12.md, DEDUCED); the host's moves wait in a queue, which a move leaves when it is made
(notes/assumptions/2.md, DESIGN CHOICE). -/
def Obligations.StepRunsTheNextInstruction : Prop :=
  ∀ s : State,
    (s.nextAgent = some .enc → step s = exec (selectEnc s.enc.view) s.nextTurn) ∧
    (∀ r i, s.nextAgent = some .dec → s.dec.fetch = .raw r → decode r = .instr i → step s = exec i s.nextTurn) ∧
    (∀ r b, s.nextAgent = some .dec → s.dec.fetch = .raw r → decode r = .reject (.badMinCodeSize b) →
      step s = exec (.bMcs b) s.nextTurn) ∧
    (∀ r rest, s.nextAgent = some .host → s.hostq = .encode r :: rest →
      step s = exec (.encode r) { s.nextTurn with hostq := rest }) ∧
    (∀ r rest, s.nextAgent = some .host → s.hostq = .decode r :: rest →
      step s = exec (.decode r) { s.nextTurn with hostq := rest }) ∧
    (∀ pos v rest, s.nextAgent = some .host → s.hostq = .writeIdx pos v :: rest →
      ∃ idx, step s = .next { s.nextTurn with hostq := rest, dec := { s.dec with idx := idx } } ∧
        ∀ a, Memory.read idx a = if a = pos then some v else Memory.read s.dec.idx a) ∧
    (s.nextAgent = none → step s = .next s)

/-- R80, R81, R83: the machine's steps on framing bytes and codes add up to the pseudocode's `DecStep`.  The model's
choices in it: the count of at most five is in the model's own step, one framing byte or one code
(notes/assumptions/8.md, DESIGN CHOICE); and where the pseudocode gives no sequence or the width is illegal, in
states that no run reaches, the machine stops (notes/assumptions/11.md, DESIGN CHOICE). -/
def Obligations.StepsRefineDecStep : Prop :=
  ∀ s : State, s.dec.phase = .run → s.dec.started = true →
    (∀ u, s.dec.decStep = some u →
      ∃ k, 1 ≤ k ∧ k ≤ 5 ∧
        Host.Core.run Sys2Proof.core k (s.onlyFor .dec k) = .next { s with sched := [], dec := u }) ∧
    (s.dec.decStep = none →
      ∃ k, 1 ≤ k ∧ k ≤ 5 ∧ ∃ f, Host.Core.run Sys2Proof.core k (s.onlyFor .dec k) = .fault f)

/-! ## The invariant -/

/-- The invariant holds at power-on. -/
def Obligations.InvariantHoldsAtReset : Prop := State.reset.Inv

/-- R17, R19, R27, R28, R76, R77, R96: every step keeps the invariant, from every state that has it. -/
def Obligations.StepKeepsTheInvariant : Prop := ∀ s t : State, s.Inv → step s = .next t → t.Inv

/-- From every state with the invariant a step answers a next state: no broken chain, no illegal width, no busy unit, no
step that is not selected.  It rests on the model's schedule (notes/assumptions/3.md), under which no command is
issued to a running unit; the stops it rules out are the model's (notes/assumptions/9.md, 10.md, 11.md). -/
def Obligations.StepFromInvariantNeverStops : Prop := ∀ s : State, s.Inv → ∃ t, step s = .next t

/-! ## Widths (70_reset_and_hazards.md R116 to R118) -/

/-- R116: in legal registers the width grows exactly when the insertion passes a power of two: the encoder's miss that
inserts code `2^w`, and the decoder's insertion of code `2^w - 1`, for `w` at most 11. -/
def Obligations.WidthGrowsAtPowersOfTwo : Prop :=
  (∀ u : EncUnit, u.regs.Legal → u.regs.nextCode.toNat < 4096 →
    u.growWidth.regs.width.toNat =
        (if u.regs.nextCode.toNat = 2 ^ u.regs.width.toNat then u.regs.width.toNat + 1 else u.regs.width.toNat) ∧
      (u.regs.nextCode.toNat = 2 ^ u.regs.width.toNat → u.regs.m.toNat + 1 ≤ u.regs.width.toNat ∧
        u.regs.width.toNat ≤ 11)) ∧
  ∀ (u : DecUnit) (f : Index), u.regs.Legal → u.regs.prevValid = true → u.regs.nextCode.toNat < 4096 →
    (u.insert f).regs.width.toNat =
        (if u.regs.nextCode.toNat + 1 = 2 ^ u.regs.width.toNat ∧ u.regs.width.toNat ≤ 11 then
          u.regs.width.toNat + 1
        else u.regs.width.toNat)

/-- R117, R118: when the decoder is one entry behind the encoder, or both tables are empty, the two widths agree; when
both have the same `next_code` they differ exactly at a power of two `2^w` with `m + 1 <= w <= 11`, and then the
decoder's is one bit wider. -/
def Obligations.EncoderAndDecoderWidthsAgree : Prop :=
  ∀ (e : EncRegs) (d : DecRegs), e.Legal → d.Legal → e.m = d.m →
    (d.nextCode.toNat + 1 = e.nextCode.toNat → e.width.toNat = d.width.toNat) ∧
    (e.nextCode.toNat = e.eoiCode.toNat + 1 → d.nextCode.toNat = d.eoiCode.toNat + 1 →
      e.width.toNat = d.width.toNat) ∧
    (d.nextCode.toNat = e.nextCode.toNat →
      ((∃ w, e.m.toNat + 1 ≤ w ∧ w ≤ 11 ∧ e.nextCode.toNat = 2 ^ w) → d.width.toNat = e.width.toNat + 1) ∧
        ((¬ ∃ w, e.m.toNat + 1 ≤ w ∧ w ≤ 11 ∧ e.nextCode.toNat = 2 ^ w) → d.width.toNat = e.width.toNat))

/-! ## Whole-command rules -/

/-- R62, R55, R78: an ENCODE of a legal record is in RUN for `n` steps of the encoder and DONE after `n + 1`, with `OUT`
the framing of at least 2 and at most `3n + 3` data bytes. -/
def Obligations.EncodeEndsAfterItsSteps : Prop :=
  ∀ (r : EncodeRecord) (s t : State), r.wf = true → exec (.encode r) s = .next t →
    (∀ k, k ≤ r.S.length →
      ∃ u : State, Host.Core.run Sys2Proof.core k (t.onlyFor .enc k) = .next u ∧ u.enc.phase = .run) ∧
    ∃ u : State,
      Host.Core.run Sys2Proof.core (r.S.length + 1) (t.onlyFor .enc (r.S.length + 1)) = .next u ∧
        u.enc.phase = .done ∧ u.enc.cause = .none ∧ u.enc.regs.inPos = r.S.length ∧
        ∃ d : List Byte, u.enc.out = frame r.m d ∧ u.enc.outLen = 2 + d.length + (d.length + 254) / 255 ∧
          2 ≤ d.length ∧ d.length ≤ 3 * r.S.length + 3

/-- R62: every DECODE ends, in DONE or FAULT, after a number of the model's steps (one framing byte or one code each)
bounded by the length of its data; and in the steps of the pseudocode, after at most `8 * (L_src - p0) / 3 + 2`.  The
bound in the model's own steps is the model's (notes/assumptions/8.md); the bound in pseudocode steps is the
spec's. -/
def Obligations.DecodeEndsWithinItsBound : Prop :=
  ∀ (r : DecodeRecord) (s t : State), exec (.decode r) s = .next t →
    (∃ k, k ≤ 11 * (r.src.length - r.p0) / 3 + 2 ∧
      ∃ u : State, Host.Core.run Sys2Proof.core k (t.onlyFor .dec k) = .next u ∧
        (u.dec.phase = .done ∨ u.dec.phase = .fault)) ∧
    ∀ b, r.src[r.p0]? = some b → 2 ≤ b.toNat → b.toNat ≤ 8 →
      ∃ k, k ≤ 8 * (r.src.length - r.p0) / 3 + 2 ∧
        ∃ u, (t.dec.start b).decSteps k = some u ∧ (u.phase = .done ∨ u.phase = .fault)

/-- R97: the round trip.  Whatever state each command starts from and whatever free values it takes, a DECODE of an
ENCODE's output, with the right length and in either mode, is DONE with the indices that went in, no warning, and
end reason EOI or EXHAUSTED. -/
def Obligations.DecodeGivesBackWhatWasEncoded : Prop :=
  ∀ (r : EncodeRecord) (d : DecodeRecord) (s1 t1 u1 s2 t2 : State), r.wf = true → exec (.encode r) s1 = .next t1 →
    Host.Core.run Sys2Proof.core (r.S.length + 1) (t1.onlyFor .enc (r.S.length + 1)) = .next u1 →
    d.src = u1.enc.out → d.p0 = 0 → d.outputLength = r.S.length → exec (.decode d) s2 = .next t2 →
    ∃ k, ∃ u : State, Host.Core.run Sys2Proof.core k (t2.onlyFor .dec k) = .next u ∧
      u.dec.phase = .done ∧ u.dec.cause = .none ∧ u.dec.produced = r.S.length ∧ u.dec.tooLong = false ∧
      u.dec.tooShort = false ∧ (u.dec.endReason = .eoi ∨ u.dec.endReason = .exhausted) ∧
      ∀ i, i < r.S.length → ∃ v : Index, Memory.read u.dec.idx i = some v ∧ r.S[i]? = some v.toNat

/-- R30: a command's result depends only on its command record: from any two states, whatever the unit, its table or
`IDX` held before and whatever free values the two commands take, the same record gives the same result after the
same steps.  The steps are the model's: its schedule (notes/assumptions/3.md, DESIGN CHOICE) gives them to one unit, and
a step of DEC is one framing byte or one code (notes/assumptions/8.md, DESIGN CHOICE). -/
def Obligations.ResultsDependOnlyOnTheRecords : Prop :=
  (∀ (r : EncodeRecord) (s1 s2 t1 t2 u1 u2 : State) (k : Nat), exec (.encode r) s1 = .next t1 →
    exec (.encode r) s2 = .next t2 → t1.hostq = [] → t2.hostq = [] →
    Host.Core.run Sys2Proof.core k (t1.onlyFor .enc k) = .next u1 →
    Host.Core.run Sys2Proof.core k (t2.onlyFor .enc k) = .next u2 → u1.enc.result = u2.enc.result) ∧
  ∀ (r : DecodeRecord) (s1 s2 t1 t2 u1 u2 : State) (k : Nat), exec (.decode r) s1 = .next t1 →
    exec (.decode r) s2 = .next t2 → t1.hostq = [] → t2.hostq = [] →
    Host.Core.run Sys2Proof.core k (t1.onlyFor .dec k) = .next u1 →
    Host.Core.run Sys2Proof.core k (t2.onlyFor .dec k) = .next u2 → u1.dec.result = u2.dec.result

/-- R3, R44: the steps of the two units commute, so no interleaving of them can be told apart.  The interleavings are those
of the model's schedule and step (notes/assumptions/3.md, 8.md, DESIGN CHOICE). -/
def Obligations.UnitStepsCommute : Prop :=
  ∀ s : State, s.enc.phase = .run → s.dec.phase = .run →
    ∀ t, Host.Core.run Sys2Proof.core 2 { s with sched := [.enc, .dec] } = .next t →
      Host.Core.run Sys2Proof.core 2 { s with sched := [.dec, .enc] } = .next t

/-- R4, R44, R107: a step of one block of a system leaves the others as they are, and steps of two blocks commute.  That a
system is a list of blocks is the model's choice (notes/assumptions/14.md, DESIGN CHOICE). -/
def Obligations.BlocksAreIndependent : Prop :=
  (∀ (sys t : System) (i j : Nat), sys.stepAt i = .next t → j ≠ i → t[j]? = sys[j]?) ∧
    ∀ (sys t : System) (i j : Nat), i ≠ j → System.run [i, j] sys = .next t → System.run [j, i] sys = .next t

/-- R66, R10: the `m` the host derives from a palette is in 2..8 and holds every index of the palette, so that an ENCODE
made by the host's duties for a non-empty frame is legal. -/
def Obligations.HostDutiesGiveALegalEncode : Prop :=
  ∀ (p w h : Nat) (r : EncodeRecord), EncodeDuty p w h r → 1 ≤ w * h → r.wf = true ∧ p ≤ 2 ^ r.m.toNat

end
end

