-- ==== Sys2Proof/Laws/Bits.lean ====
section
/-! SUPPORT. Laws/Bits.lean: bits in stream order, and the values they stand for (R37, R49). -/

namespace Sys2Proof

theorem bitsOfNat_length (w v : Nat) : (bitsOfNat w v).length = w := by
  induction w generalizing v with
  | zero => rfl
  | succ w ih => simp [bitsOfNat, ih]

theorem natOfBits_bitsOfNat (w v : Nat) : natOfBits (bitsOfNat w v) = v % 2 ^ w := by
  induction w generalizing v with
  | zero => simp [bitsOfNat, natOfBits, Nat.mod_one]
  | succ w ih =>
    have hb : (decide (v % 2 = 1)).toNat = v % 2 := by
      rcases Nat.mod_two_eq_zero_or_one v with h | h <;> simp [h]
    rw [bitsOfNat, natOfBits, ih, hb, Nat.pow_succ, Nat.mul_comm (2 ^ w) 2, Nat.mod_mul]

/-- Bits of a value that lies above `n` lower bits follow the bits of the lower part. -/
theorem bitsOfNat_add (n w a c : Nat) (h : a < 2 ^ n) :
    bitsOfNat (n + w) (a + 2 ^ n * c) = bitsOfNat n a ++ bitsOfNat w c := by
  induction n generalizing a with
  | zero =>
    have : a = 0 := by simpa using h
    subst this; simp [bitsOfNat]
  | succ n ih =>
    have e : n + 1 + w = (n + w) + 1 := by omega
    have hp : 2 ^ (n + 1) * c = 2 * (2 ^ n * c) := by rw [Nat.pow_succ]; ring
    have h2 : (a + 2 ^ (n + 1) * c) / 2 = a / 2 + 2 ^ n * c := by rw [hp]; omega
    have h3 : (a + 2 ^ (n + 1) * c) % 2 = a % 2 := by rw [hp]; omega
    have h4 : a / 2 < 2 ^ n := by rw [Nat.pow_succ] at h; omega
    rw [e, bitsOfNat, bitsOfNat, h2, h3, ih _ h4]; rfl

theorem bitsOfNat_split (n w v : Nat) :
    bitsOfNat (n + w) v = bitsOfNat n (v % 2 ^ n) ++ bitsOfNat w (v / 2 ^ n) := by
  have h := bitsOfNat_add n w (v % 2 ^ n) (v / 2 ^ n) (Nat.mod_lt _ (Nat.two_pow_pos n))
  rwa [Nat.mod_add_div] at h

theorem bitsOfNat_mod (w v : Nat) : bitsOfNat w (v % 2 ^ w) = bitsOfNat w v := by
  have h := bitsOfNat_split w 0 v
  simpa [bitsOfNat] using h.symm

theorem dataBits_append (a b : List Byte) : dataBits (a ++ b) = dataBits a ++ dataBits b := by
  simp [dataBits]

theorem dataBits_length (bs : List Byte) : (dataBits bs).length = 8 * bs.length := by
  induction bs with
  | nil => rfl
  | cons b bs ih =>
    simp only [dataBits, List.flatMap_cons, List.length_append, List.length_cons, bitsOfNat_length] at ih ⊢
    omega

/-- The bitwise or of R74 and R81 is a sum when the lower part fits. -/
theorem or_shift_eq_add (n a c : Nat) (h : a < 2 ^ n) : a ||| (c <<< n) = a + 2 ^ n * c := by
  rw [Nat.or_comm, ← Nat.shiftLeft_add_eq_or_of_lt h, Nat.shiftLeft_eq, Nat.mul_comm, Nat.add_comm]

end Sys2Proof
end

