-- ==== Sys2Proof/Laws/Memory.lean ====
section
/-! SUPPORT. Laws/Memory.lean: reading after writing, and the canonical form of memory and storage. -/

namespace Sys2Proof.Machine

variable {w : Nat}

theorem Memory.read_write_same (mem : Memory w) (a : Nat) (v : BitVec w) :
    Memory.read (Memory.write mem a v) a = some v := by
  induction mem with
  | nil => simp [Memory.write, Memory.read]
  | cons c rest ih =>
    obtain ⟨b, u⟩ := c
    simp only [Memory.write]
    split
    · simp [Memory.read]
    · split
      · simp [Memory.read]
      · have : b ≠ a := by omega
        simp [Memory.read, this, ih]

theorem Memory.read_write_other (mem : Memory w) (a b : Nat) (v : BitVec w) (h : b ≠ a) :
    Memory.read (Memory.write mem a v) b = Memory.read mem b := by
  induction mem with
  | nil => simp [Memory.write, Memory.read, h.symm]
  | cons c rest ih =>
    obtain ⟨d, u⟩ := c
    simp only [Memory.write]
    split
    · simp [Memory.read, h.symm]
    · split
      · next heq => subst heq; simp [Memory.read, h.symm]
      · simp only [Memory.read, ih]

/-- Reading any position after a write. -/
theorem Memory.read_write (mem : Memory w) (a b : Nat) (v : BitVec w) :
    Memory.read (Memory.write mem a v) b = if b = a then some v else Memory.read mem b := by
  split
  · next h => subst h; exact Memory.read_write_same mem b v
  · next h => exact Memory.read_write_other mem a b v h

theorem Memory.mem_write {mem : Memory w} {a : Nat} {v : BitVec w} {c : Nat × BitVec w}
    (h : c ∈ Memory.write mem a v) : c = (a, v) ∨ c ∈ mem := by
  induction mem with
  | nil => simpa [Memory.write] using h
  | cons d rest ih =>
    obtain ⟨b, u⟩ := d
    simp only [Memory.write] at h
    split at h
    · simp only [List.mem_cons] at h ⊢; tauto
    · split at h
      · simp only [List.mem_cons] at h ⊢; tauto
      · simp only [List.mem_cons] at h ⊢
        rcases h with h | h
        · tauto
        · rcases ih h with h | h <;> tauto

/-- A write keeps the canonical form. -/
theorem Memory.wf_write {mem : Memory w} (a : Nat) (v : BitVec w) (h : Memory.wf mem = true) :
    Memory.wf (Memory.write mem a v) = true := by
  induction mem with
  | nil => simp [Memory.write, Memory.wf]
  | cons c rest ih =>
    obtain ⟨b, u⟩ := c
    simp only [Memory.wf, Bool.and_eq_true, List.all_eq_true, decide_eq_true_eq] at h
    simp only [Memory.write]
    split
    · next hab =>
      simp only [Memory.wf, Bool.and_eq_true, List.all_eq_true, decide_eq_true_eq, List.mem_cons]
      refine ⟨?_, h.1, h.2⟩
      rintro x (rfl | hx)
      · exact hab
      · exact Nat.lt_trans hab (h.1 x hx)
    · split
      · next _ hab => subst hab; simpa [Memory.wf] using h
      · simp only [Memory.wf, Bool.and_eq_true, List.all_eq_true, decide_eq_true_eq]
        refine ⟨fun x hx => ?_, ih h.2⟩
        rcases Memory.mem_write hx with rfl | hx
        · change b < a; omega
        · exact h.1 x hx

theorem Memory.wf_writeRun {mem : Memory w} (a : Nat) (vs : List (BitVec w)) (h : Memory.wf mem = true) :
    Memory.wf (Memory.writeRun mem a vs) = true := by
  induction vs generalizing mem a with
  | nil => simpa [Memory.writeRun]
  | cons v vs ih => exact ih (a + 1) (Memory.wf_write a v h)

/-- Reading any position after a run has been written at `a`. -/
theorem Memory.read_writeRun (mem : Memory w) (a b : Nat) (vs : List (BitVec w)) :
    Memory.read (Memory.writeRun mem a vs) b =
      if a ≤ b ∧ b < a + vs.length then vs[b - a]? else Memory.read mem b := by
  induction vs generalizing mem a with
  | nil =>
    have : ¬ (a ≤ b ∧ b < a + ([] : List (BitVec w)).length) := by simp
    rw [if_neg this]; rfl
  | cons v vs ih =>
    rw [Memory.writeRun, ih, Memory.read_write]
    simp only [List.length_cons]
    by_cases hb : b = a
    · subst hb
      have h1 : ¬ (b + 1 ≤ b ∧ b < b + 1 + vs.length) := by omega
      have h2 : b ≤ b ∧ b < b + (vs.length + 1) := by omega
      simp
    · by_cases hr : a + 1 ≤ b ∧ b < a + 1 + vs.length
      · have h2 : a ≤ b ∧ b < a + (vs.length + 1) := by omega
        have h3 : b - a = (b - (a + 1)) + 1 := by omega
        rw [if_pos hr, if_pos h2, h3, List.getElem?_cons_succ]
      · have h2 : ¬ (a ≤ b ∧ b < a + (vs.length + 1)) := by omega
        rw [if_neg hr, if_neg h2, if_neg hb]

theorem Store.read_write (st : Store w) (a b : Nat) (v : BitVec w) :
    (st.write a v).read b = if b = a then v else st.read b := by
  simp only [Store.read, Store.write, Memory.read_write]
  split <;> simp

theorem Store.wf_write {st : Store w} (a : Nat) (v : BitVec w) (h : Memory.wf st.cells = true) :
    Memory.wf (st.write a v).cells = true := Memory.wf_write a v h

theorem Store.wf_fresh (gen : Nat) : Memory.wf (Store.fresh w gen).cells = true := rfl

theorem State.reset_memory_wf : Memory.wf State.reset.enc.regs.sbBuf.cells = true ∧
    Memory.wf State.reset.dec.regs.prefixes.cells = true ∧ Memory.wf State.reset.dec.regs.suffixes.cells = true ∧
    Memory.wf State.reset.dec.idx = true := ⟨rfl, rfl, rfl, rfl⟩

end Sys2Proof.Machine
end

