-- ==== Sys2Proof/Laws/Chase.lean ====
section
/-! SUPPORT. Laws/Chase.lean: the source's two walks along the prefix links write what `seq` says (R94). -/

namespace Sys2Proof.Machine

/-- What the two walks of R94 do where the prefix links end: the count is the run's length minus 1, the literal is its
first index, and the second walk writes every other index to its place. -/
theorem DecRegs.chase_walks (r : DecRegs) (fuel : Nat) (c : Code) (l : List Index) (h : r.seqRev fuel c = some l) :
    ∃ f n, r.chaseCount fuel c = some (f, n) ∧ l.length = n + 1 ∧ l.reverse[0]? = some f ∧
      ∀ (mem : Memory 8) (at0 a : Nat), Memory.read (r.chaseCopy mem at0 n c) a =
        if at0 < a ∧ a ≤ at0 + n then l.reverse[a - at0]? else Memory.read mem a := by
  induction fuel generalizing c l with
  | zero => cases h
  | succ fuel ih =>
    simp only [DecRegs.seqRev] at h
    split at h
    · next hc =>
      cases h
      refine ⟨c.setWidth 8, 0, by simp only [DecRegs.chaseCount, if_pos hc], rfl, rfl, ?_⟩
      intro mem at0 a
      rw [if_neg (by omega)]; rfl
    · next hc =>
      split at h
      · next hn =>
        obtain ⟨l', hl', rfl⟩ := Option.map_eq_some_iff.mp h
        obtain ⟨f, n, h1, h2, h3, h4⟩ := ih _ _ hl'
        refine ⟨f, n + 1, by simp only [DecRegs.chaseCount, if_neg hc, if_pos hn, h1, Option.map_some], by simp [h2], ?_,
          ?_⟩
        · rw [List.reverse_cons, List.getElem?_append_left (by simp [h2])]; exact h3
        · intro mem at0 a
          rw [DecRegs.chaseCopy, h4, List.reverse_cons, Memory.read_write]
          have hlen : l'.reverse.length = n + 1 := by rw [List.length_reverse, h2]
          by_cases h5 : at0 < a ∧ a ≤ at0 + n
          · rw [if_pos h5, if_pos (by omega), List.getElem?_append_left (by omega)]
          · rw [if_neg h5]
            by_cases h6 : a = at0 + n + 1
            · rw [if_pos h6, if_pos (by omega), List.getElem?_append_right (by omega), hlen,
                show a - at0 - (n + 1) = 0 by omega]; rfl
            · rw [if_neg h6, if_neg (by omega)]
      · cases h

/-- The cells both walks write are the run's (R94). -/
theorem DecRegs.chase_writes (r : DecRegs) (c : Code) (run : List Index) (h : r.seq c = some run) :
    ∃ p, r.chaseCount Config.tableSize c = some p ∧ run.length = p.2 + 1 ∧ run[0]? = some p.1 ∧
      ∀ (mem : Memory 8) (at0 a : Nat),
        Memory.read (r.chaseWrite mem at0 c p) a = Memory.read (Memory.writeRun mem at0 run) a := by
  obtain ⟨l, hl, rfl⟩ := Option.map_eq_some_iff.mp h
  obtain ⟨f, n, h1, h2, h3, h4⟩ := r.chase_walks _ _ _ hl
  refine ⟨(f, n), h1, by rw [List.length_reverse, h2], h3, ?_⟩
  intro mem at0 a
  rw [DecRegs.chaseWrite, Memory.read_write, h4, Memory.read_writeRun, List.length_reverse, h2]
  by_cases h5 : a = at0
  · subst h5; rw [if_pos rfl, if_pos (by omega), Nat.sub_self, h3]
  · rw [if_neg h5]
    by_cases h6 : at0 < a ∧ a ≤ at0 + n
    · rw [if_pos h6, if_pos (by omega)]
    · rw [if_neg h6, if_neg (by omega)]

end Sys2Proof.Machine
end

