-- ==== Sys2Proof/Laws/State.lean ====
section
/-! SUPPORT. Laws/State.lean: one lemma per field per update, so that no later proof unfolds a record update.

Each is true by rfl.  A unit's update that writes no register has one lemma for all of `regs`. -/

namespace Sys2Proof.Machine


/-! ### `EncUnit.raise` -/

@[simp] theorem EncUnit.raise_phase (u : EncUnit) (c : Cause) (i : Info) : (u.raise c i).phase = .fault := rfl
@[simp] theorem EncUnit.raise_started (u : EncUnit) (c : Cause) (i : Info) : (u.raise c i).started = u.started := rfl
@[simp] theorem EncUnit.raise_cmd (u : EncUnit) (c : Cause) (i : Info) : (u.raise c i).cmd = u.cmd := rfl
@[simp] theorem EncUnit.raise_cause (u : EncUnit) (c : Cause) (i : Info) : (u.raise c i).cause = c := rfl
@[simp] theorem EncUnit.raise_info (u : EncUnit) (c : Cause) (i : Info) : (u.raise c i).info = i := rfl
@[simp] theorem EncUnit.raise_outLen (u : EncUnit) (c : Cause) (i : Info) : (u.raise c i).outLen = u.outLen := rfl
@[simp] theorem EncUnit.raise_out (u : EncUnit) (c : Cause) (i : Info) : (u.raise c i).out = u.out := rfl
@[simp] theorem EncUnit.raise_regs (u : EncUnit) (c : Cause) (i : Info) : (u.raise c i).regs = u.regs := rfl

/-! ### `EncUnit.append` -/

@[simp] theorem EncUnit.append_phase (u : EncUnit) (b : Byte) : (u.append b).phase = u.phase := rfl
@[simp] theorem EncUnit.append_started (u : EncUnit) (b : Byte) : (u.append b).started = u.started := rfl
@[simp] theorem EncUnit.append_cmd (u : EncUnit) (b : Byte) : (u.append b).cmd = u.cmd := rfl
@[simp] theorem EncUnit.append_cause (u : EncUnit) (b : Byte) : (u.append b).cause = u.cause := rfl
@[simp] theorem EncUnit.append_info (u : EncUnit) (b : Byte) : (u.append b).info = u.info := rfl
@[simp] theorem EncUnit.append_outLen (u : EncUnit) (b : Byte) : (u.append b).outLen = u.outLen + 1 := rfl
@[simp] theorem EncUnit.append_out (u : EncUnit) (b : Byte) : (u.append b).out = u.out ++ [b] := rfl
@[simp] theorem EncUnit.append_regs (u : EncUnit) (b : Byte) : (u.append b).regs = u.regs := rfl

/-! ### `EncUnit.pushCode` -/

@[simp] theorem EncUnit.pushCode_phase (u : EncUnit) (c : Code) : (u.pushCode c).phase = u.phase := rfl
@[simp] theorem EncUnit.pushCode_started (u : EncUnit) (c : Code) : (u.pushCode c).started = u.started := rfl
@[simp] theorem EncUnit.pushCode_cmd (u : EncUnit) (c : Code) : (u.pushCode c).cmd = u.cmd := rfl
@[simp] theorem EncUnit.pushCode_cause (u : EncUnit) (c : Code) : (u.pushCode c).cause = u.cause := rfl
@[simp] theorem EncUnit.pushCode_info (u : EncUnit) (c : Code) : (u.pushCode c).info = u.info := rfl
@[simp] theorem EncUnit.pushCode_outLen (u : EncUnit) (c : Code) : (u.pushCode c).outLen = u.outLen := rfl
@[simp] theorem EncUnit.pushCode_out (u : EncUnit) (c : Code) : (u.pushCode c).out = u.out := rfl
@[simp] theorem EncUnit.pushCode_m (u : EncUnit) (c : Code) : (u.pushCode c).regs.m = u.regs.m := rfl
@[simp] theorem EncUnit.pushCode_clearCode (u : EncUnit) (c : Code) : (u.pushCode c).regs.clearCode = u.regs.clearCode := rfl
@[simp] theorem EncUnit.pushCode_eoiCode (u : EncUnit) (c : Code) : (u.pushCode c).regs.eoiCode = u.regs.eoiCode := rfl
@[simp] theorem EncUnit.pushCode_nextCode (u : EncUnit) (c : Code) : (u.pushCode c).regs.nextCode = u.regs.nextCode := rfl
@[simp] theorem EncUnit.pushCode_width (u : EncUnit) (c : Code) : (u.pushCode c).regs.width = u.regs.width := rfl
@[simp] theorem EncUnit.pushCode_curCode (u : EncUnit) (c : Code) : (u.pushCode c).regs.curCode = u.regs.curCode := rfl
@[simp] theorem EncUnit.pushCode_inPos (u : EncUnit) (c : Code) : (u.pushCode c).regs.inPos = u.regs.inPos := rfl
@[simp] theorem EncUnit.pushCode_acc (u : EncUnit) (c : Code) : (u.pushCode c).regs.acc = u.regs.acc ||| (c.setWidth 20 <<< u.regs.nbits.toNat) := rfl
@[simp] theorem EncUnit.pushCode_nbits (u : EncUnit) (c : Code) : (u.pushCode c).regs.nbits = BitVec.ofNat 5 (u.regs.nbits.toNat + u.regs.width.toNat) := rfl
@[simp] theorem EncUnit.pushCode_sbBuf (u : EncUnit) (c : Code) : (u.pushCode c).regs.sbBuf = u.regs.sbBuf := rfl
@[simp] theorem EncUnit.pushCode_sbLen (u : EncUnit) (c : Code) : (u.pushCode c).regs.sbLen = u.regs.sbLen := rfl
@[simp] theorem EncUnit.pushCode_table (u : EncUnit) (c : Code) : (u.pushCode c).regs.table = u.regs.table := rfl

/-! ### `EncUnit.resetTable` -/

@[simp] theorem EncUnit.resetTable_phase (u : EncUnit) : (u.resetTable).phase = u.phase := rfl
@[simp] theorem EncUnit.resetTable_started (u : EncUnit) : (u.resetTable).started = u.started := rfl
@[simp] theorem EncUnit.resetTable_cmd (u : EncUnit) : (u.resetTable).cmd = u.cmd := rfl
@[simp] theorem EncUnit.resetTable_cause (u : EncUnit) : (u.resetTable).cause = u.cause := rfl
@[simp] theorem EncUnit.resetTable_info (u : EncUnit) : (u.resetTable).info = u.info := rfl
@[simp] theorem EncUnit.resetTable_outLen (u : EncUnit) : (u.resetTable).outLen = u.outLen := rfl
@[simp] theorem EncUnit.resetTable_out (u : EncUnit) : (u.resetTable).out = u.out := rfl
@[simp] theorem EncUnit.resetTable_m (u : EncUnit) : (u.resetTable).regs.m = u.regs.m := rfl
@[simp] theorem EncUnit.resetTable_clearCode (u : EncUnit) : (u.resetTable).regs.clearCode = u.regs.clearCode := rfl
@[simp] theorem EncUnit.resetTable_eoiCode (u : EncUnit) : (u.resetTable).regs.eoiCode = u.regs.eoiCode := rfl
@[simp] theorem EncUnit.resetTable_nextCode (u : EncUnit) : (u.resetTable).regs.nextCode = BitVec.ofNat 13 (u.regs.eoiCode.toNat + 1) := rfl
@[simp] theorem EncUnit.resetTable_width (u : EncUnit) : (u.resetTable).regs.width = BitVec.ofNat 4 (u.regs.m.toNat + 1) := rfl
@[simp] theorem EncUnit.resetTable_curCode (u : EncUnit) : (u.resetTable).regs.curCode = u.regs.curCode := rfl
@[simp] theorem EncUnit.resetTable_inPos (u : EncUnit) : (u.resetTable).regs.inPos = u.regs.inPos := rfl
@[simp] theorem EncUnit.resetTable_acc (u : EncUnit) : (u.resetTable).regs.acc = u.regs.acc := rfl
@[simp] theorem EncUnit.resetTable_nbits (u : EncUnit) : (u.resetTable).regs.nbits = u.regs.nbits := rfl
@[simp] theorem EncUnit.resetTable_sbBuf (u : EncUnit) : (u.resetTable).regs.sbBuf = u.regs.sbBuf := rfl
@[simp] theorem EncUnit.resetTable_sbLen (u : EncUnit) : (u.resetTable).regs.sbLen = u.regs.sbLen := rfl
@[simp] theorem EncUnit.resetTable_table (u : EncUnit) : (u.resetTable).regs.table = [] := rfl

/-! ### `EncUnit.insertKey` -/

@[simp] theorem EncUnit.insertKey_phase (u : EncUnit) (k : Index) : (u.insertKey k).phase = u.phase := rfl
@[simp] theorem EncUnit.insertKey_started (u : EncUnit) (k : Index) : (u.insertKey k).started = u.started := rfl
@[simp] theorem EncUnit.insertKey_cmd (u : EncUnit) (k : Index) : (u.insertKey k).cmd = u.cmd := rfl
@[simp] theorem EncUnit.insertKey_cause (u : EncUnit) (k : Index) : (u.insertKey k).cause = u.cause := rfl
@[simp] theorem EncUnit.insertKey_info (u : EncUnit) (k : Index) : (u.insertKey k).info = u.info := rfl
@[simp] theorem EncUnit.insertKey_outLen (u : EncUnit) (k : Index) : (u.insertKey k).outLen = u.outLen := rfl
@[simp] theorem EncUnit.insertKey_out (u : EncUnit) (k : Index) : (u.insertKey k).out = u.out := rfl
@[simp] theorem EncUnit.insertKey_m (u : EncUnit) (k : Index) : (u.insertKey k).regs.m = u.regs.m := rfl
@[simp] theorem EncUnit.insertKey_clearCode (u : EncUnit) (k : Index) : (u.insertKey k).regs.clearCode = u.regs.clearCode := rfl
@[simp] theorem EncUnit.insertKey_eoiCode (u : EncUnit) (k : Index) : (u.insertKey k).regs.eoiCode = u.regs.eoiCode := rfl
@[simp] theorem EncUnit.insertKey_nextCode (u : EncUnit) (k : Index) : (u.insertKey k).regs.nextCode = BitVec.ofNat 13 (u.regs.nextCode.toNat + 1) := rfl
@[simp] theorem EncUnit.insertKey_width (u : EncUnit) (k : Index) : (u.insertKey k).regs.width = u.regs.width := rfl
@[simp] theorem EncUnit.insertKey_curCode (u : EncUnit) (k : Index) : (u.insertKey k).regs.curCode = u.regs.curCode := rfl
@[simp] theorem EncUnit.insertKey_inPos (u : EncUnit) (k : Index) : (u.insertKey k).regs.inPos = u.regs.inPos := rfl
@[simp] theorem EncUnit.insertKey_acc (u : EncUnit) (k : Index) : (u.insertKey k).regs.acc = u.regs.acc := rfl
@[simp] theorem EncUnit.insertKey_nbits (u : EncUnit) (k : Index) : (u.insertKey k).regs.nbits = u.regs.nbits := rfl
@[simp] theorem EncUnit.insertKey_sbBuf (u : EncUnit) (k : Index) : (u.insertKey k).regs.sbBuf = u.regs.sbBuf := rfl
@[simp] theorem EncUnit.insertKey_sbLen (u : EncUnit) (k : Index) : (u.insertKey k).regs.sbLen = u.regs.sbLen := rfl
@[simp] theorem EncUnit.insertKey_table (u : EncUnit) (k : Index) : (u.insertKey k).regs.table = { pre := u.regs.curCode, k := k, code := u.regs.nextCode.setWidth 12 } :: u.regs.table := rfl

/-! ### `EncUnit.setCur` -/

@[simp] theorem EncUnit.setCur_phase (u : EncUnit) (c : Code) : (u.setCur c).phase = u.phase := rfl
@[simp] theorem EncUnit.setCur_started (u : EncUnit) (c : Code) : (u.setCur c).started = u.started := rfl
@[simp] theorem EncUnit.setCur_cmd (u : EncUnit) (c : Code) : (u.setCur c).cmd = u.cmd := rfl
@[simp] theorem EncUnit.setCur_cause (u : EncUnit) (c : Code) : (u.setCur c).cause = u.cause := rfl
@[simp] theorem EncUnit.setCur_info (u : EncUnit) (c : Code) : (u.setCur c).info = u.info := rfl
@[simp] theorem EncUnit.setCur_outLen (u : EncUnit) (c : Code) : (u.setCur c).outLen = u.outLen := rfl
@[simp] theorem EncUnit.setCur_out (u : EncUnit) (c : Code) : (u.setCur c).out = u.out := rfl
@[simp] theorem EncUnit.setCur_m (u : EncUnit) (c : Code) : (u.setCur c).regs.m = u.regs.m := rfl
@[simp] theorem EncUnit.setCur_clearCode (u : EncUnit) (c : Code) : (u.setCur c).regs.clearCode = u.regs.clearCode := rfl
@[simp] theorem EncUnit.setCur_eoiCode (u : EncUnit) (c : Code) : (u.setCur c).regs.eoiCode = u.regs.eoiCode := rfl
@[simp] theorem EncUnit.setCur_nextCode (u : EncUnit) (c : Code) : (u.setCur c).regs.nextCode = u.regs.nextCode := rfl
@[simp] theorem EncUnit.setCur_width (u : EncUnit) (c : Code) : (u.setCur c).regs.width = u.regs.width := rfl
@[simp] theorem EncUnit.setCur_curCode (u : EncUnit) (c : Code) : (u.setCur c).regs.curCode = c := rfl
@[simp] theorem EncUnit.setCur_inPos (u : EncUnit) (c : Code) : (u.setCur c).regs.inPos = u.regs.inPos := rfl
@[simp] theorem EncUnit.setCur_acc (u : EncUnit) (c : Code) : (u.setCur c).regs.acc = u.regs.acc := rfl
@[simp] theorem EncUnit.setCur_nbits (u : EncUnit) (c : Code) : (u.setCur c).regs.nbits = u.regs.nbits := rfl
@[simp] theorem EncUnit.setCur_sbBuf (u : EncUnit) (c : Code) : (u.setCur c).regs.sbBuf = u.regs.sbBuf := rfl
@[simp] theorem EncUnit.setCur_sbLen (u : EncUnit) (c : Code) : (u.setCur c).regs.sbLen = u.regs.sbLen := rfl
@[simp] theorem EncUnit.setCur_table (u : EncUnit) (c : Code) : (u.setCur c).regs.table = u.regs.table := rfl

/-! ### `EncUnit.advance` -/

@[simp] theorem EncUnit.advance_phase (u : EncUnit) : (u.advance).phase = u.phase := rfl
@[simp] theorem EncUnit.advance_started (u : EncUnit) : (u.advance).started = u.started := rfl
@[simp] theorem EncUnit.advance_cmd (u : EncUnit) : (u.advance).cmd = u.cmd := rfl
@[simp] theorem EncUnit.advance_cause (u : EncUnit) : (u.advance).cause = u.cause := rfl
@[simp] theorem EncUnit.advance_info (u : EncUnit) : (u.advance).info = u.info := rfl
@[simp] theorem EncUnit.advance_outLen (u : EncUnit) : (u.advance).outLen = u.outLen := rfl
@[simp] theorem EncUnit.advance_out (u : EncUnit) : (u.advance).out = u.out := rfl
@[simp] theorem EncUnit.advance_m (u : EncUnit) : (u.advance).regs.m = u.regs.m := rfl
@[simp] theorem EncUnit.advance_clearCode (u : EncUnit) : (u.advance).regs.clearCode = u.regs.clearCode := rfl
@[simp] theorem EncUnit.advance_eoiCode (u : EncUnit) : (u.advance).regs.eoiCode = u.regs.eoiCode := rfl
@[simp] theorem EncUnit.advance_nextCode (u : EncUnit) : (u.advance).regs.nextCode = u.regs.nextCode := rfl
@[simp] theorem EncUnit.advance_width (u : EncUnit) : (u.advance).regs.width = u.regs.width := rfl
@[simp] theorem EncUnit.advance_curCode (u : EncUnit) : (u.advance).regs.curCode = u.regs.curCode := rfl
@[simp] theorem EncUnit.advance_inPos (u : EncUnit) : (u.advance).regs.inPos = u.regs.inPos + 1 := rfl
@[simp] theorem EncUnit.advance_acc (u : EncUnit) : (u.advance).regs.acc = u.regs.acc := rfl
@[simp] theorem EncUnit.advance_nbits (u : EncUnit) : (u.advance).regs.nbits = u.regs.nbits := rfl
@[simp] theorem EncUnit.advance_sbBuf (u : EncUnit) : (u.advance).regs.sbBuf = u.regs.sbBuf := rfl
@[simp] theorem EncUnit.advance_sbLen (u : EncUnit) : (u.advance).regs.sbLen = u.regs.sbLen := rfl
@[simp] theorem EncUnit.advance_table (u : EncUnit) : (u.advance).regs.table = u.regs.table := rfl

/-! ### `DecUnit.raise` -/

@[simp] theorem DecUnit.raise_phase (u : DecUnit) (c : Cause) (i : Info) : (u.raise c i).phase = .fault := rfl
@[simp] theorem DecUnit.raise_started (u : DecUnit) (c : Cause) (i : Info) : (u.raise c i).started = u.started := rfl
@[simp] theorem DecUnit.raise_cmd (u : DecUnit) (c : Cause) (i : Info) : (u.raise c i).cmd = u.cmd := rfl
@[simp] theorem DecUnit.raise_cause (u : DecUnit) (c : Cause) (i : Info) : (u.raise c i).cause = c := rfl
@[simp] theorem DecUnit.raise_info (u : DecUnit) (c : Cause) (i : Info) : (u.raise c i).info = i := rfl
@[simp] theorem DecUnit.raise_produced (u : DecUnit) (c : Cause) (i : Info) : (u.raise c i).produced = u.regs.outPos := rfl
@[simp] theorem DecUnit.raise_endReason (u : DecUnit) (c : Cause) (i : Info) : (u.raise c i).endReason = u.endReason := rfl
@[simp] theorem DecUnit.raise_tooLong (u : DecUnit) (c : Cause) (i : Info) : (u.raise c i).tooLong = u.tooLong := rfl
@[simp] theorem DecUnit.raise_tooShort (u : DecUnit) (c : Cause) (i : Info) : (u.raise c i).tooShort = u.tooShort := rfl
@[simp] theorem DecUnit.raise_idx (u : DecUnit) (c : Cause) (i : Info) : (u.raise c i).idx = u.idx := rfl
@[simp] theorem DecUnit.raise_regs (u : DecUnit) (c : Cause) (i : Info) : (u.raise c i).regs = u.regs := rfl

/-! ### `DecUnit.warnTooLong` -/

@[simp] theorem DecUnit.warnTooLong_phase (u : DecUnit) : (u.warnTooLong).phase = u.phase := rfl
@[simp] theorem DecUnit.warnTooLong_started (u : DecUnit) : (u.warnTooLong).started = u.started := rfl
@[simp] theorem DecUnit.warnTooLong_cmd (u : DecUnit) : (u.warnTooLong).cmd = u.cmd := rfl
@[simp] theorem DecUnit.warnTooLong_cause (u : DecUnit) : (u.warnTooLong).cause = u.cause := rfl
@[simp] theorem DecUnit.warnTooLong_info (u : DecUnit) : (u.warnTooLong).info = u.info := rfl
@[simp] theorem DecUnit.warnTooLong_produced (u : DecUnit) : (u.warnTooLong).produced = u.produced := rfl
@[simp] theorem DecUnit.warnTooLong_endReason (u : DecUnit) : (u.warnTooLong).endReason = u.endReason := rfl
@[simp] theorem DecUnit.warnTooLong_tooLong (u : DecUnit) : (u.warnTooLong).tooLong = true := rfl
@[simp] theorem DecUnit.warnTooLong_tooShort (u : DecUnit) : (u.warnTooLong).tooShort = u.tooShort := rfl
@[simp] theorem DecUnit.warnTooLong_idx (u : DecUnit) : (u.warnTooLong).idx = u.idx := rfl
@[simp] theorem DecUnit.warnTooLong_regs (u : DecUnit) : (u.warnTooLong).regs = u.regs := rfl

/-! ### `DecUnit.warnTooShort` -/

@[simp] theorem DecUnit.warnTooShort_phase (u : DecUnit) : (u.warnTooShort).phase = u.phase := rfl
@[simp] theorem DecUnit.warnTooShort_started (u : DecUnit) : (u.warnTooShort).started = u.started := rfl
@[simp] theorem DecUnit.warnTooShort_cmd (u : DecUnit) : (u.warnTooShort).cmd = u.cmd := rfl
@[simp] theorem DecUnit.warnTooShort_cause (u : DecUnit) : (u.warnTooShort).cause = u.cause := rfl
@[simp] theorem DecUnit.warnTooShort_info (u : DecUnit) : (u.warnTooShort).info = u.info := rfl
@[simp] theorem DecUnit.warnTooShort_produced (u : DecUnit) : (u.warnTooShort).produced = u.produced := rfl
@[simp] theorem DecUnit.warnTooShort_endReason (u : DecUnit) : (u.warnTooShort).endReason = u.endReason := rfl
@[simp] theorem DecUnit.warnTooShort_tooLong (u : DecUnit) : (u.warnTooShort).tooLong = u.tooLong := rfl
@[simp] theorem DecUnit.warnTooShort_tooShort (u : DecUnit) : (u.warnTooShort).tooShort = true := rfl
@[simp] theorem DecUnit.warnTooShort_idx (u : DecUnit) : (u.warnTooShort).idx = u.idx := rfl
@[simp] theorem DecUnit.warnTooShort_regs (u : DecUnit) : (u.warnTooShort).regs = u.regs := rfl

/-! ### `DecUnit.setEndReason` -/

@[simp] theorem DecUnit.setEndReason_phase (u : DecUnit) (r : EndReason) : (u.setEndReason r).phase = u.phase := rfl
@[simp] theorem DecUnit.setEndReason_started (u : DecUnit) (r : EndReason) : (u.setEndReason r).started = u.started := rfl
@[simp] theorem DecUnit.setEndReason_cmd (u : DecUnit) (r : EndReason) : (u.setEndReason r).cmd = u.cmd := rfl
@[simp] theorem DecUnit.setEndReason_cause (u : DecUnit) (r : EndReason) : (u.setEndReason r).cause = u.cause := rfl
@[simp] theorem DecUnit.setEndReason_info (u : DecUnit) (r : EndReason) : (u.setEndReason r).info = u.info := rfl
@[simp] theorem DecUnit.setEndReason_produced (u : DecUnit) (r : EndReason) : (u.setEndReason r).produced = u.produced := rfl
@[simp] theorem DecUnit.setEndReason_endReason (u : DecUnit) (r : EndReason) : (u.setEndReason r).endReason = r := rfl
@[simp] theorem DecUnit.setEndReason_tooLong (u : DecUnit) (r : EndReason) : (u.setEndReason r).tooLong = u.tooLong := rfl
@[simp] theorem DecUnit.setEndReason_tooShort (u : DecUnit) (r : EndReason) : (u.setEndReason r).tooShort = u.tooShort := rfl
@[simp] theorem DecUnit.setEndReason_idx (u : DecUnit) (r : EndReason) : (u.setEndReason r).idx = u.idx := rfl
@[simp] theorem DecUnit.setEndReason_regs (u : DecUnit) (r : EndReason) : (u.setEndReason r).regs = u.regs := rfl

/-! ### `DecUnit.outWriteRun` -/

@[simp] theorem DecUnit.outWriteRun_phase (u : DecUnit) (a : Nat) (run : List Index) : (u.outWriteRun a run).phase = u.phase := rfl
@[simp] theorem DecUnit.outWriteRun_started (u : DecUnit) (a : Nat) (run : List Index) : (u.outWriteRun a run).started = u.started := rfl
@[simp] theorem DecUnit.outWriteRun_cmd (u : DecUnit) (a : Nat) (run : List Index) : (u.outWriteRun a run).cmd = u.cmd := rfl
@[simp] theorem DecUnit.outWriteRun_cause (u : DecUnit) (a : Nat) (run : List Index) : (u.outWriteRun a run).cause = u.cause := rfl
@[simp] theorem DecUnit.outWriteRun_info (u : DecUnit) (a : Nat) (run : List Index) : (u.outWriteRun a run).info = u.info := rfl
@[simp] theorem DecUnit.outWriteRun_produced (u : DecUnit) (a : Nat) (run : List Index) : (u.outWriteRun a run).produced = u.produced := rfl
@[simp] theorem DecUnit.outWriteRun_endReason (u : DecUnit) (a : Nat) (run : List Index) : (u.outWriteRun a run).endReason = u.endReason := rfl
@[simp] theorem DecUnit.outWriteRun_tooLong (u : DecUnit) (a : Nat) (run : List Index) : (u.outWriteRun a run).tooLong = u.tooLong := rfl
@[simp] theorem DecUnit.outWriteRun_tooShort (u : DecUnit) (a : Nat) (run : List Index) : (u.outWriteRun a run).tooShort = u.tooShort := rfl
@[simp] theorem DecUnit.outWriteRun_idx (u : DecUnit) (a : Nat) (run : List Index) : (u.outWriteRun a run).idx = Memory.writeRun u.idx a run := rfl
@[simp] theorem DecUnit.outWriteRun_regs (u : DecUnit) (a : Nat) (run : List Index) : (u.outWriteRun a run).regs = u.regs := rfl

/-! ### `DecUnit.advance` -/

@[simp] theorem DecUnit.advance_phase (u : DecUnit) : (u.advance).phase = u.phase := rfl
@[simp] theorem DecUnit.advance_started (u : DecUnit) : (u.advance).started = u.started := rfl
@[simp] theorem DecUnit.advance_cmd (u : DecUnit) : (u.advance).cmd = u.cmd := rfl
@[simp] theorem DecUnit.advance_cause (u : DecUnit) : (u.advance).cause = u.cause := rfl
@[simp] theorem DecUnit.advance_info (u : DecUnit) : (u.advance).info = u.info := rfl
@[simp] theorem DecUnit.advance_produced (u : DecUnit) : (u.advance).produced = u.produced := rfl
@[simp] theorem DecUnit.advance_endReason (u : DecUnit) : (u.advance).endReason = u.endReason := rfl
@[simp] theorem DecUnit.advance_tooLong (u : DecUnit) : (u.advance).tooLong = u.tooLong := rfl
@[simp] theorem DecUnit.advance_tooShort (u : DecUnit) : (u.advance).tooShort = u.tooShort := rfl
@[simp] theorem DecUnit.advance_idx (u : DecUnit) : (u.advance).idx = u.idx := rfl
@[simp] theorem DecUnit.advance_m (u : DecUnit) : (u.advance).regs.m = u.regs.m := rfl
@[simp] theorem DecUnit.advance_clearCode (u : DecUnit) : (u.advance).regs.clearCode = u.regs.clearCode := rfl
@[simp] theorem DecUnit.advance_eoiCode (u : DecUnit) : (u.advance).regs.eoiCode = u.regs.eoiCode := rfl
@[simp] theorem DecUnit.advance_nextCode (u : DecUnit) : (u.advance).regs.nextCode = u.regs.nextCode := rfl
@[simp] theorem DecUnit.advance_width (u : DecUnit) : (u.advance).regs.width = u.regs.width := rfl
@[simp] theorem DecUnit.advance_prevValid (u : DecUnit) : (u.advance).regs.prevValid = u.regs.prevValid := rfl
@[simp] theorem DecUnit.advance_prevCode (u : DecUnit) : (u.advance).regs.prevCode = u.regs.prevCode := rfl
@[simp] theorem DecUnit.advance_acc (u : DecUnit) : (u.advance).regs.acc = u.regs.acc := rfl
@[simp] theorem DecUnit.advance_nbits (u : DecUnit) : (u.advance).regs.nbits = u.regs.nbits := rfl
@[simp] theorem DecUnit.advance_srcPos (u : DecUnit) : (u.advance).regs.srcPos = u.regs.srcPos + 1 := rfl
@[simp] theorem DecUnit.advance_sbRem (u : DecUnit) : (u.advance).regs.sbRem = u.regs.sbRem := rfl
@[simp] theorem DecUnit.advance_terminated (u : DecUnit) : (u.advance).regs.terminated = u.regs.terminated := rfl
@[simp] theorem DecUnit.advance_outPos (u : DecUnit) : (u.advance).regs.outPos = u.regs.outPos := rfl
@[simp] theorem DecUnit.advance_prefixes (u : DecUnit) : (u.advance).regs.prefixes = u.regs.prefixes := rfl
@[simp] theorem DecUnit.advance_suffixes (u : DecUnit) : (u.advance).regs.suffixes = u.regs.suffixes := rfl

/-! ### `DecUnit.pushByte` -/

@[simp] theorem DecUnit.pushByte_phase (u : DecUnit) (b : Byte) : (u.pushByte b).phase = u.phase := rfl
@[simp] theorem DecUnit.pushByte_started (u : DecUnit) (b : Byte) : (u.pushByte b).started = u.started := rfl
@[simp] theorem DecUnit.pushByte_cmd (u : DecUnit) (b : Byte) : (u.pushByte b).cmd = u.cmd := rfl
@[simp] theorem DecUnit.pushByte_cause (u : DecUnit) (b : Byte) : (u.pushByte b).cause = u.cause := rfl
@[simp] theorem DecUnit.pushByte_info (u : DecUnit) (b : Byte) : (u.pushByte b).info = u.info := rfl
@[simp] theorem DecUnit.pushByte_produced (u : DecUnit) (b : Byte) : (u.pushByte b).produced = u.produced := rfl
@[simp] theorem DecUnit.pushByte_endReason (u : DecUnit) (b : Byte) : (u.pushByte b).endReason = u.endReason := rfl
@[simp] theorem DecUnit.pushByte_tooLong (u : DecUnit) (b : Byte) : (u.pushByte b).tooLong = u.tooLong := rfl
@[simp] theorem DecUnit.pushByte_tooShort (u : DecUnit) (b : Byte) : (u.pushByte b).tooShort = u.tooShort := rfl
@[simp] theorem DecUnit.pushByte_idx (u : DecUnit) (b : Byte) : (u.pushByte b).idx = u.idx := rfl
@[simp] theorem DecUnit.pushByte_m (u : DecUnit) (b : Byte) : (u.pushByte b).regs.m = u.regs.m := rfl
@[simp] theorem DecUnit.pushByte_clearCode (u : DecUnit) (b : Byte) : (u.pushByte b).regs.clearCode = u.regs.clearCode := rfl
@[simp] theorem DecUnit.pushByte_eoiCode (u : DecUnit) (b : Byte) : (u.pushByte b).regs.eoiCode = u.regs.eoiCode := rfl
@[simp] theorem DecUnit.pushByte_nextCode (u : DecUnit) (b : Byte) : (u.pushByte b).regs.nextCode = u.regs.nextCode := rfl
@[simp] theorem DecUnit.pushByte_width (u : DecUnit) (b : Byte) : (u.pushByte b).regs.width = u.regs.width := rfl
@[simp] theorem DecUnit.pushByte_prevValid (u : DecUnit) (b : Byte) : (u.pushByte b).regs.prevValid = u.regs.prevValid := rfl
@[simp] theorem DecUnit.pushByte_prevCode (u : DecUnit) (b : Byte) : (u.pushByte b).regs.prevCode = u.regs.prevCode := rfl
@[simp] theorem DecUnit.pushByte_acc (u : DecUnit) (b : Byte) : (u.pushByte b).regs.acc = u.regs.acc ||| (b.setWidth 20 <<< u.regs.nbits.toNat) := rfl
@[simp] theorem DecUnit.pushByte_nbits (u : DecUnit) (b : Byte) : (u.pushByte b).regs.nbits = BitVec.ofNat 5 (u.regs.nbits.toNat + 8) := rfl
@[simp] theorem DecUnit.pushByte_srcPos (u : DecUnit) (b : Byte) : (u.pushByte b).regs.srcPos = u.regs.srcPos := rfl
@[simp] theorem DecUnit.pushByte_sbRem (u : DecUnit) (b : Byte) : (u.pushByte b).regs.sbRem = BitVec.ofNat 8 (u.regs.sbRem.toNat - 1) := rfl
@[simp] theorem DecUnit.pushByte_terminated (u : DecUnit) (b : Byte) : (u.pushByte b).regs.terminated = u.regs.terminated := rfl
@[simp] theorem DecUnit.pushByte_outPos (u : DecUnit) (b : Byte) : (u.pushByte b).regs.outPos = u.regs.outPos := rfl
@[simp] theorem DecUnit.pushByte_prefixes (u : DecUnit) (b : Byte) : (u.pushByte b).regs.prefixes = u.regs.prefixes := rfl
@[simp] theorem DecUnit.pushByte_suffixes (u : DecUnit) (b : Byte) : (u.pushByte b).regs.suffixes = u.regs.suffixes := rfl

/-! ### `DecUnit.consumeCode` -/

@[simp] theorem DecUnit.consumeCode_phase (u : DecUnit) : (u.consumeCode).phase = u.phase := rfl
@[simp] theorem DecUnit.consumeCode_started (u : DecUnit) : (u.consumeCode).started = u.started := rfl
@[simp] theorem DecUnit.consumeCode_cmd (u : DecUnit) : (u.consumeCode).cmd = u.cmd := rfl
@[simp] theorem DecUnit.consumeCode_cause (u : DecUnit) : (u.consumeCode).cause = u.cause := rfl
@[simp] theorem DecUnit.consumeCode_info (u : DecUnit) : (u.consumeCode).info = u.info := rfl
@[simp] theorem DecUnit.consumeCode_produced (u : DecUnit) : (u.consumeCode).produced = u.produced := rfl
@[simp] theorem DecUnit.consumeCode_endReason (u : DecUnit) : (u.consumeCode).endReason = u.endReason := rfl
@[simp] theorem DecUnit.consumeCode_tooLong (u : DecUnit) : (u.consumeCode).tooLong = u.tooLong := rfl
@[simp] theorem DecUnit.consumeCode_tooShort (u : DecUnit) : (u.consumeCode).tooShort = u.tooShort := rfl
@[simp] theorem DecUnit.consumeCode_idx (u : DecUnit) : (u.consumeCode).idx = u.idx := rfl
@[simp] theorem DecUnit.consumeCode_m (u : DecUnit) : (u.consumeCode).regs.m = u.regs.m := rfl
@[simp] theorem DecUnit.consumeCode_clearCode (u : DecUnit) : (u.consumeCode).regs.clearCode = u.regs.clearCode := rfl
@[simp] theorem DecUnit.consumeCode_eoiCode (u : DecUnit) : (u.consumeCode).regs.eoiCode = u.regs.eoiCode := rfl
@[simp] theorem DecUnit.consumeCode_nextCode (u : DecUnit) : (u.consumeCode).regs.nextCode = u.regs.nextCode := rfl
@[simp] theorem DecUnit.consumeCode_width (u : DecUnit) : (u.consumeCode).regs.width = u.regs.width := rfl
@[simp] theorem DecUnit.consumeCode_prevValid (u : DecUnit) : (u.consumeCode).regs.prevValid = u.regs.prevValid := rfl
@[simp] theorem DecUnit.consumeCode_prevCode (u : DecUnit) : (u.consumeCode).regs.prevCode = u.regs.prevCode := rfl
@[simp] theorem DecUnit.consumeCode_acc (u : DecUnit) : (u.consumeCode).regs.acc = u.regs.acc >>> u.regs.width.toNat := rfl
@[simp] theorem DecUnit.consumeCode_nbits (u : DecUnit) : (u.consumeCode).regs.nbits = BitVec.ofNat 5 (u.regs.nbits.toNat - u.regs.width.toNat) := rfl
@[simp] theorem DecUnit.consumeCode_srcPos (u : DecUnit) : (u.consumeCode).regs.srcPos = u.regs.srcPos := rfl
@[simp] theorem DecUnit.consumeCode_sbRem (u : DecUnit) : (u.consumeCode).regs.sbRem = u.regs.sbRem := rfl
@[simp] theorem DecUnit.consumeCode_terminated (u : DecUnit) : (u.consumeCode).regs.terminated = u.regs.terminated := rfl
@[simp] theorem DecUnit.consumeCode_outPos (u : DecUnit) : (u.consumeCode).regs.outPos = u.regs.outPos := rfl
@[simp] theorem DecUnit.consumeCode_prefixes (u : DecUnit) : (u.consumeCode).regs.prefixes = u.regs.prefixes := rfl
@[simp] theorem DecUnit.consumeCode_suffixes (u : DecUnit) : (u.consumeCode).regs.suffixes = u.regs.suffixes := rfl

/-! ### `DecUnit.resetTable` -/

@[simp] theorem DecUnit.resetTable_phase (u : DecUnit) : (u.resetTable).phase = u.phase := rfl
@[simp] theorem DecUnit.resetTable_started (u : DecUnit) : (u.resetTable).started = u.started := rfl
@[simp] theorem DecUnit.resetTable_cmd (u : DecUnit) : (u.resetTable).cmd = u.cmd := rfl
@[simp] theorem DecUnit.resetTable_cause (u : DecUnit) : (u.resetTable).cause = u.cause := rfl
@[simp] theorem DecUnit.resetTable_info (u : DecUnit) : (u.resetTable).info = u.info := rfl
@[simp] theorem DecUnit.resetTable_produced (u : DecUnit) : (u.resetTable).produced = u.produced := rfl
@[simp] theorem DecUnit.resetTable_endReason (u : DecUnit) : (u.resetTable).endReason = u.endReason := rfl
@[simp] theorem DecUnit.resetTable_tooLong (u : DecUnit) : (u.resetTable).tooLong = u.tooLong := rfl
@[simp] theorem DecUnit.resetTable_tooShort (u : DecUnit) : (u.resetTable).tooShort = u.tooShort := rfl
@[simp] theorem DecUnit.resetTable_idx (u : DecUnit) : (u.resetTable).idx = u.idx := rfl
@[simp] theorem DecUnit.resetTable_m (u : DecUnit) : (u.resetTable).regs.m = u.regs.m := rfl
@[simp] theorem DecUnit.resetTable_clearCode (u : DecUnit) : (u.resetTable).regs.clearCode = u.regs.clearCode := rfl
@[simp] theorem DecUnit.resetTable_eoiCode (u : DecUnit) : (u.resetTable).regs.eoiCode = u.regs.eoiCode := rfl
@[simp] theorem DecUnit.resetTable_nextCode (u : DecUnit) : (u.resetTable).regs.nextCode = BitVec.ofNat 13 (u.regs.eoiCode.toNat + 1) := rfl
@[simp] theorem DecUnit.resetTable_width (u : DecUnit) : (u.resetTable).regs.width = BitVec.ofNat 4 (u.regs.m.toNat + 1) := rfl
@[simp] theorem DecUnit.resetTable_prevValid (u : DecUnit) : (u.resetTable).regs.prevValid = false := rfl
@[simp] theorem DecUnit.resetTable_prevCode (u : DecUnit) : (u.resetTable).regs.prevCode = u.regs.prevCode := rfl
@[simp] theorem DecUnit.resetTable_acc (u : DecUnit) : (u.resetTable).regs.acc = u.regs.acc := rfl
@[simp] theorem DecUnit.resetTable_nbits (u : DecUnit) : (u.resetTable).regs.nbits = u.regs.nbits := rfl
@[simp] theorem DecUnit.resetTable_srcPos (u : DecUnit) : (u.resetTable).regs.srcPos = u.regs.srcPos := rfl
@[simp] theorem DecUnit.resetTable_sbRem (u : DecUnit) : (u.resetTable).regs.sbRem = u.regs.sbRem := rfl
@[simp] theorem DecUnit.resetTable_terminated (u : DecUnit) : (u.resetTable).regs.terminated = u.regs.terminated := rfl
@[simp] theorem DecUnit.resetTable_outPos (u : DecUnit) : (u.resetTable).regs.outPos = u.regs.outPos := rfl
@[simp] theorem DecUnit.resetTable_prefixes (u : DecUnit) : (u.resetTable).regs.prefixes = u.regs.prefixes := rfl
@[simp] theorem DecUnit.resetTable_suffixes (u : DecUnit) : (u.resetTable).regs.suffixes = u.regs.suffixes := rfl

/-! ### `DecUnit.setPrev` -/

@[simp] theorem DecUnit.setPrev_phase (u : DecUnit) (c : Code) : (u.setPrev c).phase = u.phase := rfl
@[simp] theorem DecUnit.setPrev_started (u : DecUnit) (c : Code) : (u.setPrev c).started = u.started := rfl
@[simp] theorem DecUnit.setPrev_cmd (u : DecUnit) (c : Code) : (u.setPrev c).cmd = u.cmd := rfl
@[simp] theorem DecUnit.setPrev_cause (u : DecUnit) (c : Code) : (u.setPrev c).cause = u.cause := rfl
@[simp] theorem DecUnit.setPrev_info (u : DecUnit) (c : Code) : (u.setPrev c).info = u.info := rfl
@[simp] theorem DecUnit.setPrev_produced (u : DecUnit) (c : Code) : (u.setPrev c).produced = u.produced := rfl
@[simp] theorem DecUnit.setPrev_endReason (u : DecUnit) (c : Code) : (u.setPrev c).endReason = u.endReason := rfl
@[simp] theorem DecUnit.setPrev_tooLong (u : DecUnit) (c : Code) : (u.setPrev c).tooLong = u.tooLong := rfl
@[simp] theorem DecUnit.setPrev_tooShort (u : DecUnit) (c : Code) : (u.setPrev c).tooShort = u.tooShort := rfl
@[simp] theorem DecUnit.setPrev_idx (u : DecUnit) (c : Code) : (u.setPrev c).idx = u.idx := rfl
@[simp] theorem DecUnit.setPrev_m (u : DecUnit) (c : Code) : (u.setPrev c).regs.m = u.regs.m := rfl
@[simp] theorem DecUnit.setPrev_clearCode (u : DecUnit) (c : Code) : (u.setPrev c).regs.clearCode = u.regs.clearCode := rfl
@[simp] theorem DecUnit.setPrev_eoiCode (u : DecUnit) (c : Code) : (u.setPrev c).regs.eoiCode = u.regs.eoiCode := rfl
@[simp] theorem DecUnit.setPrev_nextCode (u : DecUnit) (c : Code) : (u.setPrev c).regs.nextCode = u.regs.nextCode := rfl
@[simp] theorem DecUnit.setPrev_width (u : DecUnit) (c : Code) : (u.setPrev c).regs.width = u.regs.width := rfl
@[simp] theorem DecUnit.setPrev_prevValid (u : DecUnit) (c : Code) : (u.setPrev c).regs.prevValid = true := rfl
@[simp] theorem DecUnit.setPrev_prevCode (u : DecUnit) (c : Code) : (u.setPrev c).regs.prevCode = c := rfl
@[simp] theorem DecUnit.setPrev_acc (u : DecUnit) (c : Code) : (u.setPrev c).regs.acc = u.regs.acc := rfl
@[simp] theorem DecUnit.setPrev_nbits (u : DecUnit) (c : Code) : (u.setPrev c).regs.nbits = u.regs.nbits := rfl
@[simp] theorem DecUnit.setPrev_srcPos (u : DecUnit) (c : Code) : (u.setPrev c).regs.srcPos = u.regs.srcPos := rfl
@[simp] theorem DecUnit.setPrev_sbRem (u : DecUnit) (c : Code) : (u.setPrev c).regs.sbRem = u.regs.sbRem := rfl
@[simp] theorem DecUnit.setPrev_terminated (u : DecUnit) (c : Code) : (u.setPrev c).regs.terminated = u.regs.terminated := rfl
@[simp] theorem DecUnit.setPrev_outPos (u : DecUnit) (c : Code) : (u.setPrev c).regs.outPos = u.regs.outPos := rfl
@[simp] theorem DecUnit.setPrev_prefixes (u : DecUnit) (c : Code) : (u.setPrev c).regs.prefixes = u.regs.prefixes := rfl
@[simp] theorem DecUnit.setPrev_suffixes (u : DecUnit) (c : Code) : (u.setPrev c).regs.suffixes = u.regs.suffixes := rfl

/-! ### `DecUnit.writeRun` -/

@[simp] theorem DecUnit.writeRun_phase (u : DecUnit) (run : List Index) : (u.writeRun run).phase = u.phase := rfl
@[simp] theorem DecUnit.writeRun_started (u : DecUnit) (run : List Index) : (u.writeRun run).started = u.started := rfl
@[simp] theorem DecUnit.writeRun_cmd (u : DecUnit) (run : List Index) : (u.writeRun run).cmd = u.cmd := rfl
@[simp] theorem DecUnit.writeRun_cause (u : DecUnit) (run : List Index) : (u.writeRun run).cause = u.cause := rfl
@[simp] theorem DecUnit.writeRun_info (u : DecUnit) (run : List Index) : (u.writeRun run).info = u.info := rfl
@[simp] theorem DecUnit.writeRun_produced (u : DecUnit) (run : List Index) : (u.writeRun run).produced = u.produced := rfl
@[simp] theorem DecUnit.writeRun_endReason (u : DecUnit) (run : List Index) : (u.writeRun run).endReason = u.endReason := rfl
@[simp] theorem DecUnit.writeRun_tooLong (u : DecUnit) (run : List Index) : (u.writeRun run).tooLong = u.tooLong := rfl
@[simp] theorem DecUnit.writeRun_tooShort (u : DecUnit) (run : List Index) : (u.writeRun run).tooShort = u.tooShort := rfl
@[simp] theorem DecUnit.writeRun_idx (u : DecUnit) (run : List Index) : (u.writeRun run).idx = Memory.writeRun u.idx u.regs.outPos run := rfl
@[simp] theorem DecUnit.writeRun_m (u : DecUnit) (run : List Index) : (u.writeRun run).regs.m = u.regs.m := rfl
@[simp] theorem DecUnit.writeRun_clearCode (u : DecUnit) (run : List Index) : (u.writeRun run).regs.clearCode = u.regs.clearCode := rfl
@[simp] theorem DecUnit.writeRun_eoiCode (u : DecUnit) (run : List Index) : (u.writeRun run).regs.eoiCode = u.regs.eoiCode := rfl
@[simp] theorem DecUnit.writeRun_nextCode (u : DecUnit) (run : List Index) : (u.writeRun run).regs.nextCode = u.regs.nextCode := rfl
@[simp] theorem DecUnit.writeRun_width (u : DecUnit) (run : List Index) : (u.writeRun run).regs.width = u.regs.width := rfl
@[simp] theorem DecUnit.writeRun_prevValid (u : DecUnit) (run : List Index) : (u.writeRun run).regs.prevValid = u.regs.prevValid := rfl
@[simp] theorem DecUnit.writeRun_prevCode (u : DecUnit) (run : List Index) : (u.writeRun run).regs.prevCode = u.regs.prevCode := rfl
@[simp] theorem DecUnit.writeRun_acc (u : DecUnit) (run : List Index) : (u.writeRun run).regs.acc = u.regs.acc := rfl
@[simp] theorem DecUnit.writeRun_nbits (u : DecUnit) (run : List Index) : (u.writeRun run).regs.nbits = u.regs.nbits := rfl
@[simp] theorem DecUnit.writeRun_srcPos (u : DecUnit) (run : List Index) : (u.writeRun run).regs.srcPos = u.regs.srcPos := rfl
@[simp] theorem DecUnit.writeRun_sbRem (u : DecUnit) (run : List Index) : (u.writeRun run).regs.sbRem = u.regs.sbRem := rfl
@[simp] theorem DecUnit.writeRun_terminated (u : DecUnit) (run : List Index) : (u.writeRun run).regs.terminated = u.regs.terminated := rfl
@[simp] theorem DecUnit.writeRun_outPos (u : DecUnit) (run : List Index) : (u.writeRun run).regs.outPos = u.regs.outPos + run.length := rfl
@[simp] theorem DecUnit.writeRun_prefixes (u : DecUnit) (run : List Index) : (u.writeRun run).regs.prefixes = u.regs.prefixes := rfl
@[simp] theorem DecUnit.writeRun_suffixes (u : DecUnit) (run : List Index) : (u.writeRun run).regs.suffixes = u.regs.suffixes := rfl

end Sys2Proof.Machine
end

