-- ==== Sys2Proof/Laws/Decoder.lean ====
section
/-! SUPPORT. Laws/Decoder.lean: everything the decoder's shared operations can do. -/

namespace Sys2Proof.Machine

namespace DecUnit

/-! ### `Insert` (R93) -/

theorem insert_no_prev (u : DecUnit) (f : Index) (h : u.regs.prevValid = false) : u.insert f = u := by
  simp [insert, h]

theorem insert_full (u : DecUnit) (f : Index) (h : 4096 ≤ u.regs.nextCode.toNat) : u.insert f = u := by
  have : ¬ (u.regs.prevValid = true ∧ u.regs.nextCode.toNat < Config.tableSize) := fun hx =>
    absurd hx.2 (Nat.not_lt.mpr h)
  simp only [insert, if_neg this]

/-- An insertion that takes place. -/
theorem insert_stores (u : DecUnit) (f : Index) (hp : u.regs.prevValid = true) (hn : u.regs.nextCode.toNat < 4096) :
    u.insert f =
      { u with
        regs :=
          { u.regs with
            prefixes := u.regs.prefixes.write u.regs.nextCode.toNat u.regs.prevCode
            suffixes := u.regs.suffixes.write u.regs.nextCode.toNat f
            nextCode := BitVec.ofNat 13 (u.regs.nextCode.toNat + 1)
            width :=
              if 2 ^ u.regs.width.toNat ≤ u.regs.nextCode.toNat + 1 ∧ u.regs.width.toNat < 12 then
                BitVec.ofNat 4 (u.regs.width.toNat + 1)
              else u.regs.width } } := by
  have : u.regs.prevValid = true ∧ u.regs.nextCode.toNat < Config.tableSize := ⟨hp, hn⟩
  simp only [insert, if_pos this]

/-- `Insert` writes only the table, `next_code` and `width`. -/
theorem insert_regs_only (u : DecUnit) (f : Index) :
    u.insert f =
      { u with
        regs :=
          { u.regs with
            prefixes := (u.insert f).regs.prefixes, suffixes := (u.insert f).regs.suffixes,
            nextCode := (u.insert f).regs.nextCode, width := (u.insert f).regs.width } } := by
  simp only [insert]
  split <;> rfl

theorem insert_wf (u : DecUnit) (f : Index) (hp : Memory.wf u.regs.prefixes.cells = true)
    (hs : Memory.wf u.regs.suffixes.cells = true) :
    Memory.wf (u.insert f).regs.prefixes.cells = true ∧ Memory.wf (u.insert f).regs.suffixes.cells = true := by
  simp only [insert]
  split
  · exact ⟨Store.wf_write _ _ hp, Store.wf_write _ _ hs⟩
  · exact ⟨hp, hs⟩

/-! ### `DecFinish` (R95) -/

/-- The three ends of `DecFinish`. -/
theorem finish_cases (u : DecUnit) :
    ((u.endReason = .overflow ∨ u.regs.outPos = u.cmd.outputLength) ∧
        u.finish = { u with produced := u.regs.outPos, phase := .done }) ∨
      (u.endReason ≠ .overflow ∧ u.regs.outPos ≠ u.cmd.outputLength ∧ u.cmd.strict = true ∧
        u.finish =
          { u with
            produced := u.regs.outPos, phase := .fault, cause := .dLengthMismatch,
            info := .length .short u.regs.outPos u.cmd.outputLength }) ∨
      (u.endReason ≠ .overflow ∧ u.regs.outPos ≠ u.cmd.outputLength ∧ u.cmd.strict = false ∧
        u.finish = { u with produced := u.regs.outPos, tooShort := true, phase := .done }) := by
  by_cases h : u.endReason ≠ .overflow ∧ u.regs.outPos ≠ u.cmd.outputLength
  · right
    by_cases hs : u.cmd.strict = true
    · left
      refine ⟨h.1, h.2, hs, ?_⟩
      simp only [finish]
      rw [if_pos h, if_pos hs]
      rfl
    · right
      refine ⟨h.1, h.2, by simpa using hs, ?_⟩
      simp only [finish]
      rw [if_pos h, if_neg hs]
      rfl
  · left
    refine ⟨by tauto, ?_⟩
    simp only [finish]
    rw [if_neg h]

/-- `DecFinish` writes only the status record. -/
theorem finish_status_only (u : DecUnit) :
    u.finish =
      { u with
        phase := u.finish.phase, cause := u.finish.cause, info := u.finish.info, produced := u.regs.outPos,
        tooShort := u.finish.tooShort } := by
  rcases finish_cases u with ⟨-, h⟩ | ⟨-, -, -, h⟩ | ⟨-, -, -, h⟩ <;> rw [h]

theorem finish_ends (u : DecUnit) : u.finish.phase = .done ∨ u.finish.phase = .fault := by
  rcases finish_cases u with ⟨-, h⟩ | ⟨-, -, -, h⟩ | ⟨-, -, -, h⟩ <;> simp [h]

/-! ### `DataCode` (R91, R92) -/

theorem dataCode_fits (u : DecUnit) (c : Code) (f : Index) (rest : List Index)
    (h : u.regs.outPos + (f :: rest).length ≤ u.cmd.outputLength) :
    u.dataCode c f rest = ((u.writeRun (f :: rest)).insert f).setPrev c := by
  simp only [dataCode, if_neg (Nat.not_lt.mpr h)]

theorem dataCode_overflows (u : DecUnit) (c : Code) (f : Index) (rest : List Index)
    (h : u.cmd.outputLength < u.regs.outPos + (f :: rest).length) : u.dataCode c f rest = u.overflow := by
  simp only [dataCode, if_pos h]

theorem overflow_strict (u : DecUnit) (h : u.cmd.strict = true) :
    u.overflow = u.raise .dLengthMismatch (.length .long u.regs.outPos u.cmd.outputLength) := by
  simp only [overflow, if_pos h]

theorem overflow_tolerant (u : DecUnit) (h : u.cmd.strict = false) :
    u.overflow =
      { u with tooLong := true, endReason := .overflow, produced := u.regs.outPos, phase := .done } := by
  have hs : ¬ (u.cmd.strict = true) := by simp [h]
  simp only [overflow, if_neg hs]
  rfl

end DecUnit

end Sys2Proof.Machine
end

