-- ==== Sys2Proof/Laws/Encoder.lean ====
section
/-! SUPPORT. Laws/Encoder.lean: what the encoder's shared operations do.

`EncUnit.PackerFrame` says once what the bit packer and the sub-blocker leave alone; `emitCode_spec` says what they do
to the bits. -/

namespace Sys2Proof.Machine

/-- What `Append`, `PutByte` and `EmitCode` leave unchanged, and that they only append to `OUT` (R34). -/
structure EncUnit.PackerFrame (u v : EncUnit) : Prop where
  phase : v.phase = u.phase
  started : v.started = u.started
  cmd : v.cmd = u.cmd
  cause : v.cause = u.cause
  info : v.info = u.info
  m : v.regs.m = u.regs.m
  clearCode : v.regs.clearCode = u.regs.clearCode
  eoiCode : v.regs.eoiCode = u.regs.eoiCode
  nextCode : v.regs.nextCode = u.regs.nextCode
  width : v.regs.width = u.regs.width
  curCode : v.regs.curCode = u.regs.curCode
  inPos : v.regs.inPos = u.regs.inPos
  table : v.regs.table = u.regs.table
  appended : ∃ bs, v.out = u.out ++ bs ∧ v.outLen = u.outLen + bs.length
  wf : Memory.wf u.regs.sbBuf.cells = true → Memory.wf v.regs.sbBuf.cells = true

namespace EncUnit

theorem PackerFrame.refl (u : EncUnit) : PackerFrame u u :=
  ⟨rfl, rfl, rfl, rfl, rfl, rfl, rfl, rfl, rfl, rfl, rfl, rfl, rfl, ⟨[], by simp⟩, id⟩

theorem PackerFrame.trans {u v w : EncUnit} (a : PackerFrame u v) (b : PackerFrame v w) : PackerFrame u w := by
  obtain ⟨xs, hx, hxl⟩ := a.appended
  obtain ⟨ys, hy, hyl⟩ := b.appended
  exact
    ⟨b.phase.trans a.phase, b.started.trans a.started, b.cmd.trans a.cmd, b.cause.trans a.cause, b.info.trans a.info,
      b.m.trans a.m, b.clearCode.trans a.clearCode, b.eoiCode.trans a.eoiCode, b.nextCode.trans a.nextCode,
      b.width.trans a.width, b.curCode.trans a.curCode, b.inPos.trans a.inPos, b.table.trans a.table,
      ⟨xs ++ ys, by rw [hy, hx, List.append_assoc], by rw [hyl, hxl, List.length_append, Nat.add_assoc]⟩,
      b.wf ∘ a.wf⟩

/-! ### `Append` -/

theorem appendAll_eq (u : EncUnit) (bs : List Byte) :
    u.appendAll bs = { u with out := u.out ++ bs, outLen := u.outLen + bs.length } := by
  induction bs generalizing u with
  | nil => simp [appendAll]
  | cons b bs ih =>
    have : u.appendAll (b :: bs) = (u.append b).appendAll bs := rfl
    rw [this, ih]
    simp [append, Nat.add_assoc, Nat.add_comm 1]

theorem closeSubBlock_eq (u : EncUnit) :
    u.closeSubBlock =
      { u with
        out := u.out ++ u.regs.sbLen :: u.regs.sbBytes
        outLen := u.outLen + (u.regs.sbBytes.length + 1)
        regs := { u.regs with sbLen := 0 } } := by
  simp only [closeSubBlock, appendAll_eq]
  simp [append, Nat.add_assoc, Nat.add_comm 1]

theorem closeSubBlock_frame (u : EncUnit) : PackerFrame u u.closeSubBlock := by
  rw [closeSubBlock_eq]
  exact ⟨rfl, rfl, rfl, rfl, rfl, rfl, rfl, rfl, rfl, rfl, rfl, rfl, rfl, ⟨_, rfl, by simp⟩, id⟩

/-! ### `PutByte` (R75) -/

theorem sbBytes_length (r : EncRegs) : r.sbBytes.length = r.sbLen.toNat := by simp [EncRegs.sbBytes]

/-- The buffer with one byte more. -/
theorem sbBytes_write (r : EncRegs) (b : Byte) (h : r.sbLen.toNat ≤ 254) :
    { r with sbBuf := r.sbBuf.write r.sbLen.toNat b, sbLen := BitVec.ofNat 8 (r.sbLen.toNat + 1) }.sbBytes =
      r.sbBytes ++ [b] := by
  have hl : (BitVec.ofNat 8 (r.sbLen.toNat + 1)).toNat = r.sbLen.toNat + 1 := by
    rw [BitVec.toNat_ofNat]; omega
  simp only [EncRegs.sbBytes, hl, List.range_succ, List.map_append, List.map_cons, List.map_nil]
  congr 1
  · apply List.map_congr_left
    intro i hi
    have : i ≠ r.sbLen.toNat := by have := List.mem_range.mp hi; omega
    rw [Store.read_write, if_neg this]
  · rw [Store.read_write, if_pos rfl]

/-- `PutByte` into a sub-block that stays open. -/
theorem putByte_open (u : EncUnit) (b : Byte) (h : u.regs.sbLen.toNat < 254) :
    u.putByte b =
      { u with
        regs :=
          { u.regs with
            sbBuf := u.regs.sbBuf.write u.regs.sbLen.toNat b, sbLen := BitVec.ofNat 8 (u.regs.sbLen.toNat + 1) } } := by
  have hl : (BitVec.ofNat 8 (u.regs.sbLen.toNat + 1)).toNat ≠ 255 := by
    rw [BitVec.toNat_ofNat]; omega
  simp only [putByte, if_neg hl]

/-- `PutByte` of the 255th byte: the sub-block is appended and emptied. -/
theorem putByte_closes (u : EncUnit) (b : Byte) (h : u.regs.sbLen.toNat = 254) :
    u.putByte b =
      { u with
        out := u.out ++ 255#8 :: (u.regs.sbBytes ++ [b])
        outLen := u.outLen + 256
        regs := { u.regs with sbBuf := u.regs.sbBuf.write 254 b, sbLen := 0 } } := by
  have hs := sbBytes_write u.regs b (by omega)
  rw [h] at hs
  have hl : (u.regs.sbBytes ++ [b]).length = 255 := by simp [sbBytes_length, h]
  have e : (BitVec.ofNat 8 (254 + 1)).toNat = 255 := rfl
  simp only [putByte, h, e, if_true, closeSubBlock_eq]
  rw [hs, hl]

theorem putByte_frame (u : EncUnit) (b : Byte) : PackerFrame u (u.putByte b) := by
  have h0 : ∀ r : EncRegs, r = { u.regs with sbBuf := r.sbBuf, sbLen := r.sbLen } →
      (Memory.wf u.regs.sbBuf.cells = true → Memory.wf r.sbBuf.cells = true) →
      PackerFrame u { u with regs := r } := by
    intro r hr hw
    rw [hr]
    exact ⟨rfl, rfl, rfl, rfl, rfl, rfl, rfl, rfl, rfl, rfl, rfl, rfl, rfl, ⟨[], by simp⟩, hw⟩
  have h1 := h0
    { u.regs with sbBuf := u.regs.sbBuf.write u.regs.sbLen.toNat b, sbLen := BitVec.ofNat 8 (u.regs.sbLen.toNat + 1) }
    rfl (Store.wf_write _ _)
  simp only [putByte]
  split
  · exact h1.trans (closeSubBlock_frame _)
  · exact h1

/-! ### `EmitCode` (R74) -/

theorem setBits_frame (u : EncUnit) (a : BitVec 20) (n : BitVec 5) :
    PackerFrame u { u with regs := { u.regs with acc := a, nbits := n } } :=
  ⟨rfl, rfl, rfl, rfl, rfl, rfl, rfl, rfl, rfl, rfl, rfl, rfl, rfl, ⟨[], by simp⟩, id⟩

theorem flush_frame (fuel : Nat) (u : EncUnit) : PackerFrame u (flush fuel u) := by
  induction fuel generalizing u with
  | zero => exact PackerFrame.refl u
  | succ fuel ih =>
    simp only [flush]
    split
    · exact ((putByte_frame u _).trans (setBits_frame _ _ _)).trans (ih _)
    · exact PackerFrame.refl u

theorem emitCode_frame (u : EncUnit) (c : Code) : PackerFrame u (u.emitCode c) :=
  (setBits_frame u _ _).trans (flush_frame 3 _)

/-- What one call of the packer does to the bits: whole sub-blocks of 255 bytes go to `OUT`, and their bits with those
still held are the bits held before followed by `bits`. -/
def Packs (u v : EncUnit) (bits : List Bool) : Prop :=
  ∃ blocks : List (List Byte), (∀ d ∈ blocks, d.length = 255) ∧ v.out = u.out ++ blocks.flatMap subBlock ∧
    v.outLen = u.outLen + (blocks.flatMap subBlock).length ∧
    dataBits blocks.flatten ++ v.regs.heldBits = u.regs.heldBits ++ bits ∧ v.regs.sbLen.toNat ≤ 254

theorem Packs.refl (u : EncUnit) (h : u.regs.sbLen.toNat ≤ 254) : Packs u u [] :=
  ⟨[], by simp, by simp, by simp, by simp [dataBits], h⟩

theorem Packs.trans {u v w : EncUnit} {xs ys : List Bool} (a : Packs u v xs) (b : Packs v w ys) :
    Packs u w (xs ++ ys) := by
  obtain ⟨p, hp, hpo, hpl, hpb, -⟩ := a
  obtain ⟨q, hq, hqo, hql, hqb, hs⟩ := b
  refine ⟨p ++ q, ?_, ?_, ?_, ?_, hs⟩
  · intro d hd
    rcases List.mem_append.mp hd with h | h
    · exact hp d h
    · exact hq d h
  · rw [hqo, hpo, List.flatMap_append, List.append_assoc]
  · rw [hql, hpl, List.flatMap_append, List.length_append, Nat.add_assoc]
  · rw [List.flatten_append, dataBits_append, List.append_assoc, hqb, ← List.append_assoc, hpb, List.append_assoc]

/-- `PutByte` of the low byte of the accumulator, with the shift of R74, moves bits without changing their order. -/
theorem putByte_packs (u : EncUnit) (h : u.regs.sbLen.toNat ≤ 254) (hn : 8 ≤ u.regs.nbits.toNat) :
    let v := u.putByte (u.regs.acc.setWidth 8)
    Packs u { v with regs := { v.regs with acc := v.regs.acc >>> 8, nbits := BitVec.ofNat 5 (v.regs.nbits.toNat - 8) } }
      [] := by
  have hn5 := u.regs.nbits.isLt
  have hsplit : bitsOfNat u.regs.nbits.toNat u.regs.acc.toNat =
      bitsOfNat 8 (u.regs.acc.setWidth 8).toNat ++ bitsOfNat (u.regs.nbits.toNat - 8) (u.regs.acc >>> 8).toNat := by
    have := bitsOfNat_split 8 (u.regs.nbits.toNat - 8) u.regs.acc.toNat
    rw [Nat.add_sub_cancel' hn] at this
    rw [this, BitVec.toNat_setWidth, BitVec.toNat_ushiftRight, Nat.shiftRight_eq_div_pow]
  have hnb : (BitVec.ofNat 5 (u.regs.nbits.toNat - 8)).toNat = u.regs.nbits.toNat - 8 := by
    rw [BitVec.toNat_ofNat]; omega
  have hheld : ∀ bs : List Byte, dataBits (bs ++ [u.regs.acc.setWidth 8]) ++
      bitsOfNat (u.regs.nbits.toNat - 8) (u.regs.acc >>> 8).toNat =
        dataBits bs ++ bitsOfNat u.regs.nbits.toNat u.regs.acc.toNat := by
    intro bs
    rw [hsplit, dataBits_append, List.append_assoc]
    simp [dataBits]
  by_cases hc : u.regs.sbLen.toNat = 254
  · simp only [putByte_closes u _ hc]
    have hl : (u.regs.sbBytes ++ [u.regs.acc.setWidth 8]).length = 255 := by simp [sbBytes_length, hc]
    refine ⟨[u.regs.sbBytes ++ [u.regs.acc.setWidth 8]], ?_, ?_, ?_, ?_, ?_⟩
    · simpa using hl
    · simp only [List.flatMap_cons, List.flatMap_nil, List.append_nil, subBlock, hl]
    · simp only [List.flatMap_cons, List.flatMap_nil, List.append_nil, subBlock, List.length_cons, hl]
    · simp only [EncRegs.heldBits, List.flatten_cons, List.flatten_nil, List.append_nil, hnb]
      have : ({ u.regs with
          sbBuf := u.regs.sbBuf.write 254 (u.regs.acc.setWidth 8), sbLen := 0,
          acc := u.regs.acc >>> 8, nbits := BitVec.ofNat 5 (u.regs.nbits.toNat - 8) } : EncRegs).sbBytes = [] := rfl
      rw [this]
      simpa [dataBits] using hheld u.regs.sbBytes
    · show (0#8).toNat ≤ 254
      decide
  · have hlt : u.regs.sbLen.toNat < 254 := by omega
    simp only [putByte_open u _ hlt]
    refine ⟨[], by simp, by simp, by simp, ?_, ?_⟩
    · have hs := sbBytes_write u.regs (u.regs.acc.setWidth 8) h
      simp only [EncRegs.heldBits, List.flatten_nil, hnb]
      have : ({ u.regs with
          sbBuf := u.regs.sbBuf.write u.regs.sbLen.toNat (u.regs.acc.setWidth 8)
          sbLen := BitVec.ofNat 8 (u.regs.sbLen.toNat + 1)
          acc := u.regs.acc >>> 8, nbits := BitVec.ofNat 5 (u.regs.nbits.toNat - 8) } : EncRegs).sbBytes =
            u.regs.sbBytes ++ [u.regs.acc.setWidth 8] := hs
      rw [this]
      simpa [dataBits] using hheld u.regs.sbBytes
    · show (BitVec.ofNat 8 (u.regs.sbLen.toNat + 1)).toNat ≤ 254
      rw [BitVec.toNat_ofNat]; omega

theorem flush_packs (fuel : Nat) (u : EncUnit) (h : u.regs.sbLen.toNat ≤ 254) : Packs u (flush fuel u) [] := by
  induction fuel generalizing u with
  | zero => exact Packs.refl u h
  | succ fuel ih =>
    simp only [flush]
    split
    · next hn =>
      have hp := putByte_packs u h hn
      have := hp.trans (ih _ hp.choose_spec.2.2.2.2)
      simpa using this
    · exact Packs.refl u h

/-- The accumulator after `fuel` rounds of the flush. -/
theorem flush_bits (fuel : Nat) (u : EncUnit) (hn : u.regs.nbits.toNat < 8 * (fuel + 1))
    (ha : u.regs.acc.toNat < 2 ^ u.regs.nbits.toNat) :
    (flush fuel u).regs.nbits.toNat = u.regs.nbits.toNat % 8 ∧
      (flush fuel u).regs.acc.toNat < 2 ^ (flush fuel u).regs.nbits.toNat := by
  induction fuel generalizing u with
  | zero => exact ⟨by simp only [flush]; omega, ha⟩
  | succ fuel ih =>
    simp only [flush]
    have hn5 := u.regs.nbits.isLt
    split
    · next h8 =>
      have hreg : ∀ b, (u.putByte b).regs.acc = u.regs.acc ∧ (u.putByte b).regs.nbits = u.regs.nbits := by
        intro b
        simp only [putByte]
        split
        · rw [closeSubBlock_eq]; exact ⟨rfl, rfl⟩
        · exact ⟨rfl, rfl⟩
      have hnb : (BitVec.ofNat 5 (u.regs.nbits.toNat - 8)).toNat = u.regs.nbits.toNat - 8 := by
        rw [BitVec.toNat_ofNat]; omega
      have hacc : (u.regs.acc >>> 8).toNat < 2 ^ (u.regs.nbits.toNat - 8) := by
        rw [BitVec.toNat_ushiftRight, Nat.shiftRight_eq_div_pow, Nat.div_lt_iff_lt_mul (by decide), ← Nat.pow_add]
        rwa [Nat.sub_add_cancel h8]
      have := ih
        { u.putByte (u.regs.acc.setWidth 8) with
          regs :=
            { (u.putByte (u.regs.acc.setWidth 8)).regs with
              acc := (u.putByte (u.regs.acc.setWidth 8)).regs.acc >>> 8
              nbits := BitVec.ofNat 5 ((u.putByte (u.regs.acc.setWidth 8)).regs.nbits.toNat - 8) } }
      simp only [hreg, hnb] at this
      have := this (by omega) hacc
      simp only [hreg] at this ⊢
      refine ⟨?_, this.2⟩
      rw [this.1]; omega
    · next h8 =>
      exact ⟨by omega, ha⟩

/-- `EmitCode(c)` appends the bits of `c` at the current width, least significant first (R37, R74), and keeps the
accumulator's invariant. -/
theorem emitCode_spec (u : EncUnit) (c : Code) (hn : u.regs.nbits.toNat < 8)
    (ha : u.regs.acc.toNat < 2 ^ u.regs.nbits.toNat) (hw : u.regs.width.toNat ≤ 12)
    (hs : u.regs.sbLen.toNat ≤ 254) (hc : c.toNat < 2 ^ u.regs.width.toNat) :
    Packs u (u.emitCode c) (bitsOfNat u.regs.width.toNat c.toNat) ∧
      (u.emitCode c).regs.nbits.toNat = (u.regs.nbits.toNat + u.regs.width.toNat) % 8 ∧
      (u.emitCode c).regs.acc.toNat < 2 ^ (u.emitCode c).regs.nbits.toNat := by
  have hnb : (u.pushCode c).regs.nbits.toNat = u.regs.nbits.toNat + u.regs.width.toNat := by
    rw [pushCode_nbits, BitVec.toNat_ofNat]; omega
  have hlt : c.toNat * 2 ^ u.regs.nbits.toNat < 2 ^ 20 := by
    calc c.toNat * 2 ^ u.regs.nbits.toNat < 2 ^ 12 * 2 ^ u.regs.nbits.toNat :=
          Nat.mul_lt_mul_of_pos_right c.isLt (Nat.two_pow_pos _)
      _ ≤ 2 ^ 12 * 2 ^ 8 := Nat.mul_le_mul_left _ (Nat.pow_le_pow_right (by decide) (by omega))
      _ = 2 ^ 20 := by norm_num
  have hacc : (u.pushCode c).regs.acc.toNat =
      u.regs.acc.toNat + 2 ^ u.regs.nbits.toNat * c.toNat := by
    rw [pushCode_acc, BitVec.toNat_or, BitVec.toNat_shiftLeft, BitVec.toNat_setWidth,
      Nat.mod_eq_of_lt (Nat.lt_trans c.isLt (by decide)), Nat.mod_eq_of_lt (by rw [Nat.shiftLeft_eq]; exact hlt),
      or_shift_eq_add _ _ _ ha]
  have hlt2 : (u.pushCode c).regs.acc.toNat < 2 ^ (u.pushCode c).regs.nbits.toNat := by
    rw [hacc, hnb, Nat.pow_add]
    calc u.regs.acc.toNat + 2 ^ u.regs.nbits.toNat * c.toNat
        < 2 ^ u.regs.nbits.toNat + 2 ^ u.regs.nbits.toNat * c.toNat := by omega
      _ = 2 ^ u.regs.nbits.toNat * (c.toNat + 1) := by ring
      _ ≤ 2 ^ u.regs.nbits.toNat * 2 ^ u.regs.width.toNat := Nat.mul_le_mul_left _ hc
  have hpush : Packs u (u.pushCode c) (bitsOfNat u.regs.width.toNat c.toNat) := by
    refine ⟨[], by simp, by simp, by simp, ?_, hs⟩
    have hb : (u.pushCode c).regs.sbBytes = u.regs.sbBytes := rfl
    simp only [EncRegs.heldBits, hb, hnb, hacc, List.flatten_nil]
    rw [bitsOfNat_add _ _ _ _ ha]
    simp [dataBits]
  have hf := flush_packs 3 (u.pushCode c) hs
  have hb := flush_bits 3 (u.pushCode c) (by rw [hnb]; omega) hlt2
  refine ⟨?_, ?_, hb.2⟩
  · have := hpush.trans hf
    rwa [List.append_nil] at this
  · rw [hnb] at hb; exact hb.1

end EncUnit

end Sys2Proof.Machine
end

