-- ==== Sys2Proof/Laws/Step.lean ====
section
/-! SUPPORT. Laws/Step.lean: what an instruction and a step can do, said once.

`EncUnit.next` and `DecUnit.next?` are what one step makes of a unit in phase RUN; `step_cases` says that a step that
answers a next state is one of four moves. -/

namespace Sys2Proof.Machine

/-! ### One unit inside the block -/

theorem State.runEnc_next {s t : State} {i : Instr} {f : EncUnit → EncUnit} (h : s.runEnc i f = .next t) :
    s.enc.selects i = true ∧ t = { s with enc := f s.enc } := by
  simp only [State.runEnc] at h
  split at h
  · next hs => exact ⟨hs, by cases h; rfl⟩
  · cases h

theorem State.runEnc_selected (s : State) {i : Instr} (f : EncUnit → EncUnit) (h : s.enc.selects i = true) :
    s.runEnc i f = .next { s with enc := f s.enc } := by simp only [State.runEnc, if_pos h]

theorem State.runDec_next {s t : State} {i : Instr} {f : DecUnit → DecUnit} (h : s.runDec i f = .next t) :
    s.dec.selects i = true ∧ t = { s with dec := f s.dec } := by
  simp only [State.runDec] at h
  split at h
  · next hs => exact ⟨hs, by cases h; rfl⟩
  · cases h

theorem State.runDec_selected (s : State) {i : Instr} (f : DecUnit → DecUnit) (h : s.dec.selects i = true) :
    s.runDec i f = .next { s with dec := f s.dec } := by simp only [State.runDec, if_pos h]

/-- The selection of an encoder step, spelled out. -/
theorem EncUnit.selects_iff (u : EncUnit) (i : Instr) :
    u.selects i = true ↔ u.phase = .run ∧ selectEnc u.view = i := by
  simp [EncUnit.selects, decode]

/-- What one step makes of an encoder unit in phase RUN. -/
def EncUnit.next (u : EncUnit) : EncUnit :=
  if u.started = false then u.start
  else if u.view.atEnd then u.finish
  else if u.view.hit then EncUnit.hit u.view.k u
  else if u.view.full then EncUnit.full u.view.k u
  else EncUnit.miss u.view.k u

theorem stepEnc_eq (s : State) (h : s.enc.phase = .run) : stepEnc s = .next { s with enc := s.enc.next } := by
  have hsel : s.enc.selects (selectEnc s.enc.view) = true := (EncUnit.selects_iff _ _).mpr ⟨h, rfl⟩
  have hst : s.enc.view.started = s.enc.started := rfl
  revert hsel
  simp only [stepEnc, EncUnit.next, selectEnc, hst]
  split
  · intro hsel; exact s.runEnc_selected _ hsel
  · split
    · intro hsel; exact s.runEnc_selected _ hsel
    · split
      · intro hsel; exact s.runEnc_selected _ hsel
      · split
        · intro hsel; exact s.runEnc_selected _ hsel
        · intro hsel; exact s.runEnc_selected _ hsel

/-- The unit a code leaves behind, once it is out of the accumulator; none when R94 gives no run. -/
def DecUnit.act (v : DecUnit) (i : Instr) : Option DecUnit :=
  match i with
  | .clr => some v.resetTable
  | .eoi => some (v.setEndReason .eoi).finish
  | .lit k => some (v.dataCode (k.setWidth 12) k [])
  | .tab c =>
    match v.regs.seq c with
    | some (f :: rest) => some (v.dataCode c f rest)
    | _ => none
  | .kwk c =>
    match v.regs.kwkRun with
    | some (f :: rest) => some (v.dataCode c f rest)
    | _ => none
  | .illNoPrev c => some (v.raise .dKwkwkNoPrev (.code c v.regs.nextCode v.regs.srcPos))
  | .illRange c => some (v.raise .dInvalidCode (.code c v.regs.nextCode v.regs.srcPos))
  | .encode _ | .decode _ | .encStart | .encHit _ | .encMiss _ | .encFull _ | .encFinish
  | .bMcs _ | .bLen _ | .bTerm | .bData _ => none

/-- What one step makes of a decoder unit in phase RUN; none when it stops. -/
def DecUnit.next? (u : DecUnit) : Option DecUnit :=
  match u.fetch with
  | .overrun a => some (u.raise .dSourceOverrun (.overrun a))
  | .exhausted => some u.exhaust
  | .raw (.byte .mcs b) => some (u.start b)
  | .raw (.byte .length b) => if b = 0#8 then some u.terminator else some (u.lenByte b)
  | .raw (.byte .data b) => some (u.dataByte b)
  | .raw (.code cc c) =>
    if c < 2 ^ cc.width ∧ c < Config.tableSize then u.consumeCode.act (classify cc c) else none
  | .raw (.encodeCommand _) => none
  | .raw (.decodeCommand _) => none
  | .raw (.encState _) => none

/-- The sequences of codes do not depend on the accumulator. -/
theorem DecRegs.seqRev_congr (r q : DecRegs) (hc : q.clearCode = r.clearCode) (he : q.eoiCode = r.eoiCode)
    (hn : q.nextCode = r.nextCode) (hp : q.prefixes = r.prefixes) (hs : q.suffixes = r.suffixes) (fuel : Nat)
    (c : Code) : q.seqRev fuel c = r.seqRev fuel c := by
  induction fuel generalizing c with
  | zero => rfl
  | succ fuel ih => simp only [DecRegs.seqRev, hc, he, hn, hp, hs, ih]

theorem DecUnit.consumeCode_seq (u : DecUnit) (c : Code) : u.consumeCode.regs.seq c = u.regs.seq c := by
  unfold DecRegs.seq
  rw [DecRegs.seqRev_congr u.regs u.consumeCode.regs rfl rfl rfl rfl rfl]

theorem DecUnit.consumeCode_kwkRun (u : DecUnit) : u.consumeCode.regs.kwkRun = u.regs.kwkRun := by
  unfold DecRegs.kwkRun
  rw [DecUnit.consumeCode_seq]
  rfl

/-- A code's meaning is its action on the unit without the code. -/
theorem exec_code (s : State) (i : Instr) (hi : i.isCode = true) (hs : s.dec.selects i = true) :
    exec i s =
      match s.dec.consumeCode.act i with
      | some u => .next { s with dec := u }
      | none => .fault .brokenChain := by
  cases i <;> simp only [Instr.isCode, Bool.false_eq_true] at hi
  case clr => exact s.runDec_selected _ hs
  case eoi => exact s.runDec_selected _ hs
  case lit k => simp only [exec, execLit, State.runDataCode, if_pos hs, DecUnit.act]
  case tab c =>
    simp only [exec, execTab, State.runDataCode, if_pos hs, DecUnit.act, DecUnit.consumeCode_seq]
    split <;> simp_all
  case kwk c =>
    simp only [exec, execKwk, State.runDataCode, if_pos hs, DecUnit.act, DecUnit.consumeCode_kwkRun]
    split <;> simp_all
  case illNoPrev c => exact s.runDec_selected _ hs
  case illRange c => exact s.runDec_selected _ hs

theorem classify_isCode (cc : CodeCtx) (c : Nat) : (classify cc c).isCode = true := by
  simp only [classify]
  repeat' split
  all_goals rfl

theorem stepDec_eq (s : State) (h : s.dec.phase = .run) :
    (∃ u, s.dec.next? = some u ∧ stepDec s = .next { s with dec := u }) ∨
      (s.dec.next? = none ∧ (stepDec s = .fault .brokenChain ∨ stepDec s = .fault .illegalWidth)) := by
  have hsel : ∀ r i, s.dec.fetch = .raw r → decode r = .instr i → s.dec.selects i = true := by
    intro r i hf hd
    simp [DecUnit.selects, h, hf, hd]
  have hraw : ∀ r, s.dec.fetch = .raw r → (∃ pos b, r = .byte pos b) ∨ ∃ cc c, r = .code cc c := by
    intro r hf
    have hb : ∀ pos a, s.dec.fetchByteAt pos a = .raw r → ∃ pos b, r = .byte pos b := by
      intro pos a hx
      simp only [DecUnit.fetchByteAt] at hx
      split at hx
      · next b _ => cases hx; exact ⟨pos, b, rfl⟩
      · cases hx
    simp only [DecUnit.fetch] at hf
    split at hf
    · exact .inl (hb _ _ hf)
    · split at hf
      · split at hf
        · split at hf
          · cases hf
          · exact .inl (hb _ _ hf)
        · exact .inl (hb _ _ hf)
      · cases hf; exact .inr ⟨_, _, rfl⟩
  cases hf : s.dec.fetch with
  | overrun a =>
    exact .inl ⟨s.dec.raise .dSourceOverrun (.overrun a), by simp only [DecUnit.next?, hf], by simp only [stepDec, hf]⟩
  | exhausted => exact .inl ⟨s.dec.exhaust, by simp only [DecUnit.next?, hf], by simp only [stepDec, hf]⟩
  | raw r =>
    rcases hraw r hf with ⟨pos, b, rfl⟩ | ⟨cc, c, rfl⟩
    · cases pos with
      | mcs =>
        refine .inl ⟨s.dec.start b, by simp only [DecUnit.next?, hf], ?_⟩
        by_cases hb : Config.mcsMin ≤ b.toNat ∧ b.toNat ≤ Config.mcsMax
        · have hd : decode (.byte .mcs b) = .instr (.bMcs b) := by simp only [decode, decodeByte, if_pos hb]
          have he : exec (.bMcs b) s = .next { s with dec := s.dec.start b } := s.runDec_selected _ (hsel _ _ hf hd)
          simp only [stepDec, hf, hd, he]
        · have hd : decode (.byte .mcs b) = .reject (.badMinCodeSize b) := by simp only [decode, decodeByte, if_neg hb]
          have hs : s.dec.selects (.bMcs b) = true := by simp [DecUnit.selects, h, hf, hd]
          have he : exec (.bMcs b) s = .next { s with dec := s.dec.start b } := s.runDec_selected _ hs
          simp only [stepDec, hf, hd, he]
      | length =>
        by_cases hb : b = 0#8
        · refine .inl ⟨s.dec.terminator, by simp [DecUnit.next?, hf, hb], ?_⟩
          have hs := hsel _ .bTerm hf (by simp [decode, decodeByte, hb])
          have he : exec .bTerm s = .next { s with dec := s.dec.terminator } := s.runDec_selected _ hs
          simp [stepDec, hf, decode, decodeByte, hb, he]
        · refine .inl ⟨s.dec.lenByte b, by simp [DecUnit.next?, hf, hb], ?_⟩
          have hs := hsel _ (.bLen b) hf (by simp [decode, decodeByte, hb])
          have he : exec (.bLen b) s = .next { s with dec := s.dec.lenByte b } := s.runDec_selected _ hs
          simp [stepDec, hf, decode, decodeByte, hb, he]
      | data =>
        refine .inl ⟨s.dec.dataByte b, by simp [DecUnit.next?, hf], ?_⟩
        have hs := hsel _ (.bData b) hf rfl
        have he : exec (.bData b) s = .next { s with dec := s.dec.dataByte b } := s.runDec_selected _ hs
        simp [stepDec, hf, decode, decodeByte, he]
    · by_cases hc : c < 2 ^ cc.width ∧ c < Config.tableSize
      · have hd : decode (.code cc c) = .instr (classify cc c) := by simp only [decode, if_pos hc]
        have he := exec_code s _ (classify_isCode cc c) (hsel _ _ hf hd)
        simp only [stepDec, DecUnit.next?, hf, hd, if_pos hc, he]
        cases s.dec.consumeCode.act (classify cc c) with
        | some u => exact .inl ⟨u, rfl, rfl⟩
        | none => exact .inr ⟨rfl, .inl rfl⟩
      · right
        simp [stepDec, DecUnit.next?, hf, decode, if_neg hc]

/-! ### Steps -/

theorem State.nextAgent_ready {s : State} {a : Agent} (h : s.nextAgent = some a) : s.ready a = true :=
  List.find?_some h

/-- The host's move, when it may make it. -/
theorem stepHost_eq (s : State) (h : s.ready .host = true) :
    (∃ r rest, s.hostq = .encode r :: rest ∧ s.enc.phase ≠ .run ∧
        stepHost s = .next { s with hostq := rest, enc := EncUnit.begin r s.freeTick, freeTick := s.freeTick + 1 }) ∨
      (∃ r rest, s.hostq = .decode r :: rest ∧ s.dec.phase ≠ .run ∧
        stepHost s =
          .next { s with hostq := rest, dec := DecUnit.begin r s.freeTick s.dec.idx, freeTick := s.freeTick + 1 }) ∨
      ∃ pos v rest, s.hostq = .writeIdx pos v :: rest ∧ s.dec.phase ≠ .run ∧
        stepHost s = .next { s with hostq := rest, dec := { s.dec with idx := Memory.write s.dec.idx pos v } } := by
  simp only [State.ready] at h
  split at h
  · cases h
  · next r rest hq =>
    have hp : s.enc.phase ≠ .run := by simpa using h
    exact .inl ⟨r, rest, hq, hp, by simp [stepHost, hq, exec, execEncode, hp]⟩
  · next r rest hq =>
    have hp : s.dec.phase ≠ .run := by simpa using h
    exact .inr (.inl ⟨r, rest, hq, hp, by simp [stepHost, hq, exec, execDecode, hp]⟩)
  · next pos v rest hq =>
    have hp : s.dec.phase ≠ .run := by simpa using h
    exact .inr (.inr ⟨pos, v, rest, hq, hp, by simp [stepHost, hq, State.hostWriteIdx, hp]⟩)

/-- Everything a step that answers a next state can be. -/
theorem step_cases {s t : State} (h : step s = .next t) :
    (s.nextAgent = none ∧ t = s) ∨
      (∃ r rest, s.hostq = .encode r :: rest ∧ s.enc.phase ≠ .run ∧
        t = { s with
              sched := s.sched.drop 1, hostq := rest, enc := EncUnit.begin r s.freeTick,
              freeTick := s.freeTick + 1 }) ∨
      (∃ r rest, s.hostq = .decode r :: rest ∧ s.dec.phase ≠ .run ∧
        t = { s with
              sched := s.sched.drop 1, hostq := rest, dec := DecUnit.begin r s.freeTick s.dec.idx,
              freeTick := s.freeTick + 1 }) ∨
      (∃ pos v rest, s.hostq = .writeIdx pos v :: rest ∧ s.dec.phase ≠ .run ∧
        t = { s with
              sched := s.sched.drop 1, hostq := rest,
              dec := { s.dec with idx := Memory.write s.dec.idx pos v } }) ∨
      (s.enc.phase = .run ∧ t = { s with sched := s.sched.drop 1, enc := s.enc.next }) ∨
      ∃ u, s.dec.phase = .run ∧ s.dec.next? = some u ∧ t = { s with sched := s.sched.drop 1, dec := u } := by
  simp only [step] at h
  split at h
  · next hn => exact .inl ⟨hn, by cases h; rfl⟩
  · next hn =>
    have hr : s.nextTurn.ready .host = true := State.nextAgent_ready (s := s) hn
    rcases stepHost_eq _ hr with ⟨r, rest, hq, hp, he⟩ | ⟨r, rest, hq, hp, he⟩ | ⟨pos, v, rest, hq, hp, he⟩
    · rw [he] at h; cases h; exact .inr (.inl ⟨r, rest, hq, hp, rfl⟩)
    · rw [he] at h; cases h; exact .inr (.inr (.inl ⟨r, rest, hq, hp, rfl⟩))
    · rw [he] at h; cases h; exact .inr (.inr (.inr (.inl ⟨pos, v, rest, hq, hp, rfl⟩)))
  · next hn =>
    have hp : s.enc.phase = .run := by simpa [State.ready] using State.nextAgent_ready hn
    rw [stepEnc_eq s.nextTurn hp] at h
    cases h
    exact .inr (.inr (.inr (.inr (.inl ⟨hp, rfl⟩))))
  · next hn =>
    have hp : s.dec.phase = .run := by simpa [State.ready] using State.nextAgent_ready hn
    rcases stepDec_eq s.nextTurn hp with ⟨u, hu, he⟩ | ⟨-, he | he⟩
    · rw [he] at h; cases h; exact .inr (.inr (.inr (.inr (.inr ⟨u, hp, hu, rfl⟩))))
    · rw [he] at h; cases h
    · rw [he] at h; cases h

end Sys2Proof.Machine
end

