-- ==== Sys2Proof/Laws/Widths.lean ====
section
/-! SUPPORT. Laws/Widths.lean: the number of bits of a value (41_encoder.md R76), in the form the width rules use. -/

namespace Sys2Proof

theorem bitlen_le_iff (v w : Nat) : bitlen v ≤ w ↔ v < 2 ^ w := by
  by_cases h : v = 0
  · subst h; simp [bitlen]
  · rw [bitlen, if_neg h, Nat.add_one_le_iff, Nat.log2_lt h]

theorem lt_bitlen_iff (v w : Nat) : w < bitlen v ↔ 2 ^ w ≤ v := by
  rw [← Nat.not_le, bitlen_le_iff, Nat.not_lt]

theorem lt_two_pow_bitlen (v : Nat) : v < 2 ^ bitlen v := (bitlen_le_iff v _).mp (Nat.le_refl _)

theorem bitlen_mono {v w : Nat} (h : v ≤ w) : bitlen v ≤ bitlen w :=
  (bitlen_le_iff v _).mpr (Nat.lt_of_le_of_lt h (lt_two_pow_bitlen w))

/-- A value between two powers of two. -/
theorem bitlen_eq {v w : Nat} (h1 : 2 ^ w ≤ v) (h2 : v < 2 ^ (w + 1)) : bitlen v = w + 1 := by
  have := (bitlen_le_iff v (w + 1)).mpr h2
  have := (lt_bitlen_iff v w).mpr h1
  omega

/-- The number of bits grows, by one, exactly at a power of two. -/
theorem bitlen_succ (v : Nat) : bitlen (v + 1) = if v + 1 = 2 ^ bitlen v then bitlen v + 1 else bitlen v := by
  have h := lt_two_pow_bitlen v
  split
  · next he =>
    exact bitlen_eq (by omega) (by rw [Nat.pow_succ]; have := Nat.two_pow_pos (bitlen v); omega)
  · next he =>
    have := (bitlen_le_iff (v + 1) (bitlen v)).mpr (by omega)
    have := bitlen_mono (Nat.le_succ v)
    rw [Nat.succ_eq_add_one] at this
    omega

end Sys2Proof
end

