-- ==== Sys2Proof/Laws/DecInvariant.lean ====
section
/-! SUPPORT. Laws/DecInvariant.lean: legal decoder registers give every code its sequence, and every step of the decoder
keeps them legal or ends the command. -/

namespace Sys2Proof.Machine

/-! ### Legal registers -/

namespace DecRegs.Legal

variable {r : DecRegs}

theorem two_pow_le (h : r.Legal) : 4 ≤ 2 ^ r.m.toNat ∧ 2 ^ r.m.toNat ≤ 256 :=
  ⟨Nat.pow_le_pow_right (n := 2) (by decide) h.m_range.1, Nat.pow_le_pow_right (n := 2) (by decide) h.m_range.2⟩

theorem width_le (h : r.Legal) : r.width.toNat ≤ 12 := by rw [h.width_eq]; exact Nat.min_le_left _ _

/-- Legality does not look at the cursors. -/
theorem congr {q : DecRegs} (h : r.Legal) (hq : q = { q with
      m := r.m, clearCode := r.clearCode, eoiCode := r.eoiCode, nextCode := r.nextCode, width := r.width,
      prevValid := r.prevValid, prevCode := r.prevCode, terminated := r.terminated, prefixes := r.prefixes,
      suffixes := r.suffixes }) (hn : q.nbits.toNat ≤ 19) (ha : q.acc.toNat < 2 ^ q.nbits.toNat) : q.Legal := by
  rw [hq]
  exact ⟨h.m_range, h.clear_eq, h.eoi_eq, h.next_range, h.width_eq, hn, ha, h.not_terminated, h.fresh, h.prev_legal,
    h.links, h.bytes⟩

/-- The reversed sequence of a literal or table code: it exists, is not empty, holds indices of `m` bits, and does not
depend on the fuel once that exceeds the code (R28, R94). -/
theorem seqRev_spec (h : r.Legal) (n : Nat) : ∀ c : Code, c.toNat = n →
    DataCodeBelow r.clearCode.toNat r.eoiCode.toNat r.nextCode.toNat n →
    ∃ l : List Index, l ≠ [] ∧ (∀ x ∈ l, x.toNat < r.clearCode.toNat) ∧ l.length ≤ n - r.eoiCode.toNat + 1 ∧
      ∀ fuel, n < fuel → r.seqRev fuel c = some l := by
  induction n using Nat.strong_induction_on with
  | _ n ih =>
    intro c hc hd
    have hce : r.clearCode.toNat < r.eoiCode.toNat := by have := h.clear_eq; have := h.eoi_eq; omega
    have h256 := h.two_pow_le
    have hcl := h.clear_eq
    by_cases hlit : n < r.clearCode.toNat
    · refine ⟨[c.setWidth 8], by simp, ?_, by simp, ?_⟩
      · intro x hx
        rw [List.mem_singleton.mp hx, BitVec.toNat_setWidth]; omega
      · intro fuel hf
        obtain ⟨f, rfl⟩ : ∃ f, fuel = f + 1 := ⟨fuel - 1, by omega⟩
        simp only [DecRegs.seqRev, hc, if_pos hlit]
    · obtain ⟨h1, h2⟩ : r.eoiCode.toNat < n ∧ n < r.nextCode.toNat := by rcases hd with hd | hd <;> omega
      have hl := h.links n h1 h2
      have hlt : (r.prefixes.read n).toNat < n := by rcases hl with hl | hl <;> omega
      have hdp : DataCodeBelow r.clearCode.toNat r.eoiCode.toNat r.nextCode.toNat (r.prefixes.read n).toNat := by
        rcases hl with hl | hl
        · exact .inl hl
        · exact .inr ⟨hl.1, by omega⟩
      obtain ⟨l, hne, hall, hlen, hf⟩ := ih _ hlt (r.prefixes.read n) rfl hdp
      refine ⟨r.suffixes.read n :: l, by simp, ?_, ?_, ?_⟩
      · intro x hx
        rcases List.mem_cons.mp hx with rfl | hx
        · exact h.bytes n h1 h2
        · exact hall x hx
      · simp only [List.length_cons]; rcases hl with hl | hl <;> omega
      · intro fuel hfu
        obtain ⟨f, rfl⟩ : ∃ f, fuel = f + 1 := ⟨fuel - 1, by omega⟩
        simp only [DecRegs.seqRev, hc, if_neg hlit, if_pos (And.intro h1 h2), hf f (by omega), Option.map_some]

/-- Every literal and table code has a sequence (R94). -/
theorem seq_spec (h : r.Legal) (c : Code)
    (hd : DataCodeBelow r.clearCode.toNat r.eoiCode.toNat r.nextCode.toNat c.toNat) :
    ∃ f rest, r.seq c = some (f :: rest) ∧ (∀ x ∈ f :: rest, x.toNat < r.clearCode.toNat) ∧
      (f :: rest).length ≤ c.toNat - r.eoiCode.toNat + 1 := by
  obtain ⟨l, hne, hall, hlen, hf⟩ := h.seqRev_spec c.toNat c rfl hd
  have hs : r.seq c = some l.reverse := by
    rw [DecRegs.seq, hf Config.tableSize (by have := c.isLt; exact this), Option.map_some]
  cases hr : l.reverse with
  | nil => exact absurd (List.reverse_eq_nil_iff.mp hr) hne
  | cons f rest =>
    refine ⟨f, rest, by rw [hs, hr], ?_, ?_⟩
    · intro x hx; rw [← hr] at hx; exact hall x (List.mem_reverse.mp hx)
    · rw [← hr, List.length_reverse]; exact hlen

theorem seq_literal (r : DecRegs) (c : Code) (hc : c.toNat < r.clearCode.toNat) : r.seq c = some [c.setWidth 8] := by
  show Option.map List.reverse (r.seqRev (4095 + 1) c) = _
  rw [DecRegs.seqRev, if_pos hc]
  rfl

/-- The second equation of R94. -/
theorem seq_table (h : r.Legal) (c : Code) (h1 : r.eoiCode.toNat < c.toNat) (h2 : c.toNat < r.nextCode.toNat) :
    r.seq c = (r.seq (r.prefixes.read c.toNat)).map fun s => s ++ [r.suffixes.read c.toNat] := by
  have hce : r.clearCode.toNat < r.eoiCode.toNat := by have := h.clear_eq; have := h.eoi_eq; omega
  have hl := h.links c.toNat h1 h2
  have hlt : (r.prefixes.read c.toNat).toNat < c.toNat := by rcases hl with hl | hl <;> omega
  have hdp : DataCodeBelow r.clearCode.toNat r.eoiCode.toNat r.nextCode.toNat (r.prefixes.read c.toNat).toNat := by
    rcases hl with hl | hl
    · exact .inl hl
    · exact .inr ⟨hl.1, by omega⟩
  obtain ⟨l, -, -, -, hf⟩ := h.seqRev_spec _ (r.prefixes.read c.toNat) rfl hdp
  have hc := c.isLt
  have hnl : ¬ c.toNat < r.clearCode.toNat := by omega
  have e : r.seqRev Config.tableSize c = some (r.suffixes.read c.toNat :: l) := by
    show r.seqRev (4095 + 1) c = _
    rw [DecRegs.seqRev, if_neg hnl, if_pos (And.intro h1 h2), hf 4095 (by omega), Option.map_some]
  rw [DecRegs.seq, DecRegs.seq, e, hf Config.tableSize (by simp only [Config.tableSize]; omega)]
  simp

/-- The run of a KWK code (R88). -/
theorem kwkRun_spec (h : r.Legal) (hp : r.prevValid = true) :
    ∃ f rest, r.seq r.prevCode = some (f :: rest) ∧ r.kwkRun = some (f :: rest ++ [f]) ∧
      ∀ x ∈ f :: rest ++ [f], x.toNat < r.clearCode.toNat := by
  obtain ⟨f, rest, hs, hall, -⟩ := h.seq_spec r.prevCode (h.prev_legal hp)
  refine ⟨f, rest, hs, by rw [DecRegs.kwkRun, hs], ?_⟩
  intro x hx
  rcases List.mem_append.mp hx with hx | hx
  · exact hall x hx
  · rw [List.mem_singleton.mp hx]; exact hall f (by simp)

end DecRegs.Legal

/-! ### What each operation does to legal registers -/

theorem DecUnit.dataByte_legal (u : DecUnit) (b : Byte) (h : u.regs.Legal) (hn :
    u.regs.nbits.toNat < u.regs.width.toNat) :
    (u.dataByte b).regs.Legal ∧ (u.dataByte b).regs.nbits.toNat = u.regs.nbits.toNat + 8 ∧
      (u.dataByte b).regs.acc.toNat = u.regs.acc.toNat + 2 ^ u.regs.nbits.toNat * b.toNat := by
  have hw := h.width_le
  have hnb : (BitVec.ofNat 5 (u.regs.nbits.toNat + 8)).toNat = u.regs.nbits.toNat + 8 := by
    rw [BitVec.toNat_ofNat]; omega
  have hb : b.toNat * 2 ^ u.regs.nbits.toNat < 2 ^ 20 := by
    calc b.toNat * 2 ^ u.regs.nbits.toNat < 2 ^ 8 * 2 ^ u.regs.nbits.toNat :=
          Nat.mul_lt_mul_of_pos_right b.isLt (Nat.two_pow_pos _)
      _ ≤ 2 ^ 8 * 2 ^ 12 := Nat.mul_le_mul_left _ (Nat.pow_le_pow_right (by decide) (by omega))
      _ = 2 ^ 20 := by norm_num
  have hacc : (u.regs.acc ||| (b.setWidth 20 <<< u.regs.nbits.toNat)).toNat =
      u.regs.acc.toNat + 2 ^ u.regs.nbits.toNat * b.toNat := by
    rw [BitVec.toNat_or, BitVec.toNat_shiftLeft, BitVec.toNat_setWidth,
      Nat.mod_eq_of_lt (Nat.lt_trans b.isLt (by decide)), Nat.mod_eq_of_lt (by rw [Nat.shiftLeft_eq]; exact hb),
      or_shift_eq_add _ _ _ h.acc_lt]
  refine ⟨h.congr rfl ?_ ?_, hnb, hacc⟩
  · show (BitVec.ofNat 5 (u.regs.nbits.toNat + 8)).toNat ≤ 19
    omega
  · show (u.regs.acc ||| (b.setWidth 20 <<< u.regs.nbits.toNat)).toNat < 2 ^ (BitVec.ofNat 5
    (u.regs.nbits.toNat + 8)).toNat
    rw [hacc, hnb, Nat.pow_add]
    have := h.acc_lt
    calc u.regs.acc.toNat + 2 ^ u.regs.nbits.toNat * b.toNat
        < 2 ^ u.regs.nbits.toNat * (b.toNat + 1) := by rw [Nat.mul_add]; omega
      _ ≤ 2 ^ u.regs.nbits.toNat * 2 ^ 8 := Nat.mul_le_mul_left _ b.isLt

theorem DecUnit.consumeCode_legal (u : DecUnit) (h : u.regs.Legal) (hn : u.regs.width.toNat ≤ u.regs.nbits.toNat) :
    u.consumeCode.regs.Legal ∧ u.consumeCode.regs.nbits.toNat = u.regs.nbits.toNat - u.regs.width.toNat ∧
      u.consumeCode.regs.acc.toNat = u.regs.acc.toNat / 2 ^ u.regs.width.toNat := by
  have hnb : (BitVec.ofNat 5 (u.regs.nbits.toNat - u.regs.width.toNat)).toNat =
      u.regs.nbits.toNat - u.regs.width.toNat := by
    rw [BitVec.toNat_ofNat]; have := u.regs.nbits.isLt; omega
  have hacc : (u.regs.acc >>> u.regs.width.toNat).toNat = u.regs.acc.toNat / 2 ^ u.regs.width.toNat := by
    rw [BitVec.toNat_ushiftRight, Nat.shiftRight_eq_div_pow]
  refine ⟨h.congr rfl ?_ ?_, hnb, hacc⟩
  · show (BitVec.ofNat 5 (u.regs.nbits.toNat - u.regs.width.toNat)).toNat ≤ 19
    have := h.nbits_le; omega
  · show (u.regs.acc >>> u.regs.width.toNat).toNat < 2 ^ (BitVec.ofNat 5
    (u.regs.nbits.toNat - u.regs.width.toNat)).toNat
    rw [hacc, hnb, Nat.div_lt_iff_lt_mul (Nat.two_pow_pos _), ← Nat.pow_add, Nat.sub_add_cancel hn]
    exact h.acc_lt

theorem DecUnit.resetTable_legal (u : DecUnit) (h : u.regs.Legal) : u.resetTable.regs.Legal := by
  have h2 := h.two_pow_le
  have hm := h.m_range
  have hee := h.eoi_eq
  have hn : (BitVec.ofNat 13 (u.regs.eoiCode.toNat + 1)).toNat = u.regs.eoiCode.toNat + 1 := by
    rw [BitVec.toNat_ofNat]; omega
  have hw : (BitVec.ofNat 4 (u.regs.m.toNat + 1)).toNat = u.regs.m.toNat + 1 := by
    rw [BitVec.toNat_ofNat]; omega
  refine ⟨h.m_range, h.clear_eq, h.eoi_eq, ?_, ?_, h.nbits_le, h.acc_lt, h.not_terminated, ?_, ?_, ?_, ?_⟩ <;>
    simp only [DecUnit.resetTable, hn, hw]
  · omega
  · rw [hee, bitlen_eq (w := u.regs.m.toNat) (by omega) (by rw [Nat.pow_succ]; omega)]
    omega
  · intro _; trivial
  · intro h0; exact absurd h0 (by decide)
  · intro c h1 h2; omega
  · intro c h1 h2; omega

/-- The registers after a data code (R91, R93), beside the cursors: an entry is added when there is a previous code and
room for it. -/
theorem DecUnit.insert_setPrev_legal (u : DecUnit) (f : Index) (c : Code) (h : u.regs.Legal)
    (hf : f.toNat < u.regs.clearCode.toNat)
    (hc : DataCodeBelow u.regs.clearCode.toNat u.regs.eoiCode.toNat u.regs.nextCode.toNat c.toNat ∨
      c.toNat = u.regs.nextCode.toNat ∧ u.regs.prevValid = true) :
    ((u.insert f).setPrev c).regs.Legal := by
  have hnr := h.next_range
  have hcl := c.isLt
  by_cases hp : u.regs.prevValid = true
  · by_cases hn : u.regs.nextCode.toNat < 4096
    · have hn1 : (BitVec.ofNat 13 (u.regs.nextCode.toNat + 1)).toNat = u.regs.nextCode.toNat + 1 := by
        rw [BitVec.toNat_ofNat]; omega
      have hpl := h.prev_legal hp
      rw [DecUnit.insert_stores u f hp hn]
      refine ⟨h.m_range, h.clear_eq, h.eoi_eq, ?_, ?_, h.nbits_le, h.acc_lt, h.not_terminated, ?_, ?_, ?_, ?_⟩ <;>
        simp only [DecUnit.setPrev, hn1]
      · omega
      · have hwe := h.width_eq
        have hs := bitlen_succ u.regs.nextCode.toNat
        have hlt := lt_two_pow_bitlen u.regs.nextCode.toNat
        have hb13 := (bitlen_le_iff u.regs.nextCode.toNat 12).mpr (by omega)
        have hwb : u.regs.width.toNat = bitlen u.regs.nextCode.toNat := by omega
        rw [hs, ← hwb]
        rw [← hwb] at hlt
        split
        · next hg =>
          rw [if_pos (by omega), BitVec.toNat_ofNat]
          omega
        · next hg =>
          split
          · next he =>
            have : ¬ u.regs.width.toNat < 12 := fun hx => hg ⟨by omega, hx⟩
            omega
          · omega
      · intro h0; exact absurd h0 (by decide)
      · intro _
        rcases hc with hc | hc
        · rcases hc with hc | hc
          · exact .inl hc
          · exact .inr ⟨hc.1, by omega⟩
        · exact .inr ⟨by omega, by omega⟩
      · intro x h1 h2
        rw [Store.read_write]
        split
        · next he => rw [he]; exact hpl
        · next he => exact h.links x h1 (by omega)
      · intro x h1 h2
        rw [Store.read_write]
        split
        · exact hf
        · next he => exact h.bytes x h1 (by omega)
    · have e := DecUnit.insert_full u f (by omega)
      rw [e]
      exact ⟨h.m_range, h.clear_eq, h.eoi_eq, h.next_range, h.width_eq, h.nbits_le, h.acc_lt, h.not_terminated,
        fun h0 => absurd h0 (by simp [DecUnit.setPrev]), fun _ => by
          rcases hc with hc | hc
          · exact hc
          · omega, h.links, h.bytes⟩
  · have hp0 : u.regs.prevValid = false := by simpa using hp
    have e := DecUnit.insert_no_prev u f hp0
    rw [e]
    exact ⟨h.m_range, h.clear_eq, h.eoi_eq, h.next_range, h.width_eq, h.nbits_le, h.acc_lt, h.not_terminated,
      fun h0 => absurd h0 (by simp [DecUnit.setPrev]), fun _ => by
        rcases hc with hc | hc
        · exact hc
        · exact absurd hc.2 hp, h.links, h.bytes⟩

/-! ### What a code leaves alone -/

/-- What no code changes once it is out of the accumulator: the command, the code constants, the bits held and the
position in `SRC` (R20, R81). -/
structure DecUnit.ReaderFrame (u v : DecUnit) : Prop where
  cmd : v.cmd = u.cmd
  started : v.started = u.started
  m : v.regs.m = u.regs.m
  clearCode : v.regs.clearCode = u.regs.clearCode
  eoiCode : v.regs.eoiCode = u.regs.eoiCode
  acc : v.regs.acc = u.regs.acc
  nbits : v.regs.nbits = u.regs.nbits
  srcPos : v.regs.srcPos = u.regs.srcPos
  sbRem : v.regs.sbRem = u.regs.sbRem
  terminated : v.regs.terminated = u.regs.terminated

theorem DecUnit.finish_regs (u : DecUnit) : u.finish.regs = u.regs := by rw [DecUnit.finish_status_only]

theorem DecUnit.overflow_reader (u : DecUnit) : DecUnit.ReaderFrame u u.overflow ∧ u.overflow.idx = u.idx ∧
    u.overflow.regs = u.regs := by
  by_cases h : u.cmd.strict = true
  · rw [DecUnit.overflow_strict u h]; exact ⟨⟨rfl, rfl, rfl, rfl, rfl, rfl, rfl, rfl, rfl, rfl⟩, rfl, rfl⟩
  · rw [DecUnit.overflow_tolerant u (by simpa using h)]; exact ⟨⟨rfl, rfl, rfl, rfl, rfl, rfl, rfl, rfl, rfl, rfl⟩,
    rfl, rfl⟩

theorem DecUnit.dataCode_reader (u : DecUnit) (c : Code) (f : Index) (rest : List Index) :
    DecUnit.ReaderFrame u (u.dataCode c f rest) := by
  by_cases hfit : u.regs.outPos + (f :: rest).length ≤ u.cmd.outputLength
  · rw [DecUnit.dataCode_fits u c f rest hfit, DecUnit.insert_regs_only]
    exact ⟨rfl, rfl, rfl, rfl, rfl, rfl, rfl, rfl, rfl, rfl⟩
  · rw [DecUnit.dataCode_overflows u c f rest (by omega)]
    exact u.overflow_reader.1

theorem DecUnit.act_reader (u v : DecUnit) (i : Instr) (hv : u.act i = some v) : DecUnit.ReaderFrame u v := by
  cases i <;> simp only [DecUnit.act, Option.some.injEq, reduceCtorEq] at hv
  case clr => rw [← hv]; exact ⟨rfl, rfl, rfl, rfl, rfl, rfl, rfl, rfl, rfl, rfl⟩
  case eoi => rw [← hv, DecUnit.finish_status_only]; exact ⟨rfl, rfl, rfl, rfl, rfl, rfl, rfl, rfl, rfl, rfl⟩
  case lit k => rw [← hv]; exact u.dataCode_reader _ _ _
  case tab c =>
    split at hv
    · rw [← Option.some.inj hv]; exact u.dataCode_reader _ _ _
    · cases hv
  case kwk c =>
    split at hv
    · rw [← Option.some.inj hv]; exact u.dataCode_reader _ _ _
    · cases hv
  case illNoPrev c => rw [← hv]; exact ⟨rfl, rfl, rfl, rfl, rfl, rfl, rfl, rfl, rfl, rfl⟩
  case illRange c => rw [← hv]; exact ⟨rfl, rfl, rfl, rfl, rfl, rfl, rfl, rfl, rfl, rfl⟩

/-! ### The decoder's steps -/

/-- What a step leaves: a unit that is still running, or one whose command has ended. -/
def DecUnit.Goes (v : DecUnit) : Prop :=
  (v.phase = .run ∧ v.started = true ∧ v.Running) ∨ v.phase = .done ∨ v.phase = .fault

theorem DecUnit.finish_goes (u : DecUnit) : u.finish.Goes := .inr (DecUnit.finish_ends u)

/-- The start step (R79). -/
theorem DecUnit.start_running (u : DecUnit) (b : Byte) (h1 : 2 ≤ b.toNat) (h2 : b.toNat ≤ 8)
    (hs : u.cmd.p0 < u.cmd.src.length) (hw : u.tooLong = false ∧ u.tooShort = false) :
    (u.start b).Running ∧ (u.start b).started = true ∧ (u.start b).phase = u.phase ∧ (u.start b).cmd = u.cmd ∧
      (u.start b).cause = u.cause ∧ (u.start b).info = u.info ∧ (u.start b).idx = u.idx ∧
      (u.start b).regs.m.toNat = b.toNat ∧ (u.start b).regs.srcPos = u.cmd.p0 + 1 ∧ (u.start b).regs.outPos = 0 ∧
      (u.start b).regs.nbits = 0#5 ∧ (u.start b).regs.sbRem = 0#8 ∧ (u.start b).regs.prevValid = false := by
  have hne : ¬ (b.toNat < Config.mcsMin ∨ Config.mcsMax < b.toNat) := by
    simp only [Config.mcsMin, Config.mcsMax]; omega
  have hlo : 4 ≤ 2 ^ b.toNat := Nat.pow_le_pow_right (n := 2) (by decide) h1
  have hhi : 2 ^ b.toNat ≤ 256 := Nat.pow_le_pow_right (n := 2) (by decide) h2
  have e1 : (b.setWidth 4).toNat = b.toNat := by rw [BitVec.toNat_setWidth]; omega
  have e2 : (BitVec.ofNat 9 (2 ^ b.toNat)).toNat = 2 ^ b.toNat := by rw [BitVec.toNat_ofNat]; omega
  have e3 : (BitVec.ofNat 9 (2 ^ b.toNat + 1)).toNat = 2 ^ b.toNat + 1 := by rw [BitVec.toNat_ofNat]; omega
  have e4 : (BitVec.ofNat 13 (2 ^ b.toNat + 2)).toNat = 2 ^ b.toNat + 2 := by rw [BitVec.toNat_ofNat]; omega
  have e5 : (BitVec.ofNat 4 (b.toNat + 1)).toNat = b.toNat + 1 := by rw [BitVec.toNat_ofNat]; omega
  have hb : bitlen (2 ^ b.toNat + 2) = b.toNat + 1 := bitlen_eq (by omega) (by rw [Nat.pow_succ]; omega)
  simp only [DecUnit.start, if_neg hne]
  refine ⟨⟨⟨?_, ?_, ?_, ?_, ?_, ?_, ?_, ?_, ?_, ?_, ?_, ?_⟩, ?_, ?_, hw, ?_⟩, ?_⟩ <;> simp only [e1, e2, e3, e4, e5]
  · exact ⟨h1, h2⟩
  · omega
  · omega
  · decide
  · decide
  · intro _; trivial
  · intro h0; exact absurd h0 (by decide)
  · intro c h1 h2; omega
  · intro c h1 h2; omega
  · omega
  · omega
  · intro i hi; omega
  · simp

/-- `WriteRun`, `Insert` and the previous code, on a run that fits (R91). -/
theorem DecUnit.data_running (u : DecUnit) (c : Code) (f : Index) (rest : List Index) (h : u.Running)
    (hall : ∀ x ∈ f :: rest, x.toNat < u.regs.clearCode.toNat)
    (hc : DataCodeBelow u.regs.clearCode.toNat u.regs.eoiCode.toNat u.regs.nextCode.toNat c.toNat ∨
      c.toNat = u.regs.nextCode.toNat ∧ u.regs.prevValid = true)
    (hfit : u.regs.outPos + (f :: rest).length ≤ u.cmd.outputLength) :
    (((u.writeRun (f :: rest)).insert f).setPrev c).Running := by
  have hl : ((u.writeRun (f :: rest)).regs).Legal := h.regs.congr rfl h.regs.nbits_le h.regs.acc_lt
  have hleg := (u.writeRun (f :: rest)).insert_setPrev_legal f c hl (hall f (by simp)) hc
  have hi := DecUnit.insert_regs_only (u.writeRun (f :: rest)) f
  refine ⟨hleg, ?_, ?_, ?_, ?_⟩
  · rw [hi]; exact h.src_range
  · rw [hi]; exact hfit
  · rw [hi]; exact h.no_warning
  · intro i hlt
    rw [hi] at hlt ⊢
    simp only [DecUnit.setPrev, DecUnit.writeRun, DecUnit.outWriteRun] at hlt ⊢
    rw [Memory.read_writeRun]
    split
    · next hr =>
      have hj : i - u.regs.outPos < (f :: rest).length := by omega
      exact ⟨(f :: rest)[i - u.regs.outPos], List.getElem?_eq_getElem hj, hall _ (List.getElem_mem hj)⟩
    · next hr => exact h.written i (by omega)

theorem DecUnit.overflow_ends (u : DecUnit) : u.overflow.phase = .done ∨ u.overflow.phase = .fault := by
  by_cases h : u.cmd.strict = true
  · rw [DecUnit.overflow_strict u h]; exact .inr rfl
  · rw [DecUnit.overflow_tolerant u (by simpa using h)]; exact .inl rfl

theorem DecUnit.dataCode_goes (u : DecUnit) (c : Code) (f : Index) (rest : List Index) (h : u.Running)
    (hr : u.phase = .run) (hs : u.started = true) (hall : ∀ x ∈ f :: rest, x.toNat < u.regs.clearCode.toNat)
    (hc : DataCodeBelow u.regs.clearCode.toNat u.regs.eoiCode.toNat u.regs.nextCode.toNat c.toNat ∨
      c.toNat = u.regs.nextCode.toNat ∧ u.regs.prevValid = true) :
    (u.dataCode c f rest).Goes := by
  by_cases hfit : u.regs.outPos + (f :: rest).length ≤ u.cmd.outputLength
  · rw [DecUnit.dataCode_fits u c f rest hfit]
    have hi := DecUnit.insert_regs_only (u.writeRun (f :: rest)) f
    refine .inl ⟨?_, ?_, u.data_running c f rest h hall hc hfit⟩ <;> rw [hi]
    · exact hr
    · exact hs
  · rw [DecUnit.dataCode_overflows u c f rest (by omega)]
    exact .inr u.overflow_ends

/-- The registers of a legal unit give a legal context (R52). -/
theorem DecRegs.Legal.codeCtx_ok {r : DecRegs} (h : r.Legal) : r.codeCtx.ok = true := by
  have hb : r.m.toNat + 1 ≤ bitlen r.nextCode.toNat := by
    apply (lt_bitlen_iff _ _).mpr; have := h.eoi_eq; have := h.next_range.1; omega
  have hw : r.m.toNat + 1 ≤ r.width.toNat := by have := h.width_eq; have := h.m_range.2; omega
  have hn : 2 ^ r.m.toNat + 2 ≤ r.nextCode.toNat := by have := h.next_range.1; have := h.eoi_eq; omega
  have hm : r.m.toNat ∈ List.range' Config.mcsMin 7 := by
    rw [List.mem_range'_1]; have := h.m_range; simp only [Config.mcsMin]; omega
  refine List.any_eq_true.mpr ⟨r.m.toNat, hm, ?_⟩
  simp [DecRegs.codeCtx, h.clear_eq, h.eoi_eq, hn, h.next_range.2, hw, h.width_le]

/-- The classes of R52, in the order of its table. -/
theorem classify_cases (cc : CodeCtx) (c : Nat) :
    (c = cc.clear ∧ classify cc c = .clr) ∨ (c = cc.eoi ∧ classify cc c = .eoi) ∨
      (c < cc.clear ∧ classify cc c = .lit (BitVec.ofNat 8 c)) ∨
      (¬ (c = cc.clear ∨ c = cc.eoi ∨ c < cc.clear) ∧ c < cc.next ∧ classify cc c = .tab (BitVec.ofNat 12 c)) ∨
      (c = cc.next ∧ cc.prevValid = true ∧ classify cc c = .kwk (BitVec.ofNat 12 c)) ∨
      (c = cc.next ∧ cc.prevValid = false ∧ classify cc c = .illNoPrev (BitVec.ofNat 12 c)) ∨
      (cc.next < c ∧ classify cc c = .illRange (BitVec.ofNat 12 c)) := by
  by_cases h1 : c = cc.clear
  · exact .inl ⟨h1, by simp only [classify, if_pos h1]⟩
  by_cases h2 : c = cc.eoi
  · exact .inr (.inl ⟨h2, by simp only [classify, if_neg h1, if_pos h2]⟩)
  by_cases h3 : c < cc.clear
  · exact .inr (.inr (.inl ⟨h3, by simp only [classify, if_neg h1, if_neg h2, if_pos h3]⟩))
  by_cases h4 : c < cc.next
  · exact .inr (.inr (.inr (.inl ⟨by tauto, h4, by simp only [classify, if_neg h1, if_neg h2, if_neg h3, if_pos h4]⟩)))
  by_cases h5 : c = cc.next
  · have e : classify cc c = if cc.prevValid then .kwk (BitVec.ofNat 12 c) else .illNoPrev (BitVec.ofNat 12 c) := by
      simp only [classify, if_neg h1, if_neg h2, if_neg h3, if_neg h4, if_pos h5]
    cases hp : cc.prevValid <;> simp [hp] at e <;> simp [h5] <;> simp [h5] at e <;> simp [e]
  · exact .inr (.inr (.inr (.inr (.inr (.inr ⟨by omega, by
      simp only [classify, if_neg h1, if_neg h2, if_neg h3, if_neg h4, if_neg h5]⟩)))))

/-- A code acts on a running unit from which it has been taken (R83): its class has an outcome. -/
theorem DecUnit.act_goes (u : DecUnit) (x : Nat) (h : u.Running) (hr : u.phase = .run) (hs : u.started = true)
    (hx : x < 4096) : ∃ v, u.act (classify u.regs.codeCtx x) = some v ∧ v.Goes := by
  have hce := h.regs.clear_eq
  have hee := h.regs.eoi_eq
  have hcl := u.regs.clearCode.isLt
  have h2 := h.regs.two_pow_le
  have hx12 : (BitVec.ofNat 12 x).toNat = x := by rw [BitVec.toNat_ofNat]; omega
  rcases classify_cases u.regs.codeCtx x with ⟨-, e⟩ | ⟨-, e⟩ | ⟨hlit, e⟩ | ⟨h1, ht, e⟩ | ⟨hn, hp, e⟩ | ⟨-, -,
    e⟩ | ⟨-, e⟩ <;>
    rw [e]
  · exact ⟨_, rfl, .inl ⟨hr, hs, u.resetTable_legal h.regs, h.src_range, h.out_range, h.no_warning, h.written⟩⟩
  · exact ⟨_, rfl, DecUnit.finish_goes _⟩
  · have hlit : x < u.regs.clearCode.toNat := hlit
    have hx8 : (BitVec.ofNat 8 x).toNat = x := by rw [BitVec.toNat_ofNat]; omega
    refine ⟨_, rfl, u.dataCode_goes _ _ [] h hr hs ?_ (.inl (.inl ?_))⟩
    · intro y hy; rw [List.mem_singleton.mp hy, hx8]; exact hlit
    · rw [BitVec.toNat_setWidth, hx8]; omega
  · have h1 : ¬ (x = u.regs.clearCode.toNat ∨ x = u.regs.eoiCode.toNat ∨ x < u.regs.clearCode.toNat) := h1
    have ht : x < u.regs.nextCode.toNat := ht
    have hd : DataCodeBelow u.regs.clearCode.toNat u.regs.eoiCode.toNat u.regs.nextCode.toNat
        (BitVec.ofNat 12 x).toNat := by rw [hx12]; exact .inr ⟨by omega, ht⟩
    obtain ⟨f, rest, he, hall, -⟩ := h.regs.seq_spec _ hd
    exact ⟨_, by simp only [DecUnit.act, he], u.dataCode_goes _ _ _ h hr hs hall (.inl hd)⟩
  · obtain ⟨f, rest, -, he, hall⟩ := h.regs.kwkRun_spec hp
    exact ⟨u.dataCode (BitVec.ofNat 12 x) f (rest ++ [f]), by simp only [DecUnit.act, he, List.cons_append],
      u.dataCode_goes _ _ _ h hr hs hall (.inr ⟨hx12.trans hn, hp⟩)⟩
  · exact ⟨_, rfl, .inr (.inr rfl)⟩
  · exact ⟨_, rfl, .inr (.inr rfl)⟩

/-- Taking the code out keeps the unit running. -/
theorem DecUnit.consumeCode_running (u : DecUnit) (h : u.Running) (hn : u.regs.width.toNat ≤ u.regs.nbits.toNat) :
    u.consumeCode.Running :=
  ⟨(u.consumeCode_legal h.regs hn).1, h.src_range, h.out_range, h.no_warning, h.written⟩

/-- What a running decoder's step is (R80, R81, R83). -/
theorem DecUnit.running_step (u : DecUnit) (h : u.Running) (hs : u.started = true) :
    (u.regs.nbits.toNat < u.regs.width.toNat ∧ u.cmd.src[u.regs.srcPos]? = none ∧
        u.next? = some (u.raise .dSourceOverrun (.overrun u.regs.srcPos))) ∨
      (u.regs.nbits.toNat < u.regs.width.toNat ∧ u.regs.sbRem = 0#8 ∧ u.cmd.src[u.regs.srcPos]? = some 0#8 ∧
        u.next? = some u.terminator) ∨
      (∃ b, u.regs.nbits.toNat < u.regs.width.toNat ∧ u.regs.sbRem = 0#8 ∧ u.cmd.src[u.regs.srcPos]? = some b ∧
        b ≠ 0#8 ∧ u.next? = some (u.lenByte b)) ∨
      (∃ b, u.regs.nbits.toNat < u.regs.width.toNat ∧ u.regs.sbRem ≠ 0#8 ∧ u.cmd.src[u.regs.srcPos]? = some b ∧
        u.next? = some (u.dataByte b)) ∨
      (u.regs.width.toNat ≤ u.regs.nbits.toNat ∧ u.regs.codeHeld < 2 ^ u.regs.width.toNat ∧ u.regs.codeHeld < 4096 ∧
        u.next? = u.consumeCode.act (classify u.consumeCode.regs.codeCtx u.regs.codeHeld)) := by
  have hns : ¬ u.started = false := by simp [hs]
  by_cases hn : u.regs.nbits.toNat < u.regs.width.toNat
  · by_cases hz : u.regs.sbRem = 0#8
    · have hf : u.fetch = u.fetchByteAt .length u.regs.srcPos := by
        simp only [DecUnit.fetch, if_neg hns, if_pos hn, if_pos hz, h.regs.not_terminated]; rfl
      cases hb : u.cmd.src[u.regs.srcPos]? with
      | none => exact .inl ⟨hn, rfl, by simp only [DecUnit.next?, hf, DecUnit.fetchByteAt, DecUnit.memRead, hb]⟩
      | some b =>
        by_cases hb0 : b = 0#8
        · subst hb0
          exact .inr (.inl ⟨hn, hz, rfl, by simp [DecUnit.next?, hf, DecUnit.fetchByteAt, DecUnit.memRead, hb]⟩)
        · exact .inr (.inr (.inl ⟨b, hn, hz, rfl, hb0, by
            simp [DecUnit.next?, hf, DecUnit.fetchByteAt, DecUnit.memRead, hb, hb0]⟩))
    · have hf : u.fetch = u.fetchByteAt .data u.regs.srcPos := by
        simp only [DecUnit.fetch, if_neg hns, if_pos hn, if_neg hz]
      cases hb : u.cmd.src[u.regs.srcPos]? with
      | none => exact .inl ⟨hn, rfl, by simp only [DecUnit.next?, hf, DecUnit.fetchByteAt, DecUnit.memRead, hb]⟩
      | some b =>
        exact .inr (.inr (.inr (.inl ⟨b, hn, hz, rfl, by
          simp only [DecUnit.next?, hf, DecUnit.fetchByteAt, DecUnit.memRead, hb]⟩)))
  · have hlt : u.regs.codeHeld < 2 ^ u.regs.width.toNat := Nat.mod_lt _ (Nat.two_pow_pos _)
    have hle : 2 ^ u.regs.width.toNat ≤ 2 ^ 12 := Nat.pow_le_pow_right (by decide) h.regs.width_le
    have hlt2 : u.regs.codeHeld < 4096 := by omega
    refine .inr (.inr (.inr (.inr ⟨by omega, hlt, hlt2, ?_⟩)))
    have hf : u.fetch = .raw (.code u.regs.codeCtx u.regs.codeHeld) := by
      simp only [DecUnit.fetch, if_neg hns, if_neg hn]
    have hc : u.regs.codeHeld < 2 ^ u.regs.codeCtx.width ∧ u.regs.codeHeld < Config.tableSize := ⟨hlt, hlt2⟩
    simp only [DecUnit.next?, hf, if_pos hc]
    rfl

/-- Every step of a running decoder has an outcome, which is running or ends the command. -/
theorem DecUnit.running_goes (u : DecUnit) (h : u.Running) (hr : u.phase = .run) (hs : u.started = true) :
    ∃ v, u.next? = some v ∧ v.Goes := by
  have hsrc : ∀ b, u.cmd.src[u.regs.srcPos]? = some b → u.regs.srcPos + 1 ≤ u.cmd.src.length := fun b hb =>
    (List.getElem?_eq_some_iff.mp hb).1
  rcases u.running_step h hs with ⟨-, -, he⟩ | ⟨-, -, -, he⟩ | ⟨b, hn, -, hb, -, he⟩ | ⟨b, hn, -, hb, he⟩ | ⟨hn, -,
    hx, he⟩
  · exact ⟨_, he, .inr (.inr rfl)⟩
  · exact ⟨_, he, DecUnit.finish_goes _⟩
  · refine ⟨_, he, .inl ⟨hr, hs, h.regs.congr rfl h.regs.nbits_le h.regs.acc_lt, ?_, h.out_range, h.no_warning,
    h.written⟩⟩
    have := hsrc b hb
    have := h.src_range
    exact ⟨by show u.cmd.p0 < u.regs.srcPos + 1; omega, by show u.regs.srcPos + 1 ≤ u.cmd.src.length; omega⟩
  · refine ⟨_, he, .inl ⟨hr, hs, (u.dataByte_legal b h.regs hn).1, ?_, h.out_range, h.no_warning, h.written⟩⟩
    have := hsrc b hb
    have := h.src_range
    exact ⟨by show u.cmd.p0 < u.regs.srcPos + 1; omega, by show u.regs.srcPos + 1 ≤ u.cmd.src.length; omega⟩
  · rw [he]
    exact u.consumeCode.act_goes _ (u.consumeCode_running h hn) hr hs hx

end Sys2Proof.Machine
end

