-- ==== Sys2Proof/Laws/EncInvariant.lean ====
section
/-! SUPPORT. Laws/EncInvariant.lean: every step of the encoder keeps its registers legal, and what it emits.

`EncUnit.Emitted u bits` says that the code stream of the command so far is `bits` and that `OUT` frames it; the lemmas
`*_running` and `*_emitted` say what each step does to both. -/

namespace Sys2Proof.Machine

/-! ### Legal registers -/

namespace EncRegs.Legal

variable {r : EncRegs}

theorem two_pow_le (h : r.Legal) : 4 ≤ 2 ^ r.m.toNat ∧ 2 ^ r.m.toNat ≤ 256 :=
  ⟨Nat.pow_le_pow_right (n := 2) (by decide) h.m_range.1, Nat.pow_le_pow_right (n := 2) (by decide) h.m_range.2⟩

theorem width_le (h : r.Legal) : r.width.toNat ≤ 12 := by
  have := (bitlen_le_iff (r.nextCode.toNat - 1) 12).mpr (by have := h.next_range.2; omega)
  have := h.width_eq
  have := h.m_range.2
  omega

theorem next_le (h : r.Legal) : r.nextCode.toNat ≤ 2 ^ r.width.toNat := by
  have h1 : bitlen (r.nextCode.toNat - 1) ≤ r.width.toNat := by rw [h.width_eq]; exact Nat.le_max_right _ _
  have := (bitlen_le_iff _ _).mp h1
  omega

theorem two_pow_succ_le (h : r.Legal) : 2 * 2 ^ r.m.toNat ≤ 2 ^ r.width.toNat := by
  rw [← Nat.pow_succ']
  exact Nat.pow_le_pow_right (by decide) (by rw [h.width_eq]; exact Nat.le_max_left _ _)

theorem cur_lt (h : r.Legal) : r.curCode.toNat < 2 ^ r.width.toNat := by
  have := h.two_pow_succ_le
  have := h.next_le
  have := h.clear_eq
  rcases h.cur_legal with hc | hc <;> omega

theorem clear_lt (h : r.Legal) : r.clearCode.toNat < 2 ^ r.width.toNat := by
  have := h.two_pow_succ_le
  have := h.two_pow_le
  have := h.clear_eq
  omega

theorem eoi_lt (h : r.Legal) : r.eoiCode.toNat < 2 ^ r.width.toNat := by
  have := h.two_pow_succ_le
  have := h.two_pow_le
  have := h.eoi_eq
  omega

/-- Legality does not look at what the packer writes, but for its own bounds. -/
theorem packed {u v : EncUnit} (h : u.regs.Legal) (f : EncUnit.PackerFrame u v) (hn : v.regs.nbits.toNat < 8)
    (ha : v.regs.acc.toNat < 2 ^ v.regs.nbits.toNat) (hs : v.regs.sbLen.toNat ≤ 254) : v.regs.Legal where
  m_range := by rw [f.m]; exact h.m_range
  clear_eq := by rw [f.m, f.clearCode]; exact h.clear_eq
  eoi_eq := by rw [f.m, f.eoiCode]; exact h.eoi_eq
  next_range := by rw [f.eoiCode, f.nextCode]; exact h.next_range
  width_eq := by rw [f.m, f.width, f.nextCode]; exact h.width_eq
  cur_legal := by rw [f.clearCode, f.eoiCode, f.nextCode, f.curCode]; exact h.cur_legal
  nbits_lt := hn
  acc_lt := ha
  sbLen_le := hs
  table_codes := by rw [f.table, f.eoiCode]; exact h.table_codes
  table_size := by rw [f.table, f.nextCode, f.eoiCode]; exact h.table_size
  table_keys := by rw [f.table]; exact h.table_keys
  table_links := by rw [f.table, f.clearCode, f.eoiCode]; exact h.table_links

/-- A code in the table. -/
theorem code_range (h : r.Legal) {e : EncEntry} (he : e ∈ r.table) :
    r.eoiCode.toNat < e.code.toNat ∧ e.code.toNat < r.nextCode.toNat := by
  have hm : e.code.toNat ∈ r.table.map fun e => e.code.toNat := List.mem_map_of_mem he
  rw [h.table_codes, List.mem_reverse, List.mem_range'_1, h.table_size] at hm
  have := h.next_range.1
  omega

end EncRegs.Legal

/-- What a key found in the table is. -/
theorem EncRegs.lookup_some {r : EncRegs} {pre : Code} {k : Index} {c : Code} (h : r.lookup pre k = some c) :
    { pre := pre, k := k, code := c } ∈ r.table := by
  simp only [EncRegs.lookup, Option.map_eq_some_iff] at h
  obtain ⟨e, he, rfl⟩ := h
  have hp := List.find?_some he
  simp only [Bool.and_eq_true, decide_eq_true_eq] at hp
  obtain ⟨rfl, rfl⟩ := hp
  exact List.mem_of_find?_eq_some he

theorem EncRegs.lookup_none {r : EncRegs} {pre : Code} {k : Index} (h : r.lookup pre k = none) :
    (pre, k) ∉ r.table.map fun e => (e.pre, e.k) := by
  simp only [EncRegs.lookup, Option.map_eq_none_iff, List.find?_eq_none, Bool.and_eq_true, decide_eq_true_eq] at h
  intro hm
  obtain ⟨e, he, heq⟩ := List.mem_map.mp hm
  exact h e he ⟨congrArg Prod.fst heq, congrArg Prod.snd heq⟩

/-! ### What has been emitted -/

/-- The code stream of the command so far is `bits`, and `OUT` holds `m` and its full sub-blocks (R37, R55). -/
def EncUnit.Emitted (u : EncUnit) (bits : List Bool) : Prop :=
  ∃ blocks : List (List Byte), (∀ d ∈ blocks, d.length = 255) ∧ u.out = u.cmd.m :: blocks.flatMap subBlock ∧
    u.outLen = u.out.length ∧ dataBits blocks.flatten ++ u.regs.heldBits = bits

namespace EncUnit

theorem Emitted.packs {u v : EncUnit} {bits new : List Bool} (h : u.Emitted bits) (f : PackerFrame u v)
    (p : Packs u v new) : v.Emitted (bits ++ new) := by
  obtain ⟨bs, hbs, ho, hl, hb⟩ := h
  obtain ⟨cs, hcs, hco, hcl, hcb, -⟩ := p
  refine ⟨bs ++ cs, ?_, ?_, ?_, ?_⟩
  · intro d hd
    rcases List.mem_append.mp hd with hd | hd
    · exact hbs d hd
    · exact hcs d hd
  · rw [hco, ho, f.cmd, List.flatMap_append, List.cons_append]
  · rw [hcl, hl, hco, List.length_append]
  · rw [List.flatten_append, dataBits_append, List.append_assoc, hcb, ← List.append_assoc, hb]

/-- `EmitCode` of a code that fits the width. -/
theorem emitCode_ok (u : EncUnit) (c : Code) (h : u.regs.Legal) (hc : c.toNat < 2 ^ u.regs.width.toNat) :
    (u.emitCode c).regs.Legal ∧ Packs u (u.emitCode c) (bitsOfNat u.regs.width.toNat c.toNat) := by
  obtain ⟨hp, hn, ha⟩ := emitCode_spec u c h.nbits_lt h.acc_lt h.width_le h.sbLen_le hc
  refine ⟨h.packed (emitCode_frame u c) ?_ ha hp.choose_spec.2.2.2.2, hp⟩
  rw [hn]; exact Nat.mod_lt _ (by decide)

/-- `Emitted` looks only at the packer's fields. -/
theorem Emitted.congr {u v : EncUnit} {bits : List Bool} (h : u.Emitted bits) (hc : v.cmd = u.cmd) (ho : v.out = u.out)
    (hl : v.outLen = u.outLen) (ha : v.regs.acc = u.regs.acc) (hn : v.regs.nbits = u.regs.nbits)
    (hb : v.regs.sbBuf = u.regs.sbBuf) (hs : v.regs.sbLen = u.regs.sbLen) : v.Emitted bits := by
  have hh : v.regs.heldBits = u.regs.heldBits := by
    simp only [EncRegs.heldBits, EncRegs.sbBytes, ha, hn, hb, hs]
  simp only [Emitted, hc, ho, hl, hh] at h ⊢
  exact h

/-- A unit whose registers are legal and whose output is the framing of some bits is `Running`. -/
theorem Running.of_emitted {u : EncUnit} {bits : List Bool} (hr : u.regs.Legal) (hm : u.cmd.m.toNat = u.regs.m.toNat)
    (hi : ∀ v ∈ u.cmd.S, v < 2 ^ u.cmd.m.toNat) (hp : 1 ≤ u.regs.inPos ∧ u.regs.inPos ≤ u.cmd.S.length)
    (he : u.Emitted bits) : u.Running := by
  obtain ⟨bs, hbs, ho, hl, -⟩ := he
  exact ⟨hr, hm, hi, hp, hl, bs, hbs, ho⟩

theorem Running.emitted {u : EncUnit} (h : u.Running) : ∃ bits, u.Emitted bits := by
  obtain ⟨bs, hbs, ho⟩ := h.framed
  exact ⟨_, bs, hbs, ho, h.out_len, rfl⟩

end EncUnit

/-! ### The start step (R68) -/

theorem EncodeRecord.wf_iff (r : EncodeRecord) :
    r.wf = true ↔ 2 ≤ r.m.toNat ∧ r.m.toNat ≤ 8 ∧ r.S ≠ [] ∧ ∀ v ∈ r.S, v < 2 ^ r.m.toNat := by
  simp [EncodeRecord.wf, and_assoc]

/-- A start step either faults before it writes anything, or the record is legal. -/
theorem EncUnit.start_cases (u : EncUnit) :
    (∃ c i, u.start = u.raise c i ∧ c ≠ .none ∧ u.cmd.wf = false) ∨
      ∃ first rest, u.cmd.S = first :: rest ∧ u.cmd.wf = true ∧ u.start = u.startValid first := by
  simp only [EncUnit.start]
  split
  · next h =>
    refine .inl ⟨_, _, rfl, by decide, ?_⟩
    rw [← Bool.not_eq_true, EncodeRecord.wf_iff]
    simp only [Config.mcsMin, Config.mcsMax] at h
    omega
  · next h =>
    split
    · next h0 =>
      refine .inl ⟨_, _, rfl, by decide, ?_⟩
      rw [← Bool.not_eq_true, EncodeRecord.wf_iff]
      rintro ⟨-, -, hne, -⟩
      exact hne (by simpa [EncUnit.inRead] using h0)
    · next first h0 =>
      split
      · next i hi =>
        refine .inl ⟨_, _, rfl, by decide, ?_⟩
        rw [← Bool.not_eq_true, EncodeRecord.wf_iff]
        rintro ⟨-, -, -, hall⟩
        obtain ⟨hlt, hge, -⟩ := List.findIdx?_eq_some_iff_getElem.mp hi
        have h1 := hall _ (List.getElem_mem hlt)
        have h2 := of_decide_eq_true hge
        omega
      · next hi =>
        right
        have hne : ∃ rest, u.cmd.S = first :: rest := by
          cases hS : u.cmd.S with
          | nil => simp [EncUnit.inRead, hS] at h0
          | cons x xs =>
            simp only [EncUnit.inRead, hS, List.getElem?_cons_zero, Option.some.injEq] at h0
            exact ⟨xs, by rw [h0]⟩
        obtain ⟨rest, hS⟩ := hne
        refine ⟨first, rest, hS, ?_, rfl⟩
        rw [EncodeRecord.wf_iff]
        rw [List.findIdx?_eq_none_iff] at hi
        simp only [Config.mcsMin, Config.mcsMax, not_or, Nat.not_lt] at h
        refine ⟨h.1, h.2, by rw [hS]; simp, fun v hv => ?_⟩
        have := hi v hv
        simpa using this

/-- The registers a legal start step gives, before the clear code is emitted. -/
theorem EncUnit.startRegs_legal (u : EncUnit) (h : u.cmd.wf = true) (c : Code) (hc : c.toNat < 2 ^ u.cmd.m.toNat) (i : Nat) :
    ({ u.startRegs.regs with curCode := c, inPos := i } : EncRegs).Legal ∧
      u.startRegs.regs.m.toNat = u.cmd.m.toNat ∧ u.startRegs.regs.width.toNat = u.cmd.m.toNat + 1 ∧
      u.startRegs.regs.clearCode.toNat = 2 ^ u.cmd.m.toNat := by
  obtain ⟨h1, h2, -, -⟩ := (EncodeRecord.wf_iff _).mp h
  have hm : u.cmd.m = BitVec.ofNat 8 u.cmd.m.toNat := by simp
  have hlo : 4 ≤ 2 ^ u.cmd.m.toNat := Nat.pow_le_pow_right (n := 2) (by decide) h1
  have hhi : 2 ^ u.cmd.m.toNat ≤ 256 := Nat.pow_le_pow_right (n := 2) (by decide) h2
  have e1 : (u.cmd.m.setWidth 4).toNat = u.cmd.m.toNat := by rw [BitVec.toNat_setWidth]; omega
  have e2 : (BitVec.ofNat 9 (2 ^ u.cmd.m.toNat)).toNat = 2 ^ u.cmd.m.toNat := by rw [BitVec.toNat_ofNat]; omega
  have e3 : (BitVec.ofNat 9 (2 ^ u.cmd.m.toNat + 1)).toNat = 2 ^ u.cmd.m.toNat + 1 := by rw [BitVec.toNat_ofNat]; omega
  have e4 : (BitVec.ofNat 13 (2 ^ u.cmd.m.toNat + 2)).toNat = 2 ^ u.cmd.m.toNat + 2 := by rw [BitVec.toNat_ofNat]; omega
  have e5 : (BitVec.ofNat 4 (u.cmd.m.toNat + 1)).toNat = u.cmd.m.toNat + 1 := by rw [BitVec.toNat_ofNat]; omega
  have hb : bitlen (2 ^ u.cmd.m.toNat + 1) = u.cmd.m.toNat + 1 :=
    bitlen_eq (by omega) (by rw [Nat.pow_succ]; omega)
  refine ⟨⟨?_, ?_, ?_, ?_, ?_, ?_, ?_, ?_, ?_, ?_, ?_, ?_, ?_⟩, e1, e5, e2⟩ <;>
    simp only [EncUnit.startRegs, e1, e2, e3, e4, e5]
  · exact ⟨h1, h2⟩
  · omega
  · have : 2 ^ u.cmd.m.toNat + 2 - 1 = 2 ^ u.cmd.m.toNat + 1 := rfl
    rw [this, hb, Nat.max_self]
  · exact .inl hc
  · decide
  · decide
  · decide
  · rfl
  · simp
  · simp
  · simp

/-- A legal start step: the clear code is emitted at width `m + 1`, and the unit is running at index 1. -/
theorem EncUnit.startValid_running (u : EncUnit) (first : Nat) (rest : List Nat) (h : u.cmd.wf = true)
    (hS : u.cmd.S = first :: rest) (ho : u.out = []) (hl : u.outLen = 0) :
    let v := u.startValid first
    v.regs.Legal ∧ v.Emitted (bitsOfNat (u.cmd.m.toNat + 1) (2 ^ u.cmd.m.toNat)) ∧ v.cmd = u.cmd ∧ v.phase = u.phase ∧
      v.started = true ∧ v.cause = u.cause ∧ v.info = u.info ∧ v.regs.inPos = 1 ∧ v.regs.curCode.toNat = first ∧
      v.regs.m.toNat = u.cmd.m.toNat ∧ v.regs.table = [] ∧
      v.regs.nextCode.toNat = v.regs.eoiCode.toNat + 1 := by
  obtain ⟨h1, h2, -, hall⟩ := (EncodeRecord.wf_iff _).mp h
  have hf : first < 2 ^ u.cmd.m.toNat := hall first (by rw [hS]; simp)
  have hlo : 4 ≤ 2 ^ u.cmd.m.toNat := Nat.pow_le_pow_right (n := 2) (by decide) h1
  have hhi : 2 ^ u.cmd.m.toNat ≤ 256 := Nat.pow_le_pow_right (n := 2) (by decide) h2
  have hfc : (BitVec.ofNat 12 first).toNat = first := by rw [BitVec.toNat_ofNat]; omega
  have e3 : (BitVec.ofNat 9 (2 ^ u.cmd.m.toNat + 1)).toNat = 2 ^ u.cmd.m.toNat + 1 := by rw [BitVec.toNat_ofNat]; omega
  have e4 : (BitVec.ofNat 13 (2 ^ u.cmd.m.toNat + 2)).toNat = 2 ^ u.cmd.m.toNat + 2 := by rw [BitVec.toNat_ofNat]; omega
  obtain ⟨hleg, hm, hw, hc⟩ := u.startRegs_legal h (BitVec.ofNat 12 first) (by rw [hfc]; exact hf) 1
  -- the unit in which the clear code is emitted, with the last two writes already made
  let a : EncUnit := u.startRegs.append u.cmd.m
  have hcl : (a.regs.clearCode.setWidth 12).toNat = 2 ^ u.cmd.m.toNat := by
    show (u.startRegs.regs.clearCode.setWidth 12).toNat = _
    rw [BitVec.toNat_setWidth, hc]; omega
  have hspec := emitCode_spec a (a.regs.clearCode.setWidth 12) (by show (0 : Nat) < 8; decide)
    (by show (0 : Nat) < 2 ^ 0; decide) (by show u.startRegs.regs.width.toNat ≤ 12; omega)
    (by show (0 : Nat) ≤ 254; decide)
    (by rw [hcl]; show _ < 2 ^ u.startRegs.regs.width.toNat; rw [hw]; exact Nat.pow_lt_pow_right (by decide) (by omega))
  have fr := emitCode_frame a (a.regs.clearCode.setWidth 12)
  obtain ⟨hp, hn, ha⟩ := hspec
  have hem : a.Emitted [] := by
    refine ⟨[], by simp, ?_, ?_, ?_⟩
    · show u.out ++ [u.cmd.m] = _; rw [ho]; rfl
    · show u.outLen + 1 = (u.out ++ [u.cmd.m]).length; rw [ho, hl]; rfl
    · rfl
  have hem2 := hem.packs fr hp
  rw [hcl, List.nil_append] at hem2
  have hwa : a.regs.width.toNat = u.cmd.m.toNat + 1 := hw
  rw [hwa] at hem2
  have hleg2 : ({ (a.emitCode (a.regs.clearCode.setWidth 12)).regs with
      curCode := BitVec.ofNat 12 first, inPos := 1 } : EncRegs).Legal := by
    have g : EncUnit.PackerFrame
        { a with regs := { a.regs with curCode := BitVec.ofNat 12 first, inPos := 1 } }
        { a.emitCode (a.regs.clearCode.setWidth 12) with
          regs := { (a.emitCode (a.regs.clearCode.setWidth 12)).regs with
                    curCode := BitVec.ofNat 12 first, inPos := 1 } } :=
      ⟨fr.phase, fr.started, fr.cmd, fr.cause, fr.info, fr.m, fr.clearCode, fr.eoiCode, fr.nextCode, fr.width, rfl, rfl,
        fr.table, fr.appended, fr.wf⟩
    exact EncRegs.Legal.packed (u := { a with regs := { a.regs with curCode := BitVec.ofNat 12 first, inPos := 1 } })
      hleg g (by show (a.emitCode (a.regs.clearCode.setWidth 12)).regs.nbits.toNat < 8; rw [hn]; exact Nat.mod_lt _ (by decide)) ha
      hp.choose_spec.2.2.2.2
  refine ⟨hleg2, hem2.congr rfl rfl rfl rfl rfl rfl rfl, fr.cmd, fr.phase, fr.started, fr.cause, fr.info, rfl, hfc, ?_, ?_, ?_⟩
  · show (a.emitCode _).regs.m.toNat = _
    rw [fr.m]; exact hm
  · show (a.emitCode _).regs.table = _
    rw [fr.table]; rfl
  · show (a.emitCode _).regs.nextCode.toNat = (a.emitCode _).regs.eoiCode.toNat + 1
    rw [fr.nextCode, fr.eoiCode]
    show (BitVec.ofNat 13 (2 ^ u.cmd.m.toNat + 2)).toNat = (BitVec.ofNat 9 (2 ^ u.cmd.m.toNat + 1)).toNat + 1
    rw [e3, e4]

/-! ### One index (R69 to R72) -/

/-- A hit keeps the registers legal and emits nothing. -/
theorem EncUnit.hit_legal (u : EncUnit) (k : Index) (c : Code) (h : u.regs.Legal)
    (hl : u.regs.lookup u.regs.curCode k = some c) :
    EncUnit.hit k u = { u with regs := { u.regs with curCode := c, inPos := u.regs.inPos + 1 } } ∧
      (EncUnit.hit k u).regs.Legal := by
  have e : EncUnit.hit k u = { u with regs := { u.regs with curCode := c, inPos := u.regs.inPos + 1 } } := by
    simp only [EncUnit.hit, hl, Option.getD_some]
    rfl
  refine ⟨e, ?_⟩
  rw [e]
  exact ⟨h.m_range, h.clear_eq, h.eoi_eq, h.next_range, h.width_eq, .inr (h.code_range (EncRegs.lookup_some hl)),
    h.nbits_lt, h.acc_lt, h.sbLen_le, h.table_codes, h.table_size, h.table_keys, h.table_links⟩

/-- The registers after a miss, beside the packer's. -/
theorem EncUnit.miss_eq (u : EncUnit) (k : Index) :
    let e := u.emitCode u.regs.curCode
    EncUnit.miss k u =
      { e with
        regs :=
          { e.regs with
            width :=
              if 2 ^ u.regs.width.toNat ≤ u.regs.nextCode.toNat then BitVec.ofNat 4 (u.regs.width.toNat + 1)
              else u.regs.width
            table := { pre := u.regs.curCode, k := k, code := BitVec.ofNat 12 u.regs.nextCode.toNat } :: u.regs.table
            nextCode := BitVec.ofNat 13 (u.regs.nextCode.toNat + 1)
            curCode := k.setWidth 12
            inPos := u.regs.inPos + 1 } } := by
  have f := emitCode_frame u u.regs.curCode
  have hc : u.regs.nextCode.setWidth 12 = BitVec.ofNat 12 u.regs.nextCode.toNat := by
    apply BitVec.eq_of_toNat_eq; simp
  intro e
  have h1 : e.regs.width = u.regs.width := f.width
  have h2 : e.regs.nextCode = u.regs.nextCode := f.nextCode
  have h3 : e.regs.table = u.regs.table := f.table
  have h4 : e.regs.curCode = u.regs.curCode := f.curCode
  have h5 : e.regs.inPos = u.regs.inPos := f.inPos
  show (((e.growWidth).insertKey k).setCur (k.setWidth 12)).advance = _
  simp only [EncUnit.growWidth, h1, h2]
  split
  · simp only [EncUnit.insertKey, EncUnit.setCur, EncUnit.advance, h3, h4, h5, hc]
  · simp only [EncUnit.insertKey, EncUnit.setCur, EncUnit.advance, h1, h2, h3, h4, h5, hc]

theorem EncUnit.miss_legal (u : EncUnit) (k : Index) (h : u.regs.Legal) (hk : k.toNat < u.regs.clearCode.toNat)
    (hl : u.regs.lookup u.regs.curCode k = none) (hn : u.regs.nextCode.toNat < 4096) :
    (EncUnit.miss k u).regs.Legal := by
  obtain ⟨he, -⟩ := emitCode_ok u u.regs.curCode h h.cur_lt
  have f := emitCode_frame u u.regs.curCode
  rw [EncUnit.miss_eq]
  have hnr := h.next_range
  have hn1 : (BitVec.ofNat 13 (u.regs.nextCode.toNat + 1)).toNat = u.regs.nextCode.toNat + 1 := by
    rw [BitVec.toNat_ofNat]; omega
  have hn2 : (BitVec.ofNat 12 u.regs.nextCode.toNat).toNat = u.regs.nextCode.toNat := by
    rw [BitVec.toNat_ofNat]; omega
  have hw := h.width_le
  have hle := h.next_le
  refine ⟨he.m_range, he.clear_eq, he.eoi_eq, ?_, ?_, ?_, he.nbits_lt, he.acc_lt, he.sbLen_le, ?_, ?_, ?_, ?_⟩
  · simp only [hn1, f.eoiCode]; omega
  · simp only [hn1, f.m]
    have hwe := h.width_eq
    have hsucc := bitlen_succ (u.regs.nextCode.toNat - 1)
    have h1 : u.regs.nextCode.toNat - 1 + 1 = u.regs.nextCode.toNat := by omega
    rw [h1] at hsucc
    have h2 : u.regs.nextCode.toNat + 1 - 1 = u.regs.nextCode.toNat := rfl
    rw [h2, hsucc]
    have hge := (bitlen_le_iff (u.regs.nextCode.toNat - 1) (u.regs.width.toNat)).mp (by omega)
    have hm2 := h.two_pow_succ_le
    have h2p := h.two_pow_le
    have hee := h.eoi_eq
    have hbm : u.regs.m.toNat + 1 ≤ bitlen (u.regs.nextCode.toNat - 1) :=
      (lt_bitlen_iff (u.regs.nextCode.toNat - 1) u.regs.m.toNat).mpr (by omega)
    have hweq : u.regs.width.toNat = bitlen (u.regs.nextCode.toNat - 1) := by omega
    rw [← hweq]
    split
    · next hg =>
      have hlt : u.regs.width.toNat < 12 := by
        rw [← Nat.not_le]; intro hx
        have := Nat.pow_le_pow_right (n := 2) (by decide) hx
        omega
      rw [if_pos (by omega), BitVec.toNat_ofNat]
      omega
    · next hg => rw [if_neg (by omega)]; omega
  · refine .inl ?_
    simp only [f.clearCode, BitVec.toNat_setWidth]
    have := k.isLt
    omega
  · simp only [List.map_cons, List.length_cons, hn2, f.eoiCode, h.table_codes, List.range'_1_concat, List.reverse_append,
      List.reverse_cons, List.reverse_nil, List.nil_append, List.singleton_append, h.table_size]
    congr 1
    omega
  · simp only [List.length_cons, h.table_size, hn1, f.eoiCode]; omega
  · simp only [List.map_cons, List.nodup_cons]
    exact ⟨EncRegs.lookup_none hl, h.table_keys⟩
  · intro e hm
    simp only [f.clearCode, f.eoiCode]
    rcases List.mem_cons.mp hm with rfl | hm
    · simp only [hn2]; exact h.cur_legal
    · exact h.table_links e hm

/-- The registers after a full step, beside the packer's. -/
theorem EncUnit.full_eq (u : EncUnit) (k : Index) :
    let e := (u.emitCode u.regs.curCode).emitCode (u.regs.clearCode.setWidth 12)
    EncUnit.full k u =
      { e with
        regs :=
          { e.regs with
            nextCode := BitVec.ofNat 13 (u.regs.eoiCode.toNat + 1)
            width := BitVec.ofNat 4 (u.regs.m.toNat + 1)
            table := []
            curCode := k.setWidth 12
            inPos := u.regs.inPos + 1 } } := by
  have f := (emitCode_frame u u.regs.curCode).trans (emitCode_frame _ (u.regs.clearCode.setWidth 12))
  intro e
  have h1 : e.regs.eoiCode = u.regs.eoiCode := f.eoiCode
  have h2 : e.regs.m = u.regs.m := f.m
  have h5 : e.regs.inPos = u.regs.inPos := f.inPos
  simp only [EncUnit.full, EncUnit.resetTable, EncUnit.setCur, EncUnit.advance]
  show ({ e with regs := _ } : EncUnit) = _
  rw [← h1, ← h2, ← h5]

/-- Two codes emitted at one width. -/
theorem EncUnit.emitCode_twice (u : EncUnit) (c d : Code) (h : u.regs.Legal) (hc : c.toNat < 2 ^ u.regs.width.toNat)
    (hd : d.toNat < 2 ^ u.regs.width.toNat) :
    ((u.emitCode c).emitCode d).regs.Legal ∧ PackerFrame u ((u.emitCode c).emitCode d) ∧
      Packs u ((u.emitCode c).emitCode d)
        (bitsOfNat u.regs.width.toNat c.toNat ++ bitsOfNat u.regs.width.toNat d.toNat) := by
  obtain ⟨he, hp⟩ := emitCode_ok u c h hc
  have f := emitCode_frame u c
  obtain ⟨he2, hp2⟩ := emitCode_ok (u.emitCode c) d he (by rw [f.width]; exact hd)
  rw [f.width] at hp2
  exact ⟨he2, f.trans (emitCode_frame _ d), hp.trans hp2⟩

theorem EncRegs.clear_toNat (r : EncRegs) : (r.clearCode.setWidth 12).toNat = r.clearCode.toNat := by
  have := r.clearCode.isLt
  rw [BitVec.toNat_setWidth]; omega

theorem EncRegs.eoi_toNat (r : EncRegs) : (r.eoiCode.setWidth 12).toNat = r.eoiCode.toNat := by
  have := r.eoiCode.isLt
  rw [BitVec.toNat_setWidth]; omega

theorem EncUnit.full_legal (u : EncUnit) (k : Index) (h : u.regs.Legal) (hk : k.toNat < u.regs.clearCode.toNat) :
    (EncUnit.full k u).regs.Legal := by
  obtain ⟨he, f, -⟩ := u.emitCode_twice u.regs.curCode (u.regs.clearCode.setWidth 12) h h.cur_lt
    (by rw [u.regs.clear_toNat]; exact h.clear_lt)
  rw [EncUnit.full_eq]
  have h2 := h.two_pow_le
  have hm := h.m_range
  have hee := h.eoi_eq
  have hn1 : (BitVec.ofNat 13 (u.regs.eoiCode.toNat + 1)).toNat = u.regs.eoiCode.toNat + 1 := by
    rw [BitVec.toNat_ofNat]; omega
  have hw1 : (BitVec.ofNat 4 (u.regs.m.toNat + 1)).toNat = u.regs.m.toNat + 1 := by
    rw [BitVec.toNat_ofNat]; omega
  refine ⟨he.m_range, he.clear_eq, he.eoi_eq, ?_, ?_, ?_, he.nbits_lt, he.acc_lt, he.sbLen_le, ?_, ?_, ?_, ?_⟩
  · simp only [hn1, f.eoiCode]; omega
  · simp only [hn1, hw1, f.m]
    rw [hee, show 2 ^ u.regs.m.toNat + 1 + 1 - 1 = 2 ^ u.regs.m.toNat + 1 from rfl,
      bitlen_eq (v := 2 ^ u.regs.m.toNat + 1) (w := u.regs.m.toNat) (by omega) (by rw [Nat.pow_succ]; omega),
      Nat.max_self]
  · refine .inl ?_
    simp only [f.clearCode, BitVec.toNat_setWidth]
    have := k.isLt
    omega
  · simp
  · simp only [hn1, f.eoiCode, List.length_nil]; omega
  · simp
  · simp

/-! ### Any index step -/

/-- One step of a running encoder that has an index left: which step it is, and the codes it emits, all at the width
before the step. -/
theorem EncUnit.index_step (u : EncUnit) (h : u.Running) (hs : u.started = true) (hlt : u.regs.inPos < u.cmd.S.length) :
    ∃ k : Index, u.cmd.S[u.regs.inPos]? = some k.toNat ∧ k.toNat < u.regs.clearCode.toNat ∧ u.view.k = k ∧
      u.view.atEnd = false ∧
      ((∃ c, u.regs.lookup u.regs.curCode k = some c ∧ u.next = EncUnit.hit k u) ∨
        (u.regs.lookup u.regs.curCode k = none ∧ u.regs.nextCode.toNat < 4096 ∧ u.next = EncUnit.miss k u) ∨
        (u.regs.lookup u.regs.curCode k = none ∧ u.regs.nextCode.toNat = 4096 ∧ u.next = EncUnit.full k u)) := by
  obtain ⟨x, hx⟩ : ∃ x, u.cmd.S[u.regs.inPos]? = some x := ⟨_, List.getElem?_eq_getElem hlt⟩
  have hxm : x < 2 ^ u.cmd.m.toNat := h.input x (List.mem_of_getElem? hx)
  have hc := h.regs.clear_eq
  have hcm := h.cmd_m
  have hp := h.regs.two_pow_le
  have hk : (BitVec.ofNat 8 x).toNat = x := by
    rw [hcm] at hxm
    rw [BitVec.toNat_ofNat]; omega
  have hvk : u.view.k = BitVec.ofNat 8 x := by simp [EncUnit.view, EncUnit.inRead, hx]
  have hend : u.view.atEnd = false := by simp [EncUnit.view, hlt]
  have hhit : u.view.hit = (u.regs.lookup u.regs.curCode (BitVec.ofNat 8 x)).isSome := by
    simp [EncUnit.view, EncUnit.inRead, hx]
  have hfull : u.view.full = decide (u.regs.nextCode.toNat = 4096) := rfl
  refine ⟨BitVec.ofNat 8 x, by rw [hk]; exact hx, by rw [hk, hc, ← hcm]; exact hxm, hvk, hend, ?_⟩
  have hnext : u.next = if u.view.hit then EncUnit.hit u.view.k u
      else if u.view.full then EncUnit.full u.view.k u else EncUnit.miss u.view.k u := by
    simp [EncUnit.next, hs, hend]
  rw [hnext, hvk, hhit, hfull]
  cases hlk : u.regs.lookup u.regs.curCode (BitVec.ofNat 8 x) with
  | some c => exact .inl ⟨c, rfl, by simp⟩
  | none =>
    have := h.regs.next_range.2
    by_cases hf : u.regs.nextCode.toNat = 4096
    · exact .inr (.inr ⟨rfl, hf, by simp [hf]⟩)
    · exact .inr (.inl ⟨rfl, by omega, by simp [hf]⟩)

/-- The codes an index step emits. -/
def EncUnit.emits (u : EncUnit) (k : Index) : List Nat :=
  match u.regs.lookup u.regs.curCode k with
  | some _ => []
  | none =>
    if u.regs.nextCode.toNat < 4096 then [u.regs.curCode.toNat]
    else [u.regs.curCode.toNat, u.regs.clearCode.toNat]

/-- The bits of codes of one width. -/
def codeBits (w : Nat) (cs : List Nat) : List Bool := cs.flatMap (bitsOfNat w)

/-- One index step keeps the unit running and appends the bits of what it emits. -/
theorem EncUnit.index_step_running (u : EncUnit) (bits : List Bool) (h : u.Running) (hs : u.started = true)
    (hlt : u.regs.inPos < u.cmd.S.length) (hb : u.Emitted bits) :
    ∃ k : Index, u.cmd.S[u.regs.inPos]? = some k.toNat ∧ u.next.Running ∧
      u.next.Emitted (bits ++ codeBits u.regs.width.toNat (u.emits k)) ∧ u.next.phase = u.phase ∧
      u.next.started = true ∧ u.next.cmd = u.cmd ∧ u.next.cause = u.cause ∧ u.next.info = u.info ∧
      u.next.regs.inPos = u.regs.inPos + 1 := by
  obtain ⟨k, hk, hkc, -, -, hcase⟩ := u.index_step h hs hlt
  have hp := h.pos_range
  refine ⟨k, hk, ?_⟩
  rcases hcase with ⟨c, hl, hn⟩ | ⟨hl, hlt2, hn⟩ | ⟨hl, heq, hn⟩
  · obtain ⟨e, hleg⟩ := u.hit_legal k c h.regs hl
    have hem : (EncUnit.hit k u).Emitted bits := by rw [e]; exact hb.congr rfl rfl rfl rfl rfl rfl rfl
    have hno : u.emits k = [] := by simp [EncUnit.emits, hl]
    rw [hn, hno]
    refine ⟨.of_emitted hleg ?_ ?_ ?_ hem, by simpa [codeBits] using hem, ?_, ?_, ?_, ?_, ?_, ?_⟩ <;> rw [e]
    · exact h.cmd_m
    · exact h.input
    · simp only; omega
    · exact hs
  · have hleg := u.miss_legal k h.regs hkc hl hlt2
    have f := emitCode_frame u u.regs.curCode
    have hem : (EncUnit.miss k u).Emitted (bits ++ bitsOfNat u.regs.width.toNat u.regs.curCode.toNat) := by
      rw [EncUnit.miss_eq]
      exact (hb.packs f (emitCode_ok u u.regs.curCode h.regs h.regs.cur_lt).2).congr rfl rfl rfl rfl rfl rfl rfl
    have hno : u.emits k = [u.regs.curCode.toNat] := by simp [EncUnit.emits, hl, hlt2]
    have e := u.miss_eq k
    rw [hn, hno]
    refine ⟨.of_emitted hleg ?_ ?_ ?_ hem, by simpa [codeBits] using hem, ?_, ?_, ?_, ?_, ?_, ?_⟩ <;> rw [e]
    · simp only [f.cmd, f.m]; exact h.cmd_m
    · simp only [f.cmd]; exact h.input
    · simp only [f.cmd]; omega
    · exact f.phase
    · exact f.started.trans hs
    · exact f.cmd
    · exact f.cause
    · exact f.info
  · have hleg := u.full_legal k h.regs hkc
    obtain ⟨-, f, hpk⟩ := u.emitCode_twice u.regs.curCode (u.regs.clearCode.setWidth 12) h.regs h.regs.cur_lt
      (by rw [u.regs.clear_toNat]; exact h.regs.clear_lt)
    have hno : u.emits k = [u.regs.curCode.toNat, u.regs.clearCode.toNat] := by simp [EncUnit.emits, hl, heq]
    have hem : (EncUnit.full k u).Emitted (bits ++ codeBits u.regs.width.toNat (u.emits k)) := by
      rw [EncUnit.full_eq, hno]
      have := hb.packs f hpk
      rw [u.regs.clear_toNat] at this
      have h2 : codeBits u.regs.width.toNat [u.regs.curCode.toNat, u.regs.clearCode.toNat] =
          bitsOfNat u.regs.width.toNat u.regs.curCode.toNat ++ bitsOfNat u.regs.width.toNat u.regs.clearCode.toNat := by
        simp [codeBits]
      rw [h2]
      exact this.congr rfl rfl rfl rfl rfl rfl rfl
    have e := u.full_eq k
    rw [hn]
    refine ⟨.of_emitted hleg ?_ ?_ ?_ hem, hem, ?_, ?_, ?_, ?_, ?_, ?_⟩ <;> rw [e]
    · simp only [f.cmd, f.m]; exact h.cmd_m
    · simp only [f.cmd]; exact h.input
    · simp only [f.cmd]; omega
    · exact f.phase
    · exact f.started.trans hs
    · exact f.cmd
    · exact f.cause
    · exact f.info

end Sys2Proof.Machine
end

