-- ==== Sys2Proof/Laws/Framing.lean ====
section
/-! SUPPORT. Laws/Framing.lean: sub-blocks and the compressed data (R47, R48, R55), and the end of an ENCODE (R73). -/

namespace Sys2Proof

theorem frameBlocks_nil (fuel : Nat) : frameBlocks fuel [] = [] := by cases fuel <;> rfl

/-- The framing of data does not depend on the fuel, once there is enough of it. -/
theorem frameBlocks_fuel (fuel : Nat) (d : List Byte) (h : d.length ≤ fuel) :
    frameBlocks fuel d = frameBlocks d.length d := by
  induction fuel using Nat.strong_induction_on generalizing d with
  | _ fuel ih =>
    cases d with
    | nil => rw [frameBlocks_nil]; rfl
    | cons b bs =>
      obtain ⟨f, rfl⟩ : ∃ f, fuel = f + 1 := ⟨fuel - 1, by simp at h; omega⟩
      have hd : ((b :: bs).drop Config.subBlockMax).length ≤ bs.length := by
        simp [Config.subBlockMax]
      have hl : bs.length ≤ f := by simpa using h
      have h1 := ih f (by omega) ((b :: bs).drop Config.subBlockMax) (by omega)
      have h2 := ih bs.length (by omega) ((b :: bs).drop Config.subBlockMax) hd
      simp only [frameBlocks, List.length_cons, List.isEmpty_cons, Bool.false_eq_true, if_false, h1, h2]

/-- Full sub-blocks, then an open one of fewer than 255 bytes. -/
theorem frameBlocks_blocks (blocks : List (List Byte)) (last : List Byte) (hb : ∀ d ∈ blocks, d.length = 255)
    (hl : last.length < 255) :
    frameBlocks (blocks.flatten ++ last).length (blocks.flatten ++ last) =
      blocks.flatMap subBlock ++ (if last.isEmpty then [] else subBlock last) := by
  induction blocks with
  | nil =>
    cases last with
    | nil => rfl
    | cons b bs =>
      have ht : (b :: bs).take 255 = b :: bs := List.take_of_length_le (by omega)
      have hd : (b :: bs).drop 255 = [] := List.drop_eq_nil_of_le (by omega)
      simp [frameBlocks, Config.subBlockMax, ht, hd, frameBlocks_nil]
  | cons d blocks ih =>
    have hd : d.length = 255 := hb d (by simp)
    have ih := ih (fun x hx => hb x (by simp [hx]))
    have hne : d ++ (blocks.flatten ++ last) ≠ [] := by
      intro h0; have := congrArg List.length h0; simp [hd] at this
    have ht : (d ++ (blocks.flatten ++ last)).take 255 = d := by rw [← hd, List.take_left]
    have hdr : (d ++ (blocks.flatten ++ last)).drop 255 = blocks.flatten ++ last := by rw [← hd, List.drop_left]
    rw [List.flatten_cons, List.append_assoc]
    obtain ⟨n, hn⟩ : ∃ n, (d ++ (blocks.flatten ++ last)).length = n + 1 := ⟨254 + (blocks.flatten ++ last).length, by
      rw [List.length_append, hd]; omega⟩
    have hle : (blocks.flatten ++ last).length ≤ n := by rw [List.length_append, hd] at hn; omega
    rw [hn]
    simp only [frameBlocks, Config.subBlockMax, ht, hdr, List.isEmpty_eq_false_iff.mpr hne, Bool.false_eq_true,
      if_false,
      List.flatMap_cons, List.append_assoc]
    rw [frameBlocks_fuel n _ hle, ih]

/-- The length of framed data (R55). -/
theorem frameBlocks_length (fuel : Nat) (d : List Byte) (h : d.length ≤ fuel) :
    (frameBlocks fuel d).length = d.length + (d.length + 254) / 255 := by
  induction fuel using Nat.strong_induction_on generalizing d with
  | _ fuel ih =>
    cases d with
    | nil => rw [frameBlocks_nil]; rfl
    | cons b bs =>
      obtain ⟨f, rfl⟩ : ∃ f, fuel = f + 1 := ⟨fuel - 1, by simp at h; omega⟩
      have hl : bs.length ≤ f := by simpa using h
      have hd : ((b :: bs).drop 255).length = bs.length + 1 - 255 := by simp
      have h1 := ih f (by omega) ((b :: bs).drop 255) (by omega)
      simp only [frameBlocks, Config.subBlockMax, List.isEmpty_cons, Bool.false_eq_true, if_false, List.length_append,
        subBlock, List.length_cons, h1, hd, List.length_take]
      omega

/-- Unframing any sub-blocks of 1 to 255 bytes, then the terminator (R48, R57). -/
theorem unframeBlocks_blocks (blocks : List (List Byte)) (rest : List Byte)
    (hb : ∀ d ∈ blocks, 1 ≤ d.length ∧ d.length ≤ 255) (fuel : Nat) (hf : blocks.length < fuel) :
    unframeBlocks fuel (blocks.flatMap subBlock ++ 0#8 :: rest) = .ok (blocks.flatten, rest) := by
  induction blocks generalizing fuel with
  | nil =>
    obtain ⟨n, rfl⟩ : ∃ n, fuel = n + 1 := ⟨fuel - 1, by omega⟩
    rfl
  | cons d bs ih =>
    obtain ⟨n, rfl⟩ : ∃ n, fuel = n + 1 := ⟨fuel - 1, by omega⟩
    obtain ⟨h1, h2⟩ := hb d (List.mem_cons_self ..)
    have hl : (BitVec.ofNat 8 d.length).toNat = d.length := by rw [BitVec.toNat_ofNat]; omega
    have hne : BitVec.ofNat 8 d.length ≠ 0#8 := by
      intro h
      have := congrArg BitVec.toNat h
      rw [hl] at this
      simp only [BitVec.toNat_ofNat] at this
      omega
    have hi := ih (fun e he => hb e (List.mem_cons_of_mem _ he)) n (by simp at hf; omega)
    simp only [List.flatMap_cons, subBlock, List.cons_append, List.append_assoc, unframeBlocks, if_neg hne, hl]
    rw [if_neg (by simp), List.drop_left, List.take_left, hi]
    rfl

/-- The encoder's sub-blocks are sub-blocks of 1 to 255 bytes each (R55, R57). -/
theorem frameBlocks_split (fuel : Nat) (d : List Byte) (h : d.length ≤ fuel) : ∃ blocks : List (List Byte),
    frameBlocks fuel d = blocks.flatMap subBlock ∧ blocks.flatten = d ∧ ∀ e ∈ blocks, 1 ≤ e.length ∧ e.length ≤ 255 := by
  induction fuel generalizing d with
  | zero => exact ⟨[], rfl, by simp at h; simp [h], by simp⟩
  | succ fuel ih =>
    cases d with
    | nil => exact ⟨[], rfl, rfl, by simp⟩
    | cons b bs =>
      obtain ⟨bl, e1, e2, e3⟩ := ih ((b :: bs).drop 255) (by simp at h ⊢; omega)
      refine ⟨(b :: bs).take 255 :: bl, by rw [List.flatMap_cons, ← e1]; rfl, by simp [e2], ?_⟩
      intro e he
      rcases List.mem_cons.mp he with rfl | he
      · simp
      · exact e3 e he

namespace Machine

/-- The last byte, when bits are left, holds them and zero pad bits (R56). -/
theorem padBits (a n : Nat) (ha : a < 2 ^ n) (hn : n < 8) : bitsOfNat 8 a =
    bitsOfNat n a ++ List.replicate (8 - n) false := by
  have h := bitsOfNat_add n (8 - n) a 0 ha
  have hz : ∀ w, bitsOfNat w 0 = List.replicate w false := by
    intro w; induction w with
    | zero => rfl
    | succ w ih => rw [bitsOfNat, Nat.zero_div, ih]; rfl
  rw [Nat.add_sub_cancel' (by omega), Nat.mul_zero, Nat.add_zero, hz] at h
  exact h

/-- The padding byte, if bits are left, and then an empty accumulator. -/
theorem EncUnit.padByte_eq (e : EncUnit) : ∃ a : BitVec 20,
    (e.padByte =
      let p := if 0 < e.regs.nbits.toNat then e.putByte (e.regs.acc.setWidth 8) else e
      { p with regs := { p.regs with acc := a, nbits := 0 } }) ∧
    (e.regs.acc.toNat < 2 ^ e.regs.nbits.toNat → a = 0#20) := by
  by_cases hn : 0 < e.regs.nbits.toNat
  · refine ⟨0#20, ?_, fun _ => rfl⟩
    simp only [EncUnit.padByte, if_pos hn]; rfl
  · refine ⟨e.regs.acc, ?_, ?_⟩
    · have h0 : e.regs.nbits = 0#5 := BitVec.eq_of_toNat_eq (by simpa using hn)
      simp only [EncUnit.padByte, if_neg hn]
      show e = { e with regs := { e.regs with acc := e.regs.acc, nbits := 0#5 } }
      rw [← h0]
    · intro h
      have h0 : e.regs.nbits.toNat = 0 := by omega
      rw [h0] at h
      exact BitVec.eq_of_toNat_eq (by simpa using h)

/-- The finish step (R73): `OUT` is the framing of the bits emitted before, the two last codes and zero pad bits. -/
theorem EncUnit.finish_emitted (u : EncUnit) (bits : List Bool) (h : u.Running) (hb : u.Emitted bits) :
    ∃ d : List Byte, ∃ pad, pad < 8 ∧
      dataBits d = bits ++ codeBits u.regs.width.toNat [u.regs.curCode.toNat, u.regs.eoiCode.toNat] ++
        List.replicate pad false ∧
      u.finish.out = frame u.cmd.m d ∧ u.finish.outLen = u.finish.out.length ∧ u.finish.phase = .done ∧
      u.finish.cause = u.cause ∧ u.finish.info = u.info ∧ u.finish.regs.inPos = u.regs.inPos ∧
      u.finish.cmd = u.cmd := by
  obtain ⟨hleg, f, hp⟩ := u.emitCode_twice u.regs.curCode (u.regs.eoiCode.setWidth 12) h.regs h.regs.cur_lt
    (by rw [u.regs.eoi_toNat]; exact h.regs.eoi_lt)
  have hem := hb.packs f hp
  rw [u.regs.eoi_toNat] at hem
  have hcb : bitsOfNat u.regs.width.toNat u.regs.curCode.toNat ++ bitsOfNat u.regs.width.toNat u.regs.eoiCode.toNat =
      codeBits u.regs.width.toNat [u.regs.curCode.toNat, u.regs.eoiCode.toNat] := by simp [codeBits]
  rw [hcb] at hem
  generalize hv : (u.emitCode u.regs.curCode).emitCode (u.regs.eoiCode.setWidth 12) = v at *
  -- after the padding byte
  have hpad : ∃ pad, pad < 8 ∧ PackerFrame v v.padByte ∧ v.padByte.regs.nbits = 0#5 ∧ v.padByte.regs.sbLen.toNat ≤ 254 ∧
      v.padByte.Emitted (bits ++ codeBits u.regs.width.toNat [u.regs.curCode.toNat, u.regs.eoiCode.toNat] ++
        List.replicate pad false) := by
    by_cases hn : 0 < v.regs.nbits.toNat
    · refine ⟨8 - v.regs.nbits.toNat, by omega, ?_⟩
      have e : v.padByte = { v.putByte (v.regs.acc.setWidth 8) with
          regs := { (v.putByte (v.regs.acc.setWidth 8)).regs with acc := 0, nbits := 0 } } := by
        simp only [EncUnit.padByte, if_pos hn]
      have hacc : (v.regs.acc.setWidth 8).toNat = v.regs.acc.toNat := by
        have h1 := hleg.acc_lt
        have h2 : 2 ^ v.regs.nbits.toNat ≤ 2 ^ 8 := Nat.pow_le_pow_right (by decide) (by have := hleg.nbits_lt; omega)
        rw [BitVec.toNat_setWidth]; omega
      have hbits : bitsOfNat 8 (v.regs.acc.setWidth 8).toNat =
          bitsOfNat v.regs.nbits.toNat v.regs.acc.toNat ++ List.replicate (8 - v.regs.nbits.toNat) false := by
        rw [hacc]; exact padBits _ _ hleg.acc_lt hleg.nbits_lt
      have fr : PackerFrame v v.padByte := by rw [e]; exact (putByte_frame v _).trans (setBits_frame _ _ _)
      have hpk : Packs v v.padByte (List.replicate (8 - v.regs.nbits.toNat) false) := by
        rw [e]
        by_cases hc : v.regs.sbLen.toNat = 254
        · simp only [putByte_closes v _ hc]
          have hl : (v.regs.sbBytes ++ [v.regs.acc.setWidth 8]).length = 255 := by simp [sbBytes_length, hc]
          refine ⟨[v.regs.sbBytes ++ [v.regs.acc.setWidth 8]], by simpa using hl, ?_, ?_, ?_,
            by show (0 : Nat) ≤ 254; decide⟩
          · simp only [List.flatMap_cons, List.flatMap_nil, List.append_nil, subBlock, hl]
          · simp only [List.flatMap_cons, List.flatMap_nil, List.append_nil, subBlock, List.length_cons, hl]
          · have h0 : ({ v.regs with
                sbBuf := v.regs.sbBuf.write 254 (v.regs.acc.setWidth 8), sbLen := 0, acc := 0,
                  nbits := 0 } : EncRegs).heldBits =
                  [] := rfl
            rw [h0]
            simp only [EncRegs.heldBits, List.flatten_cons, List.flatten_nil, List.append_nil, dataBits_append,
              List.append_assoc, ← hbits]
            simp [dataBits]
        · have hlt : v.regs.sbLen.toNat < 254 := by have := hleg.sbLen_le; omega
          simp only [putByte_open v _ hlt]
          refine ⟨[], by simp, by simp, by simp, ?_, ?_⟩
          · have hs := sbBytes_write v.regs (v.regs.acc.setWidth 8) hleg.sbLen_le
            have h0 : ({ v.regs with
                sbBuf := v.regs.sbBuf.write v.regs.sbLen.toNat (v.regs.acc.setWidth 8)
                sbLen := BitVec.ofNat 8 (v.regs.sbLen.toNat + 1), acc := 0, nbits := 0 } : EncRegs).sbBytes =
                  v.regs.sbBytes ++ [v.regs.acc.setWidth 8] := hs
            simp only [EncRegs.heldBits, h0, List.flatten_nil, dataBits_append, List.append_assoc, ← hbits]
            simp [dataBits, bitsOfNat]
          · show (BitVec.ofNat 8 (v.regs.sbLen.toNat + 1)).toNat ≤ 254
            rw [BitVec.toNat_ofNat]; omega
      exact ⟨fr, by rw [e]; rfl, hpk.choose_spec.2.2.2.2, hem.packs fr hpk⟩
    · refine ⟨0, by decide, ?_⟩
      have e : v.padByte = v := by simp only [EncUnit.padByte, if_neg hn]
      rw [e]
      exact ⟨.refl v, BitVec.eq_of_toNat_eq (by simpa using hn), hleg.sbLen_le, by simpa using hem⟩
  obtain ⟨pad, hpadlt, fp, hnb, hsl, blocks, hbl, hout, hlen, hbits⟩ := hpad
  refine ⟨blocks.flatten ++ v.padByte.regs.sbBytes, pad, hpadlt, ?_, ?_⟩
  · rw [← hbits, dataBits_append, EncRegs.heldBits, hnb]
    simp [bitsOfNat]
  · have fcmd : v.padByte.cmd = u.cmd := fp.cmd.trans f.cmd
    have hfin : u.finish =
        { (if 0 < v.padByte.regs.sbLen.toNat then v.padByte.closeSubBlock else v.padByte).append 0 with phase :=
          .done } := by
      simp only [EncUnit.finish, hv]
    have hfr := frameBlocks_blocks blocks v.padByte.regs.sbBytes hbl (by rw [sbBytes_length]; omega)
    have hframe : frame u.cmd.m (blocks.flatten ++ v.padByte.regs.sbBytes) =
        u.cmd.m :: (blocks.flatMap subBlock ++
          (if v.padByte.regs.sbBytes.isEmpty then [] else subBlock v.padByte.regs.sbBytes)) ++ [0#8] := by
      rw [frame, hfr]
    rw [hfin, hframe]
    by_cases hs : 0 < v.padByte.regs.sbLen.toNat
    · have hne : v.padByte.regs.sbBytes.isEmpty = false := by
        rw [List.isEmpty_eq_false_iff]
        intro h0
        have := congrArg List.length h0
        rw [sbBytes_length] at this
        simp only [List.length_nil] at this
        omega
      have hsb : v.padByte.regs.sbLen :: v.padByte.regs.sbBytes = subBlock v.padByte.regs.sbBytes := by
        rw [subBlock, sbBytes_length]; simp
      simp only [if_pos hs, hne, closeSubBlock_eq, EncUnit.append, hout, fcmd, hlen, hsb]
      refine ⟨by simp, ?_, trivial, fp.cause.trans f.cause, fp.info.trans f.info, fp.inPos.trans f.inPos, trivial⟩
      simp [subBlock]
      omega
    · have hz : v.padByte.regs.sbLen.toNat = 0 := by omega
      have he : v.padByte.regs.sbBytes = [] := by
        apply List.length_eq_zero_iff.mp; rw [sbBytes_length, hz]
      simp only [if_neg hs, he, EncUnit.append, hout, fcmd, hlen]
      exact ⟨by simp, by simp, trivial, fp.cause.trans f.cause, fp.info.trans f.info, fp.inPos.trans f.inPos, trivial⟩

end Machine

end Sys2Proof
end

