-- ==== Sys2Proof/Laws/Invariant.lean ====
section
/-! SUPPORT. Laws/Invariant.lean: one step of one unit keeps that unit's invariant and the canonical form of its
memories. -/

namespace Sys2Proof.Machine

/-! ### The encoder unit -/

theorem EncUnit.begin_inv (r : EncodeRecord) (gen : Nat) : (EncUnit.begin r gen).Inv := fun _ => ⟨rfl, rfl⟩

theorem EncUnit.next_inv (u : EncUnit) (hr : u.phase = .run) (h : u.Inv) : u.next.Inv := by
  have h := h hr
  cases hs : u.started with
  | false =>
    rw [hs, if_neg (by simp)] at h
    have e : u.next = u.start := by simp only [EncUnit.next, hs, if_true]
    rw [e]
    rcases u.start_cases with ⟨c, i, he, -, -⟩ | ⟨first, rest, hS, hw, he⟩
    · rw [he]; intro hp; exact absurd hp (by simp)
    · have hv := u.startValid_running first rest hw hS h.1 h.2
      obtain ⟨-, -, -, hall⟩ := (EncodeRecord.wf_iff _).mp hw
      obtain ⟨hleg, hem, hcmd, -, hst, -, -, hpos, -, hm, -, -⟩ := hv
      rw [he]
      intro _
      rw [if_pos hst]
      refine .of_emitted hleg ?_ ?_ ?_ hem
      · rw [hcmd, hm]
      · rw [hcmd]; exact hall
      · rw [hcmd, hpos, hS]; simp
  | true =>
    rw [hs, if_pos rfl] at h
    by_cases hlt : u.regs.inPos < u.cmd.S.length
    · obtain ⟨bits, hb⟩ := h.emitted
      obtain ⟨k, -, hrun, -, -, hst, -⟩ := u.index_step_running bits h hs hlt hb
      intro _
      rw [if_pos hst]
      exact hrun
    · have hend : u.view.atEnd = true := by simp [EncUnit.view]; omega
      have e : u.next = u.finish := by simp [EncUnit.next, hs, hend]
      rw [e]
      intro hp
      exact absurd hp (by simp [EncUnit.finish])

theorem EncUnit.padByte_frame (u : EncUnit) : PackerFrame u u.padByte := by
  simp only [EncUnit.padByte]
  split
  · exact (putByte_frame u _).trans (setBits_frame _ _ _)
  · exact .refl u

/-- The sub-block buffer stays in canonical form. -/
theorem EncUnit.next_wf (u : EncUnit) (h : Memory.wf u.regs.sbBuf.cells = true) :
    Memory.wf u.next.regs.sbBuf.cells = true := by
  simp only [EncUnit.next]
  split
  · rcases u.start_cases with ⟨c, i, he, -, -⟩ | ⟨first, rest, -, -, he⟩
    · rw [he]; exact h
    · rw [he]
      exact (emitCode_frame (u.startRegs.append u.cmd.m) _).wf h
  · split
    · have f := ((emitCode_frame u u.regs.curCode).trans (emitCode_frame _ (u.regs.eoiCode.setWidth 12))).trans
        (EncUnit.padByte_frame _)
      simp only [EncUnit.finish]
      split
      · exact (f.trans (closeSubBlock_frame _)).wf h
      · exact f.wf h
    · split
      · exact h
      · split
        · rw [EncUnit.full_eq]
          exact ((emitCode_frame u u.regs.curCode).trans (emitCode_frame _ (u.regs.clearCode.setWidth 12))).wf h
        · rw [EncUnit.miss_eq]
          exact (emitCode_frame u u.regs.curCode).wf h

/-! ### The decoder unit -/

theorem DecUnit.begin_inv (r : DecodeRecord) (gen : Nat) (idx : Memory 8) : (DecUnit.begin r gen idx).Inv :=
  fun _ => ⟨rfl, rfl, rfl, rfl⟩

theorem DecUnit.Goes.inv {v : DecUnit} (h : v.Goes) : v.Inv := by
  intro hp
  rcases h with ⟨-, hs, hr⟩ | h | h
  · rw [if_pos hs]; exact hr
  · rw [h] at hp; cases hp
  · rw [h] at hp; cases hp

/-- What a decoder's first step is (R79). -/
theorem DecUnit.first_step (u : DecUnit) (hs : u.started = false) :
    (u.cmd.src[u.cmd.p0]? = none ∧ u.next? = some (u.raise .dSourceOverrun (.overrun u.cmd.p0))) ∨
      ∃ b, u.cmd.src[u.cmd.p0]? = some b ∧ u.next? = some (u.start b) := by
  have hf : u.fetch = u.fetchByteAt .mcs u.cmd.p0 := by simp only [DecUnit.fetch, if_pos hs]
  cases hb : u.cmd.src[u.cmd.p0]? with
  | none => exact .inl ⟨rfl, by simp only [DecUnit.next?, hf, DecUnit.fetchByteAt, DecUnit.memRead, hb]⟩
  | some b => exact .inr ⟨b, rfl, by simp only [DecUnit.next?, hf, DecUnit.fetchByteAt, DecUnit.memRead, hb]⟩

/-- A start step on a byte that R79 does not accept. -/
theorem DecUnit.start_faults (u : DecUnit) (b : Byte) (h : b.toNat < 2 ∨ 8 < b.toNat) :
    u.start b =
      { u with
        phase := .fault, cause := .dBadMinCodeSize, info := .mcsByte b u.cmd.p0, produced := u.regs.outPos,
        regs := { u.regs with srcPos := u.cmd.p0 + 1 } } := by
  have h' : b.toNat < Config.mcsMin ∨ Config.mcsMax < b.toNat := h
  simp only [DecUnit.start, if_pos h']
  rfl

theorem DecUnit.next?_goes (u : DecUnit) (hr : u.phase = .run) (h : u.Inv) : ∃ v, u.next? = some v ∧ v.Goes := by
  have h := h hr
  cases hs : u.started with
  | false =>
    rw [hs, if_neg (by simp)] at h
    rcases u.first_step hs with ⟨-, he⟩ | ⟨b, hb, he⟩
    · exact ⟨_, he, .inr (.inr rfl)⟩
    · refine ⟨_, he, ?_⟩
      by_cases hm : b.toNat < 2 ∨ 8 < b.toNat
      · rw [u.start_faults b hm]; exact .inr (.inr rfl)
      · have := u.start_running b (by omega) (by omega) (List.getElem?_eq_some_iff.mp hb).1 h.2.2
        exact .inl ⟨this.2.2.1.trans hr, this.2.1, this.1⟩
  | true =>
    rw [hs, if_pos rfl] at h
    exact u.running_goes h hr hs

/-- The three memories of DEC are in canonical form. -/
def DecUnit.memWf (u : DecUnit) : Prop :=
  Memory.wf u.regs.prefixes.cells = true ∧ Memory.wf u.regs.suffixes.cells = true ∧ Memory.wf u.idx = true

theorem DecUnit.finish_wf (u : DecUnit) (h : u.memWf) : u.finish.memWf := by
  rw [DecUnit.finish_status_only]; exact h

theorem DecUnit.dataCode_wf (u : DecUnit) (c : Code) (f : Index) (rest : List Index) (h : u.memWf) :
    (u.dataCode c f rest).memWf := by
  by_cases hfit : u.regs.outPos + (f :: rest).length ≤ u.cmd.outputLength
  · rw [DecUnit.dataCode_fits u c f rest hfit]
    have hi := (u.writeRun (f :: rest)).insert_wf f h.1 h.2.1
    have hr := DecUnit.insert_regs_only (u.writeRun (f :: rest)) f
    refine ⟨hi.1, hi.2, ?_⟩
    rw [hr]
    exact Memory.wf_writeRun _ _ h.2.2
  · rw [DecUnit.dataCode_overflows u c f rest (by omega)]
    by_cases hs : u.cmd.strict = true
    · rw [DecUnit.overflow_strict u hs]; exact h
    · rw [DecUnit.overflow_tolerant u (by simpa using hs)]; exact h

theorem DecUnit.act_wf (u v : DecUnit) (i : Instr) (h : u.memWf) (hv : u.act i = some v) : v.memWf := by
  cases i <;> simp only [DecUnit.act, Option.some.injEq, reduceCtorEq] at hv
  case clr => rw [← hv]; exact h
  case eoi => rw [← hv]; exact DecUnit.finish_wf _ h
  case lit k => rw [← hv]; exact u.dataCode_wf _ _ _ h
  case tab c =>
    split at hv
    · rw [← Option.some.inj hv]; exact u.dataCode_wf _ _ _ h
    · cases hv
  case kwk c =>
    split at hv
    · rw [← Option.some.inj hv]; exact u.dataCode_wf _ _ _ h
    · cases hv
  case illNoPrev c => rw [← hv]; exact h
  case illRange c => rw [← hv]; exact h

theorem DecUnit.next?_wf (u v : DecUnit) (h : u.memWf) (hv : u.next? = some v) : v.memWf := by
  simp only [DecUnit.next?] at hv
  split at hv
  · cases hv; exact h
  · cases hv; exact DecUnit.finish_wf _ h
  · next b _ =>
    cases hv
    simp only [DecUnit.start]
    split <;> exact h
  · split at hv
    · cases hv; exact DecUnit.finish_wf _ h
    · cases hv; exact h
  · cases hv; exact h
  · split at hv
    · exact DecUnit.act_wf u.consumeCode v _ h hv
    · cases hv
  · cases hv
  · cases hv
  · cases hv

end Sys2Proof.Machine
end

