-- ==== Sys2Proof/Laws/Runs.lean ====
section
/-! SUPPORT. Laws/Runs.lean: runs of the block in which one unit makes every move. -/

namespace Sys2Proof.Machine

/-- A step of the agent whose turn it is. -/
theorem State.nextAgent_scheduled (s : State) (a : Agent) (rest : List Agent) (hs : s.sched = a :: rest)
    (hr : s.ready a = true) : s.nextAgent = some a := by
  simp [State.nextAgent, hs, hr]

theorem step_enc (s : State) (rest : List Agent) (hs : s.sched = .enc :: rest) (hp : s.enc.phase = .run) :
    step s = .next { s with sched := rest, enc := s.enc.next } := by
  have hn := s.nextAgent_scheduled .enc rest hs (by simp [State.ready, hp])
  simp only [step, hn]
  rw [stepEnc_eq s.nextTurn hp]
  simp [State.nextTurn, hs]

theorem step_dec (s : State) (rest : List Agent) (u : DecUnit) (hs : s.sched = .dec :: rest) (hp : s.dec.phase = .run)
    (hu : s.dec.next? = some u) : step s = .next { s with sched := rest, dec := u } := by
  have hn := s.nextAgent_scheduled .dec rest hs (by simp [State.ready, hp])
  simp only [step, hn]
  rcases stepDec_eq s.nextTurn hp with ⟨v, hv, he⟩ | ⟨hv, -⟩
  · have hv : s.dec.next? = some v := hv
    rw [hu] at hv; cases hv
    rw [he]
    simp [State.nextTurn, hs]
  · have hv : s.dec.next? = none := hv
    rw [hu] at hv; cases hv

theorem step_dec_stops (s : State) (rest : List Agent) (hs : s.sched = .dec :: rest) (hp : s.dec.phase = .run)
    (hu : s.dec.next? = none) : ∃ f, step s = .fault f := by
  have hn := s.nextAgent_scheduled .dec rest hs (by simp [State.ready, hp])
  simp only [step, hn]
  rcases stepDec_eq s.nextTurn hp with ⟨v, hv, -⟩ | ⟨-, he | he⟩
  · have hv : s.dec.next? = some v := hv
    rw [hu] at hv; cases hv
  · exact ⟨_, he⟩
  · exact ⟨_, he⟩

theorem run_zero (s : State) : Host.Core.run Sys2Proof.core 0 s = .next s := rfl

theorem run_next (k : Nat) {s t : State} (h : step s = .next t) :
    Host.Core.run Sys2Proof.core (k + 1) s = Host.Core.run Sys2Proof.core k t := by
  have e : ∀ (M : Host.Core) (x y : M.State), M.step x = .next y → M.run (k + 1) x = M.run k y := by
    intro M x y hx; simp only [Host.Core.run, hx]
  exact e Sys2Proof.core s t h

theorem run_fault (k : Nat) {s : State} {f : Fault} (h : step s = .fault f) :
    Host.Core.run Sys2Proof.core (k + 1) s = .fault f := by
  have e : ∀ (M : Host.Core) (x : M.State) (r : M.Fault), M.step x = .fault r → M.run (k + 1) x = .fault r := by
    intro M x r hx; simp only [Host.Core.run, hx]
  exact e Sys2Proof.core s f h

/-- `k` moves of the encoder unit, each from phase RUN. -/
inductive EncUnit.Steps : Nat → EncUnit → EncUnit → Prop where
  | zero (u : EncUnit) : EncUnit.Steps 0 u u
  | succ {k : Nat} {u v : EncUnit} (hp : u.phase = .run) (h : EncUnit.Steps k u.next v) : EncUnit.Steps (k + 1) u v

/-- `k` moves of the decoder unit, each from phase RUN. -/
inductive DecUnit.Steps : Nat → DecUnit → DecUnit → Prop where
  | zero (u : DecUnit) : DecUnit.Steps 0 u u
  | succ {k : Nat} {u v w : DecUnit} (hp : u.phase = .run) (hu : u.next? = some v) (h : DecUnit.Steps k v w) :
      DecUnit.Steps (k + 1) u w

theorem EncUnit.Steps.trans {j k : Nat} {u v w : EncUnit} (h : EncUnit.Steps j u v) (h2 : EncUnit.Steps k v w) :
    EncUnit.Steps (j + k) u w := by
  induction h with
  | zero => rw [Nat.zero_add]; exact h2
  | succ hp _ ih => rw [Nat.add_right_comm]; exact .succ hp (ih h2)

theorem DecUnit.Steps.trans {j k : Nat} {u v w : DecUnit} (h : DecUnit.Steps j u v) (h2 : DecUnit.Steps k v w) :
    DecUnit.Steps (j + k) u w := by
  induction h with
  | zero => rw [Nat.zero_add]; exact h2
  | succ hp hu _ ih => rw [Nat.add_right_comm]; exact .succ hp hu (ih h2)

theorem run_scheduled_enc (k : Nat) (s : State) (v : EncUnit) (h : EncUnit.Steps k s.enc v)
    (hs : s.sched = List.replicate k .enc) :
    Host.Core.run Sys2Proof.core k s = .next { s with sched := [], enc := v } := by
  induction k generalizing s with
  | zero => cases h; simp only [List.replicate_zero] at hs; rw [run_zero, ← hs]
  | succ k ih =>
    cases h with
    | succ hp h =>
      rw [run_next k (step_enc s (List.replicate k .enc) (by rw [hs, List.replicate_succ]) hp)]
      exact ih _ h rfl

theorem run_scheduled_dec (k : Nat) (s : State) (v : DecUnit) (h : DecUnit.Steps k s.dec v)
    (hs : s.sched = List.replicate k .dec) :
    Host.Core.run Sys2Proof.core k s = .next { s with sched := [], dec := v } := by
  induction k generalizing s with
  | zero => cases h; simp only [List.replicate_zero] at hs; rw [run_zero, ← hs]
  | succ k ih =>
    cases h with
    | succ hp hu h =>
      rw [run_next k (step_dec s (List.replicate k .dec) _ (by rw [hs, List.replicate_succ]) hp hu)]
      exact ih _ h rfl

/-- A run in which only ENC moves. -/
theorem run_onlyFor_enc (k : Nat) (s : State) (v : EncUnit) (h : EncUnit.Steps k s.enc v) :
    Host.Core.run Sys2Proof.core k (s.onlyFor .enc k) = .next { s with sched := [], enc := v } :=
  run_scheduled_enc k (s.onlyFor .enc k) v h rfl

/-- A run in which only DEC moves. -/
theorem run_onlyFor_dec (k : Nat) (s : State) (v : DecUnit) (h : DecUnit.Steps k s.dec v) :
    Host.Core.run Sys2Proof.core k (s.onlyFor .dec k) = .next { s with sched := [], dec := v } :=
  run_scheduled_dec k (s.onlyFor .dec k) v h rfl

/-- A run in which only DEC moves, and stops at the last move. -/
theorem run_scheduled_dec_stops (k : Nat) (s : State) (v : DecUnit) (h : DecUnit.Steps k s.dec v) (hp : v.phase = .run)
    (hv : v.next? = none) (hs : s.sched = List.replicate (k + 1) .dec) :
    ∃ f, Host.Core.run Sys2Proof.core (k + 1) s = .fault f := by
  induction k generalizing s with
  | zero =>
    cases h
    obtain ⟨f, hf⟩ := step_dec_stops s [] hs hp hv
    exact ⟨f, run_fault 0 hf⟩
  | succ k ih =>
    cases h with
    | succ hp2 hu h =>
      rw [run_next (k + 1) (step_dec s (List.replicate (k + 1) .dec) _ (by rw [hs, List.replicate_succ]) hp2 hu)]
      exact ih _ h rfl

/-! ### The index steps of an ENCODE -/

theorem codeBits_length (w : Nat) (cs : List Nat) : (codeBits w cs).length = w * cs.length := by
  induction cs with
  | nil => rfl
  | cons c cs ih =>
    have : codeBits w (c :: cs) = bitsOfNat w c ++ codeBits w cs := rfl
    rw [this, List.length_append, ih, bitsOfNat_length, List.length_cons]; ring

/-- `j` index steps of a running encoder: it is still running, `j` indices further, and has appended at most 24 bits for
each. -/
theorem EncUnit.index_steps (j : Nat) (u : EncUnit) (bits : List Bool) (h : u.Running) (hr : u.phase = .run)
    (hs : u.started = true) (hb : u.Emitted bits) (hle : u.regs.inPos + j ≤ u.cmd.S.length) :
    ∃ v more, EncUnit.Steps j u v ∧ v.Running ∧ v.phase = .run ∧ v.started = true ∧ v.Emitted (bits ++ more) ∧
      v.cmd = u.cmd ∧
      v.cause = u.cause ∧ v.info = u.info ∧ v.regs.inPos = u.regs.inPos + j ∧ more.length ≤ 24 * j := by
  induction j generalizing u bits with
  | zero => exact ⟨u, [], .zero u, h, hr, hs, by simpa using hb, rfl, rfl, rfl, rfl, by simp⟩
  | succ j ih =>
    obtain ⟨k, -, hrun, hem, hph, hst, hcmd, hca, hin, hpos⟩ := u.index_step_running bits h hs (by omega) hb
    obtain ⟨v, more, hsteps, g1, g2, g3, g4, g5, g6, g7, g8,
      g9⟩ := ih u.next _ hrun (hph.trans hr) hst hem (by rw [hpos, hcmd]; omega)
    refine ⟨v, _, .succ hr hsteps, g1, g2, g3, by rw [← List.append_assoc]; exact g4, g5.trans hcmd, g6.trans hca,
      g7.trans hin, by rw [g8, hpos]; omega, ?_⟩
    rw [List.length_append, codeBits_length]
    have h1 : (u.emits k).length ≤ 2 := by
      simp only [EncUnit.emits]; split
      · simp
      · split <;> simp
    have h2 := h.regs.width_le
    have : u.regs.width.toNat * (u.emits k).length ≤ 12 * 2 := Nat.mul_le_mul h2 h1
    omega

end Sys2Proof.Machine
end

