-- ==== Sys2Proof/Laws/Stream.lean ====
section
/-! SUPPORT. Laws/Stream.lean: the decoder's bytes and bits (R48, R80, R81).

`DecUnit.Feeds u bits` says that the code stream a decoder has still to read is `bits`: the bits it holds, then those of
the data bytes ahead of it.  `read_code` turns its micro-steps into the reading of one code. -/

namespace Sys2Proof.Machine

/-- The code stream ahead of a decoder that reads an encoder's framing. -/
def DecUnit.Feeds (u : DecUnit) (bits : List Bool) : Prop :=
  ∃ cur d : List Byte, u.cmd.src.drop u.regs.srcPos = cur ++ (frameBlocks d.length d ++ [0#8]) ∧
    cur.length = u.regs.sbRem.toNat ∧ bits = bitsOfNat u.regs.nbits.toNat u.regs.acc.toNat ++ dataBits (cur ++ d)

/-- A unit that differs from `u` only in how far it has read. -/
def DecUnit.ReadFrom (u v : DecUnit) : Prop :=
  v = { u with
        regs :=
          { u.regs with
            acc := v.regs.acc, nbits := v.regs.nbits, srcPos := v.regs.srcPos, sbRem := v.regs.sbRem } }

theorem DecUnit.ReadFrom.refl (u : DecUnit) : DecUnit.ReadFrom u u := rfl

theorem DecUnit.ReadFrom.trans {u v w : DecUnit} (a : DecUnit.ReadFrom u v) (b : DecUnit.ReadFrom v w) :
    DecUnit.ReadFrom u w := by
  rw [DecUnit.ReadFrom] at a b ⊢
  rw [b, a]

theorem drop_eq_cons {α : Type} {l : List α} {n : Nat} {a : α} {t : List α} (h : l.drop n = a :: t) :
    l[n]? = some a ∧ l.drop (n + 1) = t := by
  constructor
  · have := congrArg (fun x => x[0]?) h
    simpa using this
  · have := congrArg (fun x => x.drop 1) h
    simpa [List.drop_drop] using this

/-- One byte step of a decoder that needs bits and has data ahead. -/
theorem DecUnit.feeds_byte (u : DecUnit) (bits : List Bool) (h : u.Running) (hr : u.phase = .run) (hs : u.started =
    true)
    (hf : u.Feeds bits) (hn : u.regs.nbits.toNat < u.regs.width.toNat) (hb : u.regs.nbits.toNat < bits.length) :
    ∃ v, u.next? = some v ∧ DecUnit.ReadFrom u v ∧ v.Running ∧ v.Feeds bits ∧
      v.cmd.src.length - v.regs.srcPos < u.cmd.src.length - u.regs.srcPos := by
  obtain ⟨cur, d, hsrc, hcur, hbits⟩ := hf
  have hgo := u.running_goes h hr hs
  have hlen : bits.length = u.regs.nbits.toNat + 8 * (cur ++ d).length := by
    rw [hbits, List.length_append, bitsOfNat_length, dataBits_length]
  have run_of : ∀ v, u.next? = some v → v.phase = .run → v.Running := by
    intro v hv hp
    obtain ⟨w, hw, hg⟩ := hgo
    rw [hv] at hw; cases hw
    rcases hg with ⟨-, -, hg⟩ | hg | hg
    · exact hg
    · rw [hp] at hg; cases hg
    · rw [hp] at hg; cases hg
  cases cur with
  | nil =>
    have hz : u.regs.sbRem = 0#8 := BitVec.eq_of_toNat_eq (by simpa using hcur.symm)
    cases d with
    | nil => simp at hlen; omega
    | cons b bs =>
      obtain ⟨f, hfu⟩ : ∃ f, (b :: bs).length = f + 1 := ⟨bs.length, rfl⟩
      have hfb : frameBlocks (b :: bs).length (b :: bs) =
          BitVec.ofNat 8 ((b :: bs).take 255).length ::
            ((b :: bs).take 255 ++ frameBlocks ((b :: bs).drop 255).length ((b :: bs).drop 255)) := by
        rw [hfu]
        simp only [frameBlocks, Config.subBlockMax, List.isEmpty_cons, Bool.false_eq_true, if_false, subBlock]
        rw [frameBlocks_fuel f _ (by rw [List.length_drop]; omega)]
        rfl
      rw [List.nil_append, hfb, List.cons_append] at hsrc
      obtain ⟨hat, hdrop⟩ := drop_eq_cons hsrc
      have hl1 : ((b :: bs).take 255).length < 256 := by rw [List.length_take]; omega
      have hl0 : 0 < ((b :: bs).take 255).length := by rw [List.length_take]; simp
      have hlb : (BitVec.ofNat 8 ((b :: bs).take 255).length).toNat = ((b :: bs).take 255).length := by
        rw [BitVec.toNat_ofNat]; omega
      have hne : BitVec.ofNat 8 ((b :: bs).take 255).length ≠ 0#8 := by
        intro h0
        have := congrArg BitVec.toNat h0
        rw [hlb] at this
        simp at this
      have hnx : u.next? = some (u.lenByte (BitVec.ofNat 8 ((b :: bs).take 255).length)) := by
        rcases u.running_step h hs with ⟨-, h0, -⟩ | ⟨-, -, h0, -⟩ | ⟨x, -, -, h0, -, he⟩ | ⟨x, -, h0, -⟩ | ⟨h0, -⟩
        · rw [hat] at h0; cases h0
        · rw [hat] at h0; exact absurd (Option.some.inj h0) hne
        · rw [hat] at h0; rw [he, ← Option.some.inj h0]
        · exact absurd hz h0
        · omega
      have hlt := (List.getElem?_eq_some_iff.mp hat).1
      refine ⟨_, hnx, rfl, run_of _ hnx hr, ⟨(b :: bs).take 255, (b :: bs).drop 255, ?_, hlb.symm, ?_⟩, ?_⟩
      · show u.cmd.src.drop (u.regs.srcPos + 1) = _
        rw [hdrop, List.append_assoc]
      · rw [hbits, List.nil_append, List.take_append_drop]; rfl
      · show u.cmd.src.length - (u.regs.srcPos + 1) < _
        omega
  | cons b bs =>
    have hz : u.regs.sbRem ≠ 0#8 := by
      intro h0; rw [h0] at hcur; simp at hcur
    rw [List.cons_append] at hsrc
    obtain ⟨hat, hdrop⟩ := drop_eq_cons hsrc
    have hnx : u.next? = some (u.dataByte b) := by
      rcases u.running_step h hs with ⟨-, h0, -⟩ | ⟨-, h0, -⟩ | ⟨x, -, h0, -⟩ | ⟨x, -, -, h0, he⟩ | ⟨h0, -⟩
      · rw [hat] at h0; cases h0
      · exact absurd h0 hz
      · exact absurd h0 hz
      · rw [hat] at h0; rw [he, ← Option.some.inj h0]
      · omega
    have hlt := (List.getElem?_eq_some_iff.mp hat).1
    obtain ⟨-, hnb, hacc⟩ := u.dataByte_legal b h.regs hn
    refine ⟨_, hnx, rfl, run_of _ hnx hr, ⟨bs, d, ?_, ?_, ?_⟩, ?_⟩
    · exact hdrop
    · show bs.length = (BitVec.ofNat 8 (u.regs.sbRem.toNat - 1)).toNat
      have := u.regs.sbRem.isLt
      rw [BitVec.toNat_ofNat]
      simp only [List.length_cons] at hcur
      omega
    · rw [hnb, hacc, bitsOfNat_add _ _ _ _ h.regs.acc_lt, hbits, List.append_assoc]
      rfl
    · show u.cmd.src.length - (u.regs.srcPos + 1) < _
      omega

/-- A decoder that needs bits takes bytes until it has enough, when there are enough. -/
theorem DecUnit.feeds_fill (u : DecUnit) (bits : List Bool) (h : u.Running) (hr : u.phase = .run) (hs : u.started =
    true)
    (hf : u.Feeds bits) (hw : u.regs.width.toNat ≤ bits.length) :
    ∃ k v, DecUnit.Steps k u v ∧ DecUnit.ReadFrom u v ∧ v.Running ∧ v.Feeds bits ∧
      u.regs.width.toNat ≤ v.regs.nbits.toNat := by
  generalize hm : u.cmd.src.length - u.regs.srcPos = m
  induction m using Nat.strong_induction_on generalizing u with
  | _ m ih =>
    by_cases hn : u.regs.nbits.toNat < u.regs.width.toNat
    · obtain ⟨v, hv, hrf, hrun, hfd, hlt⟩ := u.feeds_byte bits h hr hs hf hn (by omega)
      have hw' : v.regs.width = u.regs.width := by rw [hrf]
      have hp' : v.phase = u.phase := by rw [hrf]
      have hs' : v.started = u.started := by rw [hrf]
      obtain ⟨k, w, g1, g2, g3, g4, g5⟩ := ih _ (by omega) v hrun (hp'.trans hr) (hs'.trans hs) hfd
        (by rw [hw']; exact hw) rfl
      exact ⟨k + 1, w, .succ hr hv g1, hrf.trans g2, g3, g4, by rw [hw'] at g5; exact g5⟩
    · exact ⟨0, u, .zero u, .refl u, h, hf, by omega⟩

/-- A decoder that needs more bits than there are reads all the data and the terminator, and ends by exhaustion. -/
theorem DecUnit.feeds_dry (u : DecUnit) (bits : List Bool) (h : u.Running) (hr : u.phase = .run) (hs : u.started = true)
    (hf : u.Feeds bits) (hw : bits.length < u.regs.width.toNat) :
    ∃ k v, DecUnit.Steps k u v.terminator ∧ DecUnit.ReadFrom u v := by
  generalize hm : u.cmd.src.length - u.regs.srcPos = m
  induction m using Nat.strong_induction_on generalizing u with
  | _ m ih =>
    have hle : u.regs.nbits.toNat ≤ bits.length := by
      obtain ⟨cur, d, -, -, hb⟩ := hf
      rw [hb, List.length_append, bitsOfNat_length]; omega
    by_cases hb : u.regs.nbits.toNat < bits.length
    · obtain ⟨v, hv, hrf, hrun, hfd, hlt⟩ := u.feeds_byte bits h hr hs hf (by omega) hb
      have hw' : v.regs.width = u.regs.width := by rw [hrf]
      have hp' : v.phase = u.phase := by rw [hrf]
      have hs' : v.started = u.started := by rw [hrf]
      obtain ⟨k, w, g1, g2⟩ := ih _ (by omega) v hrun (hp'.trans hr) (hs'.trans hs) hfd (by rw [hw']; exact hw) rfl
      exact ⟨k + 1, w, .succ hr hv g1, hrf.trans g2⟩
    · obtain ⟨cur, d, hsrc, hcur, hbits⟩ := hf
      have hlen : bits.length = u.regs.nbits.toNat + 8 * (cur ++ d).length := by
        rw [hbits, List.length_append, bitsOfNat_length, dataBits_length]
      have hnil : cur = [] ∧ d = [] := by
        have : (cur ++ d).length = 0 := by omega
        simpa using this
      obtain ⟨rfl, rfl⟩ := hnil
      have hz : u.regs.sbRem = 0#8 := BitVec.eq_of_toNat_eq (by simpa using hcur.symm)
      have hat := (drop_eq_cons (a := 0#8) (t := []) (by simpa [frameBlocks] using hsrc)).1
      have hnx : u.next? = some u.terminator := by
        rcases u.running_step h hs with ⟨-, h0, -⟩ | ⟨-, -, -, he⟩ | ⟨x, -, -, h0, hx, -⟩ | ⟨x, -, h0, -⟩ | ⟨h0, -⟩
        · rw [hat] at h0; cases h0
        · exact he
        · rw [hat] at h0; exact absurd (Option.some.inj h0).symm hx
        · exact absurd hz h0
        · omega
      exact ⟨1, u, .succ hr hnx (.zero _), .refl u⟩

/-- Reading one code: after some byte steps the next step is the action of the code at the head of the stream, on a unit
that differs from `u` only in how far it has read, with the rest of the stream ahead. -/
theorem DecUnit.read_code (u : DecUnit) (c : Nat) (rest : List Bool) (h : u.Running) (hr : u.phase = .run)
    (hs : u.started = true) (hc : c < 2 ^ u.regs.width.toNat)
    (hf : u.Feeds (bitsOfNat u.regs.width.toNat c ++ rest)) :
    ∃ k p v, DecUnit.Steps k u p ∧ p.phase = .run ∧ p.next? = v.act (classify u.regs.codeCtx c) ∧
      DecUnit.ReadFrom u v ∧ v.Running ∧ v.Feeds rest := by
  obtain ⟨k, p, hst, hrf, hrun, hfd, hw⟩ := u.feeds_fill _ h hr hs hf (by
    rw [List.length_append, bitsOfNat_length]; omega)
  have hw' : p.regs.width = u.regs.width := by rw [hrf]
  have hp' : p.phase = u.phase := by rw [hrf]
  have hs' : p.started = u.started := by rw [hrf]
  have hctx : p.regs.codeCtx = u.regs.codeCtx := by rw [hrf]; rfl
  rw [← hw'] at hw hc hfd
  obtain ⟨cur, d, hsrc, hcur, hbits⟩ := hfd
  obtain ⟨-, hnb, hacc⟩ := p.consumeCode_legal hrun.regs hw
  -- the bits held split at the width
  have hsplit := bitsOfNat_split p.regs.width.toNat (p.regs.nbits.toNat - p.regs.width.toNat) p.regs.acc.toNat
  rw [Nat.add_sub_cancel' hw] at hsplit
  rw [hsplit, List.append_assoc] at hbits
  have hboth := List.append_inj hbits (by rw [bitsOfNat_length, bitsOfNat_length])
  have hheld : p.regs.codeHeld = c := by
    have := congrArg natOfBits hboth.1
    rw [natOfBits_bitsOfNat, natOfBits_bitsOfNat, Nat.mod_eq_of_lt hc, Nat.mod_mod] at this
    exact this.symm
  have hstep := p.running_step hrun (hs'.trans hs)
  have hnx : p.next? = p.consumeCode.act (classify u.regs.codeCtx c) := by
    rcases hstep with ⟨h0, -⟩ | ⟨h0, -⟩ | ⟨x, h0, -⟩ | ⟨x, h0, -⟩ | ⟨-, -, -, he⟩
    · omega
    · omega
    · omega
    · omega
    · rw [he, hheld, ← hctx]; rfl
  refine ⟨k, p, p.consumeCode, hst, hp'.trans hr, hnx, hrf.trans rfl, p.consumeCode_running hrun hw, cur, d, hsrc,
    hcur, ?_⟩
  rw [hnb, hacc, hboth.2]

end Sys2Proof.Machine
end

