-- ==== Sys2Proof/Laws/Lockstep.lean ====
section
/-! SUPPORT. Laws/Lockstep.lean: the decoder follows the encoder code by code (R96, R97, R117).

`Caught e d` says that the decoder has read every code the encoder has emitted, the current code included; `Sync` that
it has read all but the current code.  The lemmas move the pair from one index of the encoder to the next. -/

namespace Sys2Proof.Machine

/-- The newest key has the code before `next_code`, and every other key a smaller one (R27). -/
theorem EncRegs.Legal.cons_codes {r : EncRegs} (h : r.Legal) {head : EncEntry} {tl : List EncEntry}
    (ht : r.table = head :: tl) :
    head.code.toNat + 1 = r.nextCode.toNat ∧ ∀ x ∈ tl, x.code.toNat < head.code.toNat := by
  have hcodes := h.table_codes
  have hsz := h.table_size
  have hnr := h.next_range.1
  rw [ht, List.map_cons, List.length_cons, List.range'_1_concat, List.reverse_append] at hcodes
  simp only [List.reverse_cons, List.reverse_nil, List.nil_append, List.singleton_append, List.cons.injEq] at hcodes
  rw [ht, List.length_cons] at hsz
  refine ⟨by omega, fun x hx => ?_⟩
  have hm : x.code.toNat ∈ tl.map fun e => e.code.toNat := List.mem_map_of_mem hx
  rw [hcodes.2, List.mem_reverse, List.mem_range'_1] at hm
  omega

/-- The sequence a code stands for in the encoder's table (R77). -/
inductive EncRegs.Spells (r : EncRegs) : Code → List Index → Prop where
  | literal (c : Code) (h : c.toNat < r.clearCode.toNat) : EncRegs.Spells r c [c.setWidth 8]
  | entry (e : EncEntry) (s : List Index) (h : e ∈ r.table) (hs : EncRegs.Spells r e.pre s) :
      EncRegs.Spells r e.code (s ++ [e.k])

theorem EncRegs.Spells.mono {r q : EncRegs} {c : Code} {s : List Index} (h : r.Spells c s)
    (hc : q.clearCode = r.clearCode) (ht : ∀ e ∈ r.table, e ∈ q.table) : q.Spells c s := by
  induction h with
  | literal c h => exact .literal c (by rw [hc]; exact h)
  | entry e s h _ ih => exact .entry e s (ht e h) ih

theorem EncRegs.Spells.ne_nil {r : EncRegs} {c : Code} {s : List Index} (h : r.Spells c s) : s ≠ [] := by
  cases h <;> simp

/-- The decoder's entry for a key of the encoder (R26). -/
def DecRegs.Holds (r : DecRegs) (e : EncEntry) : Prop :=
  r.prefixes.read e.code.toNat = e.pre ∧ r.suffixes.read e.code.toNat = e.k

/-- Both tables spell a code the same, where the decoder holds the encoder's keys. -/
theorem EncRegs.Spells.decoded {r : EncRegs} {c : Code} {s : List Index} (h : r.Spells c s) (hr : r.Legal) (q : DecRegs)
    (hq : q.Legal) (hc : q.clearCode = r.clearCode) (he : q.eoiCode = r.eoiCode)
    (ht : ∀ e ∈ r.table, e.code.toNat < q.nextCode.toNat → q.Holds e)
    (hb : c.toNat < r.clearCode.toNat ∨ c.toNat < q.nextCode.toNat) : q.seq c = some s := by
  induction h with
  | literal c h => exact DecRegs.Legal.seq_literal q c (by rw [hc]; exact h)
  | entry e s h _ ih =>
    have hrange := hr.code_range h
    have hce : r.clearCode.toNat < r.eoiCode.toNat := by have := hr.clear_eq; have := hr.eoi_eq; omega
    have hlt : e.code.toNat < q.nextCode.toNat := by rcases hb with hb | hb <;> omega
    have hh := ht e h hlt
    have hl := hr.table_links e h
    rw [hq.seq_table e.code (by rw [he]; exact hrange.1) hlt, hh.1, hh.2,
      ih (by rcases hl with hl | hl <;> omega), Option.map_some]

/-- The indices a decoder has produced are `out`. -/
def DecUnit.Produced (u : DecUnit) (out : List Index) : Prop :=
  u.regs.outPos = out.length ∧ ∀ j, j < out.length → Memory.read u.idx j = out[j]?

/-- A decoder in the middle of decoding what this encoder makes. -/
structure EncRegs.Paired (e : EncRegs) (u : DecUnit) : Prop where
  enc : e.Legal
  running : u.Running
  run : u.phase = .run
  started : u.started = true
  m_eq : u.regs.m = e.m
  no_fault : u.cause = .none

namespace EncRegs.Paired

variable {e : EncRegs} {u : DecUnit}

theorem clear_eq (h : e.Paired u) : u.regs.clearCode = e.clearCode := by
  apply BitVec.eq_of_toNat_eq; rw [h.running.regs.clear_eq, h.enc.clear_eq, h.m_eq]

theorem eoi_eq (h : e.Paired u) : u.regs.eoiCode = e.eoiCode := by
  apply BitVec.eq_of_toNat_eq; rw [h.running.regs.eoi_eq, h.enc.eoi_eq, h.m_eq]

/-- The two widths agree when the decoder is one entry behind, or both tables are empty (R117). -/
theorem width_eq (h : e.Paired u)
    (hn : u.regs.nextCode.toNat + 1 = e.nextCode.toNat ∨
      e.nextCode.toNat = e.eoiCode.toNat + 1 ∧ u.regs.nextCode.toNat = e.nextCode.toNat) :
    u.regs.width.toNat = e.width.toNat := by
  have h1 := h.running.regs.width_eq
  have h2 := h.enc.width_eq
  have h3 := h.running.regs.next_range
  have h4 := h.running.regs.eoi_eq
  have h5 := h.enc.next_range
  have h6 := h.enc.eoi_eq
  have h7 := h.enc.two_pow_le
  have h8 := h.enc.m_range
  rw [h.m_eq] at h4
  have hlo : e.m.toNat < bitlen u.regs.nextCode.toNat := (lt_bitlen_iff _ _).mpr (by omega)
  rcases hn with hn | ⟨hn, hn2⟩
  · have hhi := (bitlen_le_iff u.regs.nextCode.toNat 12).mpr (by omega)
    have : e.nextCode.toNat - 1 = u.regs.nextCode.toNat := by omega
    rw [this] at h2
    omega
  · have hb1 : bitlen (e.nextCode.toNat - 1) = e.m.toNat + 1 := bitlen_eq (by omega) (by rw [Nat.pow_succ]; omega)
    have hb2 : bitlen u.regs.nextCode.toNat = e.m.toNat + 1 := bitlen_eq (by omega) (by rw [Nat.pow_succ]; omega)
    omega

end EncRegs.Paired

/-- The decoder has read all the encoder has emitted; the current code, which spells `s`, is still to come. -/
structure EncRegs.Sync (e : EncRegs) (u : DecUnit) (out s : List Index) : Prop extends e.Paired u where
  spells : e.Spells e.curCode s
  produced : u.Produced out
  mode :
    (u.regs.prevValid = false ∧ e.table = []) ∨
      (u.regs.prevValid = true ∧ u.regs.nextCode.toNat + 1 = e.nextCode.toNat ∧
        ∃ head rest, e.table = head :: rest ∧ head.pre = u.regs.prevCode ∧ s.head? = some head.k ∧
          ∀ x ∈ rest, u.regs.Holds x)

/-- The decoder has also read the current code. -/
structure EncRegs.Caught (e : EncRegs) (u : DecUnit) (out : List Index) : Prop extends e.Paired u where
  produced : u.Produced out
  prev : u.regs.prevValid = true ∧ u.regs.prevCode = e.curCode
  next_eq : u.regs.nextCode = e.nextCode
  holds : ∀ x ∈ e.table, u.regs.Holds x

theorem DecUnit.Produced.writeRun {u : DecUnit} {out run : List Index} (h : u.Produced out) :
    (u.writeRun run).Produced (out ++ run) := by
  obtain ⟨hp, hr⟩ := h
  refine ⟨by show u.regs.outPos + run.length = _; rw [hp, List.length_append], ?_⟩
  intro j hj
  simp only [DecUnit.writeRun, DecUnit.outWriteRun]
  rw [Memory.read_writeRun, hp]
  rw [List.length_append] at hj
  split
  · next hc => rw [List.getElem?_append_right hc.1]
  · next hc =>
    rw [List.getElem?_append_left (by omega)]
    exact hr j (by omega)

/-- Producing the run of the encoder's current code makes the decoder catch up (R91, R93). -/
theorem EncRegs.Sync.data {e : EncRegs} {u : DecUnit} {out s : List Index} (h : e.Sync u out s) (f : Index)
    (rest : List Index) (hs : s = f :: rest) (hall : ∀ x ∈ s, x.toNat < u.regs.clearCode.toNat)
    (hfit : out.length + s.length ≤ u.cmd.outputLength) :
    e.Caught (u.dataCode e.curCode f rest) (out ++ s) ∧ (u.dataCode e.curCode f rest).cmd = u.cmd := by
  have hout := h.produced.1
  rw [hs] at hall hfit
  have hfit2 : u.regs.outPos + (f :: rest).length ≤ u.cmd.outputLength := by rw [hout]; exact hfit
  have hclear := h.clear_eq
  have heoi := h.eoi_eq
  have hnext : u.regs.nextCode.toNat = e.nextCode.toNat ∨
      u.regs.prevValid = true ∧ u.regs.nextCode.toNat + 1 = e.nextCode.toNat := by
    rcases h.mode with ⟨hp, ht⟩ | ⟨hp, hn, -⟩
    · left
      have h1 := h.running.regs.fresh hp
      have h2 := h.enc.table_size
      have h3 := h.enc.next_range
      rw [ht, List.length_nil] at h2
      rw [heoi] at h1
      omega
    · exact .inr ⟨hp, hn⟩
  have hcur : DataCodeBelow u.regs.clearCode.toNat u.regs.eoiCode.toNat u.regs.nextCode.toNat e.curCode.toNat ∨
      e.curCode.toNat = u.regs.nextCode.toNat ∧ u.regs.prevValid = true := by
    rw [hclear, heoi]
    rcases h.enc.cur_legal with hc | hc
    · exact .inl (.inl hc)
    · rcases hnext with hn | ⟨hp, hn⟩
      · exact .inl (.inr ⟨hc.1, by omega⟩)
      · by_cases hx : e.curCode.toNat = u.regs.nextCode.toNat
        · exact .inr ⟨hx, hp⟩
        · exact .inl (.inr ⟨hc.1, by omega⟩)
  have hrun := u.data_running e.curCode f rest h.running hall hcur hfit2
  rw [DecUnit.dataCode_fits u e.curCode f rest hfit2]
  have hi := DecUnit.insert_regs_only (u.writeRun (f :: rest)) f
  have hprod : (u.writeRun (f :: rest)).Produced (out ++ s) := by rw [hs]; exact h.produced.writeRun
  refine ⟨⟨⟨h.enc, hrun, ?_, ?_, ?_, ?_⟩, ?_, ⟨rfl, rfl⟩, ?_, ?_⟩, ?_⟩
  · rw [hi]; exact h.run
  · rw [hi]; exact h.started
  · rw [hi]; exact h.m_eq
  · rw [hi]; exact h.no_fault
  · rw [hi]; exact hprod
  · -- the counters meet
    rcases h.mode with ⟨hp, ht⟩ | ⟨hp, hn, -⟩
    · rw [DecUnit.insert_no_prev (u.writeRun (f :: rest)) f hp]
      rcases hnext with hn | ⟨hp', -⟩
      · exact BitVec.eq_of_toNat_eq hn
      · rw [hp] at hp'; cases hp'
    · have hlt : u.regs.nextCode.toNat < 4096 := by have := h.enc.next_range.2; omega
      rw [DecUnit.insert_stores (u.writeRun (f :: rest)) f hp hlt]
      apply BitVec.eq_of_toNat_eq
      show (BitVec.ofNat 13 (u.regs.nextCode.toNat + 1)).toNat = _
      rw [BitVec.toNat_ofNat]; omega
  · -- the entry inserted is the encoder's newest
    rcases h.mode with ⟨hp, ht⟩ | ⟨hp, hn, head, tl, ht, hpre, hk, htl⟩
    · rw [ht]; simp
    · have hlt : u.regs.nextCode.toNat < 4096 := by have := h.enc.next_range.2; omega
      obtain ⟨hh, hlts⟩ := h.enc.cons_codes ht
      have hhead : head.code.toNat = u.regs.nextCode.toNat := by omega
      have htail : ∀ x ∈ tl, x.code.toNat ≠ u.regs.nextCode.toNat := by
        intro x hx; have := hlts x hx; omega
      rw [DecUnit.insert_stores (u.writeRun (f :: rest)) f hp hlt]
      intro x hx
      rw [ht] at hx
      simp only [DecRegs.Holds, DecUnit.setPrev, DecUnit.writeRun, DecUnit.outWriteRun, Store.read_write]
      rcases List.mem_cons.mp hx with rfl | hx
      · rw [if_pos hhead, if_pos hhead]
        rw [hs, List.head?_cons, Option.some.injEq] at hk
        exact ⟨hpre.symm, hk⟩
      · rw [if_neg (htail x hx), if_neg (htail x hx)]
        exact htl x hx
  · rw [hi]; rfl

/-- The class of the encoder's current code when the decoder reads it, and what it does (R54, R86 to R88). -/
theorem EncRegs.Sync.act {e : EncRegs} {u : DecUnit} {out s : List Index} (h : e.Sync u out s)
    (hfit : out.length + s.length ≤ u.cmd.outputLength) :
    ∃ v, u.act (classify u.regs.codeCtx e.curCode.toNat) = some v ∧ e.Caught v (out ++ s) ∧ v.cmd = u.cmd := by
  have hclear := h.clear_eq
  have heoi := h.eoi_eq
  have hq := h.running.regs
  have hce : e.clearCode.toNat < e.eoiCode.toNat := by have := h.enc.clear_eq; have := h.enc.eoi_eq; omega
  have h2 := h.enc.two_pow_le
  have hcl := h.enc.clear_eq
  have hc12 : BitVec.ofNat 12 e.curCode.toNat = e.curCode := by simp
  -- what the decoder holds below its own counter
  have hheld : ∀ x ∈ e.table, x.code.toNat < u.regs.nextCode.toNat → u.regs.Holds x := by
    intro x hx hlt
    rcases h.mode with ⟨-, ht⟩ | ⟨hp, hn, head, tl, ht, -, -, htl⟩
    · rw [ht] at hx; cases hx
    · rw [ht] at hx
      rcases List.mem_cons.mp hx with rfl | hx
      · have := (h.enc.cons_codes ht).1
        omega
      · exact htl x hx
  have hfin : ∀ run : List Index, (∀ x ∈ run, x.toNat < u.regs.clearCode.toNat) → run = s →
      ∃ f rest, s = f :: rest ∧
        (e.Caught (u.dataCode e.curCode f rest) (out ++ s) ∧ (u.dataCode e.curCode f rest).cmd = u.cmd) := by
    intro run hall hrun
    obtain ⟨f, rest, hs⟩ := List.exists_cons_of_ne_nil h.spells.ne_nil
    exact ⟨f, rest, hs, h.data f rest hs (by rw [← hrun]; exact hall) hfit⟩
  rcases h.enc.cur_legal with hlit | ⟨hgt, hlt⟩
  · -- a literal
    have hsp : u.regs.seq e.curCode = some s := h.spells.decoded h.enc u.regs hq hclear heoi hheld (.inl hlit)
    have hd := DecRegs.Legal.seq_literal u.regs e.curCode (by rw [hclear]; exact hlit)
    rw [hd] at hsp
    have hsx : [e.curCode.setWidth 8] = s := Option.some.inj hsp
    have h8 : (e.curCode.setWidth 8).toNat = e.curCode.toNat := by rw [BitVec.toNat_setWidth]; omega
    obtain ⟨f, rest, hs, hC⟩ := hfin [e.curCode.setWidth 8] (by
      intro x hx; rw [List.mem_singleton.mp hx, h8, hclear]; exact hlit) hsx
    rw [← hsx] at hs
    obtain ⟨rfl, rfl⟩ : e.curCode.setWidth 8 = f ∧ [] = rest := by simpa using hs
    refine ⟨_, ?_, hC⟩
    have hcls : classify u.regs.codeCtx e.curCode.toNat = .lit (BitVec.ofNat 8 e.curCode.toNat) := by
      have a1 : ¬ e.curCode.toNat = u.regs.codeCtx.clear := by
        show ¬ _ = u.regs.clearCode.toNat; rw [hclear]; omega
      have a2 : ¬ e.curCode.toNat = u.regs.codeCtx.eoi := by
        show ¬ _ = u.regs.eoiCode.toNat; rw [heoi]; omega
      have a3 : e.curCode.toNat < u.regs.codeCtx.clear := by
        show _ < u.regs.clearCode.toNat; rw [hclear]; exact hlit
      simp only [classify, if_neg a1, if_neg a2, if_pos a3]
    have h128 : (BitVec.ofNat 8 e.curCode.toNat).setWidth 12 = e.curCode := by
      apply BitVec.eq_of_toNat_eq
      rw [BitVec.toNat_setWidth, BitVec.toNat_ofNat]
      omega
    have h88 : BitVec.ofNat 8 e.curCode.toNat = e.curCode.setWidth 8 := by
      apply BitVec.eq_of_toNat_eq
      rw [BitVec.toNat_ofNat, BitVec.toNat_setWidth]
    rw [h88] at h128
    rw [hcls]
    simp only [DecUnit.act, h88, h128]
  · have a1 : ¬ e.curCode.toNat = u.regs.codeCtx.clear := by
      show ¬ _ = u.regs.clearCode.toNat; rw [hclear]; omega
    have a2 : ¬ e.curCode.toNat = u.regs.codeCtx.eoi := by
      show ¬ _ = u.regs.eoiCode.toNat; rw [heoi]; omega
    have a3 : ¬ e.curCode.toNat < u.regs.codeCtx.clear := by
      show ¬ _ < u.regs.clearCode.toNat; rw [hclear]; omega
    by_cases htab : e.curCode.toNat < u.regs.nextCode.toNat
    · -- a code the decoder has in its table
      have hsp : u.regs.seq e.curCode = some s := h.spells.decoded h.enc u.regs hq hclear heoi hheld (.inr htab)
      obtain ⟨f0, rest0, hsp2, hall, -⟩ := hq.seq_spec e.curCode (.inr ⟨by rw [heoi]; exact hgt, htab⟩)
      rw [hsp] at hsp2
      obtain ⟨f, rest, hs, hC⟩ := hfin (f0 :: rest0) hall (Option.some.inj hsp2).symm
      refine ⟨_, ?_, hC⟩
      have hcls : classify u.regs.codeCtx e.curCode.toNat = .tab e.curCode := by
        have a4 : e.curCode.toNat < u.regs.codeCtx.next := htab
        simp only [classify, if_neg a1, if_neg a2, if_neg a3, if_pos a4, hc12]
      rw [hcls]
      simp only [DecUnit.act, hsp, hs]
    · -- the code the decoder is about to assign
      rcases h.mode with ⟨hp, ht⟩ | ⟨hp, hn, head, tl, ht, hpre, hk, htl⟩
      · exfalso
        have h1 := h.enc.table_size
        rw [ht, List.length_nil] at h1
        omega
      · have heq : e.curCode.toNat = u.regs.nextCode.toNat := by omega
        have hcls : classify u.regs.codeCtx e.curCode.toNat = .kwk e.curCode := by
          have a4 : ¬ e.curCode.toNat < u.regs.codeCtx.next := htab
          have a5 : e.curCode.toNat = u.regs.codeCtx.next := heq
          have a6 : u.regs.codeCtx.prevValid = true := hp
          rw [classify, if_neg a1, if_neg a2, if_neg a3, if_neg a4, if_pos a5, if_pos a6, hc12]
        -- the current code is the newest key
        have hcur : ∃ s', s = s' ++ [head.k] ∧ e.Spells head.pre s' := by
          have hsp := h.spells
          generalize hg : e.curCode = c at hsp
          cases hsp with
          | literal c hl => rw [← hg] at hl; omega
          | entry x s' hx hs' =>
            have hx2 : x = head := by
              rw [ht] at hx
              rcases List.mem_cons.mp hx with rfl | hx
              · rfl
              · have hxc : x.code.toNat = u.regs.nextCode.toNat := by rw [← hg]; exact heq
                obtain ⟨hh, hlts⟩ := h.enc.cons_codes ht
                have := hlts x hx
                omega
            rw [hx2] at hs'
            exact ⟨s', by rw [hx2], hs'⟩
        obtain ⟨s', hs', hsp'⟩ := hcur
        have hpl := hq.prev_legal hp
        have hpseq : u.regs.seq u.regs.prevCode = some s' := by
          rw [← hpre]
          refine hsp'.decoded h.enc u.regs hq hclear heoi hheld ?_
          rw [hpre, ← hclear]
          rcases hpl with hpl | hpl
          · exact .inl hpl
          · exact .inr hpl.2
        obtain ⟨f0, rest0, hsq, hkw, hall⟩ := hq.kwkRun_spec hp
        rw [hpseq] at hsq
        have hs0 : s' = f0 :: rest0 := Option.some.inj hsq
        have hhk : head.k = f0 := by
          rw [hs', hs0, List.cons_append, List.head?_cons, Option.some.injEq] at hk
          exact hk.symm
        have hrun : f0 :: rest0 ++ [f0] = s := by rw [hs', hs0, hhk]
        obtain ⟨f, rest, hs, hC⟩ := hfin _ hall hrun
        refine ⟨_, ?_, hC⟩
        rw [hcls]
        simp only [DecUnit.act, hkw, hrun, hs]

/-- A unit that has only read further is in the same relation. -/
theorem EncRegs.Sync.readFrom {e : EncRegs} {u v : DecUnit} {out s : List Index} (h : e.Sync u out s)
    (hf : DecUnit.ReadFrom u v) (hr : v.Running) : e.Sync v out s := by
  have hm : v.regs.m = u.regs.m := by rw [hf]
  have hpv : v.regs.prevValid = u.regs.prevValid := by rw [hf]
  have hpc : v.regs.prevCode = u.regs.prevCode := by rw [hf]
  have hn : v.regs.nextCode = u.regs.nextCode := by rw [hf]
  have hop : v.regs.outPos = u.regs.outPos := by rw [hf]
  have hx : v.idx = u.idx := by rw [hf]
  have hph : v.phase = u.phase := by rw [hf]
  have hst : v.started = u.started := by rw [hf]
  have hca : v.cause = u.cause := by rw [hf]
  have hpr : v.regs.prefixes = u.regs.prefixes := by rw [hf]
  have hsu : v.regs.suffixes = u.regs.suffixes := by rw [hf]
  refine ⟨⟨h.enc, hr, hph.trans h.run, hst.trans h.started, hm.trans h.m_eq, hca.trans h.no_fault⟩, h.spells, ?_, ?_⟩
  · exact ⟨hop.trans h.produced.1, by rw [hx]; exact h.produced.2⟩
  · have := h.mode
    simp only [DecRegs.Holds, hpv, hn, hpc, hpr, hsu] at this ⊢
    exact this

/-- The decoder reads the encoder's current code, emitted at the encoder's width. -/
theorem EncRegs.Sync.read {e : EncRegs} {u : DecUnit} {out s : List Index} {rest : List Bool} (h : e.Sync u out s)
    (hfit : out.length + s.length ≤ u.cmd.outputLength)
    (hf : u.Feeds (bitsOfNat e.width.toNat e.curCode.toNat ++ rest)) :
    ∃ k v, DecUnit.Steps k u v ∧ e.Caught v (out ++ s) ∧ v.Feeds rest ∧ v.cmd = u.cmd := by
  have hw : u.regs.width.toNat = e.width.toNat := by
    apply h.width_eq
    rcases h.mode with ⟨hp, ht⟩ | ⟨-, hn, -⟩
    · right
      have h1 := h.running.regs.fresh hp
      have h2 := h.enc.table_size
      have h3 := h.enc.next_range
      rw [ht, List.length_nil] at h2
      rw [h.eoi_eq] at h1
      omega
    · exact .inl hn
  rw [← hw] at hf
  obtain ⟨k, p, v, g1, g2, g3, g4, g5, g6⟩ :=
    u.read_code e.curCode.toNat rest h.running h.run h.started (by rw [hw]; exact h.enc.cur_lt) hf
  have hcmd : v.cmd = u.cmd := by rw [g4]
  have hctx : v.regs.codeCtx = u.regs.codeCtx := by rw [g4]; rfl
  obtain ⟨w, hw1, hw2, hw3⟩ := (h.readFrom g4 g5).act (by rw [hcmd]; exact hfit)
  rw [hctx] at hw1
  rw [hw1] at g3
  have f := DecUnit.act_reader v w _ hw1
  refine ⟨k + 1, w, g1.trans (k := 1) (.succ g2 g3 (.zero _)), hw2, ?_, hw3.trans hcmd⟩
  obtain ⟨cur, d, h1, h2, h3⟩ := g6
  exact ⟨cur, d, by rw [f.cmd, f.srcPos]; exact h1, by rw [f.sbRem]; exact h2, by rw [f.nbits, f.acc]; exact h3⟩

end Sys2Proof.Machine
end

