-- ==== Sys2Proof/Laws/EndToEnd.lean ====
section
/-! SUPPORT. Laws/EndToEnd.lean: a decoder in lockstep with the encoder, up to the end of the command (R97).

`EncUnit.sync_step` is one index, `sync_finish` the end of the stream, `sync_run` their induction over the input. -/

namespace Sys2Proof.Machine

/-- One index of the encoder, and what the decoder reads of it. -/
theorem EncUnit.sync_step (a : EncUnit) (u : DecUnit) (out s : List Index) (rest : List Bool) (ha : a.Running)
    (hs : a.started = true) (hlt : a.regs.inPos < a.cmd.S.length) (h : a.regs.Sync u out s)
    (hin : (out ++ s).map BitVec.toNat = a.cmd.S.take a.regs.inPos) (hl : u.cmd.outputLength = a.cmd.S.length)
    (hf : u.Feeds (codeBits a.regs.width.toNat (a.emits a.view.k) ++ rest)) :
    ∃ k v out' s', DecUnit.Steps k u v ∧ a.next.regs.Sync v out' s' ∧ v.Feeds rest ∧ v.cmd = u.cmd ∧
      (out' ++ s').map BitVec.toNat = a.cmd.S.take (a.regs.inPos + 1) := by
  obtain ⟨k, hk, hkc, hvk, -, hcase⟩ := a.index_step ha hs hlt
  rw [hvk] at hf
  have htake : a.cmd.S.take (a.regs.inPos + 1) = a.cmd.S.take a.regs.inPos ++ [k.toNat] := by
    rw [List.take_add_one, hk]; rfl
  have hfit : out.length + s.length ≤ u.cmd.outputLength := by
    have := congrArg List.length hin
    rw [List.length_map, List.length_append, List.length_take] at this
    omega
  have hk8 : ((k.setWidth 12 : Code)).setWidth 8 = k := by
    apply BitVec.eq_of_toNat_eq; have := k.isLt; simp only [BitVec.toNat_setWidth]; omega
  have hk12 : ((k.setWidth 12 : Code)).toNat = k.toNat := by have := k.isLt; rw [BitVec.toNat_setWidth]; omega
  rcases hcase with ⟨c, hlk, hn⟩ | ⟨hlk, hlt2, hn⟩ | ⟨hlk, heq, hn⟩
  · -- a hit
    obtain ⟨e, hleg⟩ := a.hit_legal k c ha.regs hlk
    have hem : a.emits k = [] := by simp [EncUnit.emits, hlk]
    rw [hem] at hf
    rw [hn, e]
    rw [e] at hleg
    have hmem := EncRegs.lookup_some hlk
    refine ⟨0, u, out, s ++ [k], .zero u, ⟨⟨hleg, h.running, h.run, h.started, h.m_eq, h.no_fault⟩, ?_, h.produced,
      ?_⟩, by simpa [codeBits] using hf, rfl, ?_⟩
    · exact (EncRegs.Spells.entry _ s hmem h.spells).mono rfl (fun _ hx => hx)
    · rcases h.mode with ⟨-, ht⟩ | ⟨hp, hn, head, tl, ht, hpre, hk, htl⟩
      · rw [ht] at hmem; cases hmem
      · refine .inr ⟨hp, hn, head, tl, ht, hpre, ?_, htl⟩
        obtain ⟨f, r, rfl⟩ := List.exists_cons_of_ne_nil h.spells.ne_nil
        simpa using hk
    · rw [← List.append_assoc, List.map_append, hin, htake]; rfl
  · -- a miss
    have hleg := a.miss_legal k ha.regs hkc hlk hlt2
    have hem : a.emits k = [a.regs.curCode.toNat] := by simp [EncUnit.emits, hlk, hlt2]
    rw [hem] at hf
    obtain ⟨n, v, g1, g2, g3, g4⟩ := h.read (rest := rest) hfit (by simpa [codeBits] using hf)
    rw [hn]
    have e := a.miss_eq k
    have f := EncUnit.emitCode_frame a a.regs.curCode
    have hclear : (EncUnit.miss k a).regs.clearCode = a.regs.clearCode := by rw [e]; exact f.clearCode
    have hm : (EncUnit.miss k a).regs.m = a.regs.m := by rw [e]; exact f.m
    have hcur : (EncUnit.miss k a).regs.curCode = k.setWidth 12 := by rw [e]
    have htab : (EncUnit.miss k a).regs.table =
        ⟨a.regs.curCode, k, BitVec.ofNat 12 a.regs.nextCode.toNat⟩ :: a.regs.table := by rw [e]
    have hnx : (EncUnit.miss k a).regs.nextCode = BitVec.ofNat 13 (a.regs.nextCode.toNat + 1) := by rw [e]
    refine ⟨n, v, out ++ s, [k], g1, ⟨⟨hleg, g2.running, g2.run, g2.started, by rw [hm]; exact g2.m_eq, g2.no_fault⟩,
      ?_, g2.produced, .inr ⟨g2.prev.1, ?_, _, _, htab, g2.prev.2.symm, rfl, g2.holds⟩⟩, g3, g4, ?_⟩
    · rw [hcur]
      have := EncRegs.Spells.literal (r := (EncUnit.miss k a).regs) (k.setWidth 12) (by rw [hk12, hclear]; exact hkc)
      rw [hk8] at this; exact this
    · rw [g2.next_eq, hnx, BitVec.toNat_ofNat]; omega
    · rw [List.map_append, hin, htake]; rfl
  · -- a full table
    have hleg := a.full_legal k ha.regs hkc
    have hem : a.emits k = [a.regs.curCode.toNat, a.regs.clearCode.toNat] := by simp [EncUnit.emits, hlk, heq]
    rw [hem] at hf
    obtain ⟨n, v, g1, g2, g3, g4⟩ := h.read (rest :=
      bitsOfNat a.regs.width.toNat a.regs.clearCode.toNat ++ rest) hfit (by simpa [codeBits] using hf)
    have hw : v.regs.width.toNat = a.regs.width.toNat := by
      have h1 := g2.running.regs.width_eq
      have h2 := ha.regs.width_eq
      rw [g2.next_eq, heq] at h1
      rw [heq] at h2
      have h3 : bitlen 4096 = 13 := by decide
      have h4 : bitlen (4096 - 1) = 12 := by decide
      have := ha.regs.m_range
      omega
    rw [← hw] at g3
    obtain ⟨j, p, w, q1, q2, q3, q4, q5, q6⟩ := v.read_code _ rest g2.running g2.run g2.started
      (by rw [hw]; exact ha.regs.clear_lt) g3
    have hcls : classify v.regs.codeCtx a.regs.clearCode.toNat = .clr := by
      have : a.regs.clearCode.toNat = v.regs.codeCtx.clear := by show _ = v.regs.clearCode.toNat; rw [g2.clear_eq]
      rw [classify, if_pos this]
    rw [hcls] at q3
    have q3 : p.next? = some w.resetTable := q3
    have hwm : w.regs.m = v.regs.m := by rw [q4]
    have hph : w.phase = v.phase := by rw [q4]
    have hst : w.started = v.started := by rw [q4]
    have hca : w.cause = v.cause := by rw [q4]
    have hx : w.idx = v.idx := by rw [q4]
    have hop : w.regs.outPos = v.regs.outPos := by rw [q4]
    have hcmd : w.cmd = v.cmd := by rw [q4]
    rw [hn]
    have e := a.full_eq k
    have f := (EncUnit.emitCode_frame a a.regs.curCode).trans (EncUnit.emitCode_frame _ (a.regs.clearCode.setWidth 12))
    have hclear : (EncUnit.full k a).regs.clearCode = a.regs.clearCode := by rw [e]; exact f.clearCode
    have hm : (EncUnit.full k a).regs.m = a.regs.m := by rw [e]; exact f.m
    have hcur : (EncUnit.full k a).regs.curCode = k.setWidth 12 := by rw [e]
    have htab : (EncUnit.full k a).regs.table = [] := by rw [e]
    refine ⟨n + (j + 1), w.resetTable, out ++ s, [k], g1.trans (q1.trans (k := 1) (.succ q2 q3 (.zero _))), ⟨⟨hleg,
      ?_, hph.trans g2.run, hst.trans g2.started, ?_, hca.trans g2.no_fault⟩, ?_, ⟨hop.trans g2.produced.1, ?_⟩,
      .inl ⟨rfl, htab⟩⟩, ?_, hcmd.trans g4, ?_⟩
    · exact ⟨w.resetTable_legal q5.regs, q5.src_range, q5.out_range, q5.no_warning, q5.written⟩
    · show w.regs.m = _; rw [hwm, hm]; exact g2.m_eq
    · rw [hcur]
      have := EncRegs.Spells.literal (r := (EncUnit.full k a).regs) (k.setWidth 12) (by rw [hk12, hclear]; exact hkc)
      rw [hk8] at this; exact this
    · intro j hj; show Memory.read w.idx j = _; rw [hx]; exact g2.produced.2 j hj
    · exact q6
    · rw [List.map_append, hin, htake]; rfl

/-- future -/
def EncUnit.future : Nat → EncUnit → List Bool
  | 0, a => codeBits a.regs.width.toNat [a.regs.curCode.toNat, a.regs.eoiCode.toNat]
  | j + 1, a => codeBits a.regs.width.toNat (a.emits a.view.k) ++ EncUnit.future j a.next

theorem enc_future (j : Nat) (a : EncUnit) (bits : List Bool) (h : a.Running) (hr : a.phase = .run) (hs : a.started =
    true)
    (hb : a.Emitted bits) (hj : a.regs.inPos + j = a.cmd.S.length) :
    ∃ f d pad, EncUnit.Steps (j + 1) a f ∧ f.out = frame a.cmd.m d ∧ pad < 8 ∧
      dataBits d = bits ++ EncUnit.future j a ++ List.replicate pad false := by
  induction j generalizing a bits with
  | zero =>
    obtain ⟨d, pad, hpad, hd, ho, -⟩ := a.finish_emitted bits h hb
    have hend : a.view.atEnd = true := by simp [EncUnit.view]; omega
    have hfin : a.next = a.finish := by simp [EncUnit.next, hs, hend]
    exact ⟨a.finish, d, pad, .succ hr (by rw [hfin]; exact .zero _), ho, hpad, hd⟩
  | succ j ih =>
    obtain ⟨k, hk, -, hvk, -⟩ := a.index_step h hs (by omega)
    obtain ⟨k2, hk2, hrun, hem, hph, hst, hcmd, -, -, hpos⟩ := a.index_step_running bits h hs (by omega) hb
    have : k2 = k := by rw [hk] at hk2; exact (BitVec.eq_of_toNat_eq (Option.some.inj hk2)).symm
    obtain ⟨f, d, pad, g1, g2, g3, g4⟩ := ih a.next _ hrun (hph.trans hr) hst hem (by rw [hpos, hcmd]; omega)
    refine ⟨f, d, pad, .succ hr g1, by rw [g2, hcmd], g3, ?_⟩
    rw [g4, EncUnit.future, this, hvk]
    simp only [List.append_assoc]

theorem replicate_bits (n : Nat) : List.replicate n false = bitsOfNat n 0 := by
  induction n with
  | zero => rfl
  | succ n ih => rw [bitsOfNat, Nat.zero_div, ← ih]; rfl

/-- The end. -/
theorem sync_finish (a : EncUnit) (u : DecUnit) (out s : List Index) (pad : Nat) (ha : a.Running)
    (h : a.regs.Sync u out s) (hin : (out ++ s).length = u.cmd.outputLength)
    (hf : u.Feeds (EncUnit.future 0 a ++ List.replicate pad false)) :
    ∃ k v, DecUnit.Steps k u v ∧ v.phase = .done ∧ v.cause = .none ∧ v.produced = (out ++ s).length ∧
      v.tooLong = false ∧ v.tooShort = false ∧
      (v.endReason = .eoi ∨ v.endReason = .exhausted) ∧ ∀ j,
        j < (out ++ s).length → Memory.read v.idx j = (out ++ s)[j]? := by
  obtain ⟨n, v, g1, g2, g3, g4⟩ := h.read (rest :=
    bitsOfNat a.regs.width.toNat a.regs.eoiCode.toNat ++ List.replicate pad false)
    (by rw [List.length_append] at hin; omega) (by simpa [EncUnit.future, codeBits] using hf)
  have hfin : ∀ (x : DecUnit) (r : EndReason), x.phase = .run → x.cause = .none →
      x.regs.outPos = v.regs.outPos → x.cmd = v.cmd → x.idx = v.idx → (x.tooLong = false ∧ x.tooShort = false) → r ≠ .overflow →
      (x.setEndReason r).finish.phase = .done ∧ (x.setEndReason r).finish.cause = .none ∧
        (x.setEndReason r).finish.produced = (out ++ s).length ∧ (x.setEndReason r).finish.tooLong = false ∧
        (x.setEndReason r).finish.tooShort = false ∧ (x.setEndReason r).finish.endReason = r ∧ ∀ j,
        j < (out ++ s).length → Memory.read (x.setEndReason r).finish.idx j = (out ++ s)[j]? := by
    intro x r hx hc ho hm hi hw hr
    rcases DecUnit.finish_cases (x.setEndReason r) with ⟨-, e⟩ | ⟨-, h0, -⟩ | ⟨-, h0, -⟩
    · rw [e]
      refine ⟨rfl, hc, ?_, hw.1, hw.2, rfl, ?_⟩
      · show x.regs.outPos = _; rw [ho]; exact g2.produced.1
      · intro j hj; show Memory.read x.idx j = _; rw [hi]; exact g2.produced.2 j hj
    · exfalso; apply h0; show x.regs.outPos = x.cmd.outputLength; rw [ho, hm, g4, g2.produced.1, hin]
    · exfalso; apply h0; show x.regs.outPos = x.cmd.outputLength; rw [ho, hm, g4, g2.produced.1, hin]
  have heoi : a.regs.eoiCode.toNat = v.regs.eoiCode.toNat := by rw [g2.eoi_eq]
  have hce : a.regs.eoiCode.toNat ≠ v.regs.clearCode.toNat := by
    rw [g2.clear_eq]; have := ha.regs.clear_eq; have := ha.regs.eoi_eq; omega
  have hcls : classify v.regs.codeCtx a.regs.eoiCode.toNat = .eoi := by
    have h1 : ¬ a.regs.eoiCode.toNat = v.regs.codeCtx.clear := hce
    have h2 : a.regs.eoiCode.toNat = v.regs.codeCtx.eoi := heoi
    rw [classify, if_neg h1, if_pos h2]
  have byEoi : ∀ rest, a.regs.eoiCode.toNat < 2 ^ v.regs.width.toNat →
    v.Feeds (bitsOfNat v.regs.width.toNat a.regs.eoiCode.toNat ++ rest) → ∃ k w,
    DecUnit.Steps k u w ∧ w.phase = .done ∧ w.cause = .none ∧ w.produced = (out ++ s).length ∧ w.tooLong = false ∧
    w.tooShort = false ∧
      (w.endReason = .eoi ∨ w.endReason = .exhausted) ∧ ∀ j,
        j < (out ++ s).length → Memory.read w.idx j = (out ++ s)[j]? := by
    intro rest hlt hfd
    obtain ⟨j, p, w, q1, q2, q3, q4, q5, q6⟩ := v.read_code _ rest g2.running g2.run g2.started hlt hfd
    rw [hcls] at q3
    have q3 : p.next? = some (w.setEndReason .eoi).finish := q3
    obtain ⟨r1, r2, r3, r4, r5, r6, r7⟩ := hfin w .eoi (by rw [q4]; exact g2.run) (by rw [q4]; exact g2.no_fault)
      (by rw [q4]) (by rw [q4]) (by rw [q4]) q5.no_warning (by decide)
    exact ⟨_, _, g1.trans (q1.trans (k := 1) (.succ q2 q3 (.zero _))), r1, r2, r3, r4, r5, .inl r6, r7⟩
  have hwv := g2.running.regs.width_eq
  have hwa := ha.regs.width_eq
  rw [g2.next_eq] at hwv
  have hnr := ha.regs.next_range
  have hsucc := bitlen_succ (a.regs.nextCode.toNat - 1)
  rw [Nat.sub_add_cancel (by omega)] at hsucc
  have hge : a.regs.m.toNat < bitlen (a.regs.nextCode.toNat - 1) := 
    (lt_bitlen_iff _ _).mpr (by have := ha.regs.eoi_eq; omega)
  have hle := (bitlen_le_iff (a.regs.nextCode.toNat - 1) 12).mpr (by omega)
  by_cases hw : v.regs.width.toNat = a.regs.width.toNat
  · exact byEoi _ (by rw [hw]; exact ha.regs.eoi_lt) (by rw [hw]; exact g3)
  · have hw1 : v.regs.width.toNat = a.regs.width.toNat + 1 := by split at hsucc <;> omega
    cases pad with
    | zero =>
      obtain ⟨k, w, q1, q2⟩ := v.feeds_dry _ g2.running g2.run g2.started g3 (by
        rw [List.length_append, bitsOfNat_length, List.length_replicate]; omega)
      have hrun : w.phase = .run := by rw [q2]; exact g2.run
      obtain ⟨r1, r2, r3, r4, r5, r6, r7⟩ :=
        hfin { w.advance with regs := { w.advance.regs with terminated := true } } .exhausted hrun
          (by show w.cause = _; rw [q2]; exact g2.no_fault)
          (by show w.regs.outPos = _; rw [q2])
          (by show w.cmd = _; rw [q2])
          (by show w.idx = _; rw [q2])
          (by show w.tooLong = _ ∧ w.tooShort = _; rw [q2]; exact g2.running.no_warning)
          (by decide)
      exact ⟨_, _, g1.trans q1, r1, r2, r3, r4, r5, .inr r6, r7⟩
    | succ pad =>
      have hsplit := bitsOfNat_add a.regs.width.toNat 1 a.regs.eoiCode.toNat 0 ha.regs.eoi_lt
      refine byEoi (List.replicate pad false) (by rw [hw1, Nat.pow_succ]; have := ha.regs.eoi_lt; omega) ?_
      rw [hw1]
      simp only [Nat.mul_zero, Nat.add_zero] at hsplit
      rw [hsplit, List.append_assoc]
      exact g3

theorem sync_run (j : Nat) (a : EncUnit) (u : DecUnit) (out s : List Index) (pad : Nat) (ha : a.Running)
    (hr : a.phase = .run) (hs : a.started = true) (hj : a.regs.inPos + j = a.cmd.S.length) (h : a.regs.Sync u out s)
    (hin : (out ++ s).map BitVec.toNat = a.cmd.S.take a.regs.inPos) (hl : u.cmd.outputLength = a.cmd.S.length)
    (hf : u.Feeds (EncUnit.future j a ++ List.replicate pad false)) :
    ∃ k v, DecUnit.Steps k u v ∧ v.phase = .done ∧ v.cause = .none ∧ v.produced = a.cmd.S.length ∧
      v.tooLong = false ∧ v.tooShort = false ∧
      (v.endReason = .eoi ∨ v.endReason = .exhausted) ∧ ∀ i, i < a.cmd.S.length → ∃ x : Index,
        Memory.read v.idx i = some x ∧ a.cmd.S[i]? = some x.toNat := by
  induction j generalizing a u out s with
  | zero =>
    have hfull : (out ++ s).map BitVec.toNat = a.cmd.S := by rw [hin, List.take_of_length_le (by omega)]
    have hlen : (out ++ s).length = a.cmd.S.length := by rw [← hfull, List.length_map]
    obtain ⟨k, v, g1, g2, g3, g4, g5, g6, g7, g8⟩ := sync_finish a u out s pad ha h (by rw [hlen, hl]) hf
    refine ⟨k, v, g1, g2, g3, by rw [g4, hlen], g5, g6, g7, ?_⟩
    intro i hi
    have hi' : i < (out ++ s).length := by rw [hlen]; exact hi
    refine ⟨(out ++ s)[i], by rw [g8 i hi', List.getElem?_eq_getElem hi'], ?_⟩
    rw [← hfull, List.getElem?_map, List.getElem?_eq_getElem hi']; rfl
  | succ j ih =>
    obtain ⟨k, v, out', s', g1, g2, g3, g4, g5⟩ := a.sync_step u out s
      (EncUnit.future j a.next ++ List.replicate pad false) ha hs (by omega) h hin hl
      (by rw [← List.append_assoc]; exact hf)
    obtain ⟨bits, hb⟩ := ha.emitted
    obtain ⟨-, -, hrun, hem, hph, hst, hcmd, -, -, hpos⟩ := a.index_step_running bits ha hs (by omega) hb
    obtain ⟨k2, w, q1, q2, q3⟩ := ih a.next v out' s' hrun (hph.trans hr) hst
      (by rw [hpos, hcmd]; omega) g2 (by rw [hcmd, hpos]; exact g5) (by rw [g4, hcmd]; exact hl) g3
    rw [hcmd] at q3
    exact ⟨k + k2, w, g1.trans q1, q2, q3⟩

end Sys2Proof.Machine
end

