-- ==== Sys2Proof/Laws/PerInstr.lean ====
section
/-! SUPPORT. Laws/PerInstr.lean: statements about every instruction, one lemma per constructor.

`CodeFits`: an instruction that a legal context admits passes `wf`, its code value fits the current width and the table,
and a code is encoded as that value (R8, R49, R52). -/

namespace Sys2Proof.Laws

namespace CodeFits

/-- What the family says of an instruction. -/
def Statement (i : Instr) : Prop :=
  ∀ cc : CodeCtx, cc.ok = true → i.wfIn cc = true →
    i.wf = true ∧ codeValue cc i < 2 ^ cc.width ∧ codeValue cc i < Config.tableSize ∧
      (i.isCode = true → encode cc i = .code cc (codeValue cc i))

/-- What a legal context gives. -/
theorem ctx {cc : CodeCtx} (h : cc.ok = true) :
    cc.clear < cc.eoi ∧ cc.eoi < 2 ^ cc.width ∧ cc.eoi < 4096 ∧ cc.clear ≤ 256 ∧ cc.next ≤ 4096 := by
  simp only [CodeCtx.ok, List.any_eq_true, Bool.and_eq_true, decide_eq_true_eq, List.mem_range'_1] at h
  obtain ⟨m, ⟨h1, h2⟩, ⟨⟨⟨⟨hc, he⟩, hn⟩, hn2⟩, hw⟩, hw2⟩ := h
  have hm : m ≤ 8 := by simp [Config.mcsMin] at h2; omega
  have h3 : 2 ^ (m + 1) ≤ 2 ^ cc.width := Nat.pow_le_pow_right (by decide) hw
  have h4 : 2 ^ m ≤ 2 ^ 8 := Nat.pow_le_pow_right (by decide) hm
  have h5 : 2 ^ 2 ≤ 2 ^ m := Nat.pow_le_pow_right (by decide) h1
  simp only [Config.tableSize] at hn2
  rw [Nat.pow_succ] at h3
  omega

/-- An instruction with no code of its own. -/
theorem none_of {i : Instr} (h0 : ∀ cc, codeValue cc i = 0) (hi : i.isCode = false) : Statement i := by
  intro cc _ hw
  refine ⟨(Bool.and_eq_true_iff.mp hw).1, ?_, ?_, ?_⟩
  · rw [h0]; exact Nat.two_pow_pos _
  · rw [h0]; decide
  · intro h; rw [hi] at h; cases h

/-- A code with its bounds. -/
theorem code_of {i : Instr} (he : ∀ cc, encode cc i = .code cc (codeValue cc i))
    (hb : ∀ cc : CodeCtx, cc.ok = true → i.wfIn cc = true →
      codeValue cc i < 2 ^ cc.width ∧ codeValue cc i < Config.tableSize) : Statement i :=
  fun cc hc hw => ⟨(Bool.and_eq_true_iff.mp hw).1, (hb cc hc hw).1, (hb cc hc hw).2, fun _ => he cc⟩

theorem encode (r : EncodeRecord) : Statement (.encode r) := none_of (fun _ => rfl) rfl
theorem decode (r : DecodeRecord) : Statement (.decode r) := none_of (fun _ => rfl) rfl
theorem encStart : Statement .encStart := none_of (fun _ => rfl) rfl
theorem encHit (k : Index) : Statement (.encHit k) := none_of (fun _ => rfl) rfl
theorem encMiss (k : Index) : Statement (.encMiss k) := none_of (fun _ => rfl) rfl
theorem encFull (k : Index) : Statement (.encFull k) := none_of (fun _ => rfl) rfl
theorem encFinish : Statement .encFinish := none_of (fun _ => rfl) rfl
theorem bMcs (m : Byte) : Statement (.bMcs m) := none_of (fun _ => rfl) rfl
theorem bLen (len : Byte) : Statement (.bLen len) := none_of (fun _ => rfl) rfl
theorem bTerm : Statement .bTerm := none_of (fun _ => rfl) rfl
theorem bData (b : Byte) : Statement (.bData b) := none_of (fun _ => rfl) rfl

theorem clr : Statement .clr := by
  refine code_of (fun _ => rfl) fun cc hc _ => ?_
  have := ctx hc
  simp only [codeValue, Config.tableSize]; omega

theorem eoi : Statement .eoi := by
  refine code_of (fun _ => rfl) fun cc hc _ => ?_
  have := ctx hc
  simp only [codeValue, Config.tableSize]; omega

theorem lit (k : Index) : Statement (.lit k) := by
  refine code_of (fun _ => rfl) fun cc hc hw => ?_
  have := ctx hc
  have := k.isLt
  simp only [Instr.wfIn, Bool.and_eq_true, decide_eq_true_eq] at hw
  simp only [codeValue, Config.tableSize]; omega

theorem tab (c : Code) : Statement (.tab c) := by
  refine code_of (fun _ => rfl) fun cc _ hw => ?_
  simp only [Instr.wfIn, Bool.and_eq_true, decide_eq_true_eq] at hw
  exact ⟨hw.2.2, c.isLt⟩

theorem kwk (c : Code) : Statement (.kwk c) := by
  refine code_of (fun _ => rfl) fun cc _ hw => ?_
  simp only [Instr.wfIn, Bool.and_eq_true, decide_eq_true_eq] at hw
  exact ⟨hw.2.2, c.isLt⟩

theorem illNoPrev (c : Code) : Statement (.illNoPrev c) := by
  refine code_of (fun _ => rfl) fun cc _ hw => ?_
  simp only [Instr.wfIn, Bool.and_eq_true, decide_eq_true_eq] at hw
  exact ⟨hw.2.2, c.isLt⟩

theorem illRange (c : Code) : Statement (.illRange c) := by
  refine code_of (fun _ => rfl) fun cc _ hw => ?_
  simp only [Instr.wfIn, Bool.and_eq_true, decide_eq_true_eq] at hw
  exact ⟨hw.2.2, c.isLt⟩

end CodeFits

end Sys2Proof.Laws
end

