-- ==== Sys2Proof/Laws/Select.lean ====
section
/-! SUPPORT. Laws/Select.lean: when a unit's state selects an instruction (the match column of the table).

One lemma per row, from the conditions of Safety.lean to `selects`, and the answer of `exec` then. -/

namespace Sys2Proof.Machine

/-! ### The encoder -/

theorem EncUnit.selects_start {u : EncUnit} (hr : u.phase = .run) (hs : u.started = false) :
    u.selects .encStart = true := by
  simp [EncUnit.selects, hr, decode, selectEnc, EncUnit.view, hs]

theorem EncUnit.AtIndex.view {u : EncUnit} {k : Index} (h : u.AtIndex k) :
    u.view.started = true ∧ u.view.atEnd = false ∧ u.view.k = k := by
  obtain ⟨-, hs, v, hv, hk⟩ := h
  refine ⟨hs, ?_, ?_⟩
  · simp only [EncUnit.view, decide_eq_false_iff_not, Nat.not_le]
    exact (List.getElem?_eq_some_iff.mp hv).1
  · simp [EncUnit.view, EncUnit.inRead, hv, hk]

theorem EncUnit.selects_hit {u : EncUnit} {k : Index} {c : Code} (h : u.AtIndex k)
    (hl : u.regs.lookup u.regs.curCode k = some c) : u.selects (.encHit k) = true := by
  obtain ⟨h1, h2, h3⟩ := h.view
  have h4 : u.view.hit = true := by
    show (u.regs.lookup u.regs.curCode u.view.k).isSome = true
    rw [h3, hl]; rfl
  simp [EncUnit.selects, h.1, decode, selectEnc, h1, h2, h3, h4]

theorem EncUnit.selects_miss {u : EncUnit} {k : Index} (h : u.AtIndex k)
    (hl : u.regs.lookup u.regs.curCode k = none) (hn : u.regs.nextCode.toNat ≠ 4096) :
    u.selects (.encMiss k) = true := by
  obtain ⟨h1, h2, h3⟩ := h.view
  have h4 : u.view.hit = false := by
    show (u.regs.lookup u.regs.curCode u.view.k).isSome = false
    rw [h3, hl]; rfl
  have h5 : u.view.full = false := decide_eq_false hn
  simp [EncUnit.selects, h.1, decode, selectEnc, h1, h2, h3, h4, h5]

theorem EncUnit.selects_full {u : EncUnit} {k : Index} (h : u.AtIndex k)
    (hl : u.regs.lookup u.regs.curCode k = none) (hn : u.regs.nextCode.toNat = 4096) :
    u.selects (.encFull k) = true := by
  obtain ⟨h1, h2, h3⟩ := h.view
  have h4 : u.view.hit = false := by
    show (u.regs.lookup u.regs.curCode u.view.k).isSome = false
    rw [h3, hl]; rfl
  have h5 : u.view.full = true := decide_eq_true hn
  simp [EncUnit.selects, h.1, decode, selectEnc, h1, h2, h3, h4, h5]

theorem EncUnit.selects_finish {u : EncUnit} (hr : u.phase = .run) (hs : u.started = true)
    (he : u.cmd.S.length ≤ u.regs.inPos) : u.selects .encFinish = true := by
  simp [EncUnit.selects, hr, decode, selectEnc, EncUnit.view, hs, he]

/-! ### The decoder -/

theorem DecUnit.selects_mcs {u : DecUnit} {b : Byte} (hr : u.phase = .run) (hs : u.started = false)
    (hb : u.cmd.src[u.cmd.p0]? = some b) : u.selects (.bMcs b) = true := by
  have hf : u.fetch = .raw (.byte .mcs b) := by
    simp [DecUnit.fetch, hs, DecUnit.fetchByteAt, DecUnit.memRead, hb]
  by_cases h : Config.mcsMin ≤ b.toNat ∧ b.toNat ≤ Config.mcsMax
  · have hd : decode (.byte .mcs b) = .instr (.bMcs b) := if_pos h
    simp only [DecUnit.selects, hr, hf, hd, decide_true, Bool.true_and]
  · have hd : decode (.byte .mcs b) = .reject (.badMinCodeSize b) := if_neg h
    simp only [DecUnit.selects, hr, hf, hd, decide_true, Bool.true_and]

theorem DecUnit.selects_len {u : DecUnit} {b : Byte} (h : u.NeedsByte) (hz : u.regs.sbRem = 0#8)
    (ht : u.regs.terminated = false) (hb : u.cmd.src[u.regs.srcPos]? = some b) (h0 : b ≠ 0#8) :
    u.selects (.bLen b) = true := by
  obtain ⟨hr, hs, hn⟩ := h
  simp [DecUnit.selects, hr, DecUnit.fetch, hs, hn, hz, ht, DecUnit.fetchByteAt, DecUnit.memRead, hb, decode,
    decodeByte, h0]

theorem DecUnit.selects_term {u : DecUnit} (h : u.NeedsByte) (hz : u.regs.sbRem = 0#8)
    (ht : u.regs.terminated = false) (hb : u.cmd.src[u.regs.srcPos]? = some 0#8) : u.selects .bTerm = true := by
  obtain ⟨hr, hs, hn⟩ := h
  simp [DecUnit.selects, hr, DecUnit.fetch, hs, hn, hz, ht, DecUnit.fetchByteAt, DecUnit.memRead, hb, decode,
    decodeByte]

theorem DecUnit.selects_data {u : DecUnit} {b : Byte} (h : u.NeedsByte) (hz : u.regs.sbRem ≠ 0#8)
    (hb : u.cmd.src[u.regs.srcPos]? = some b) : u.selects (.bData b) = true := by
  obtain ⟨hr, hs, hn⟩ := h
  simp [DecUnit.selects, hr, DecUnit.fetch, hs, hn, hz, DecUnit.fetchByteAt, DecUnit.memRead, hb, decode, decodeByte]

theorem DecUnit.selects_code {u : DecUnit} {c : Nat} (h : u.HoldsCode c) (hc : c < 4096) :
    u.selects (classify u.regs.codeCtx c) = true := by
  obtain ⟨hr, hs, hn, hh⟩ := h
  have hlt : c < 2 ^ u.regs.codeCtx.width := by rw [← hh]; exact Nat.mod_lt _ (Nat.two_pow_pos _)
  have hd : decode (.code u.regs.codeCtx c) = .instr (classify u.regs.codeCtx c) := if_pos ⟨hlt, hc⟩
  have hf : u.fetch = .raw (.code u.regs.codeCtx c) := by
    simp [DecUnit.fetch, hs, Nat.not_lt.mpr hn, hh]
  simp only [DecUnit.selects, hr, decide_true, Bool.true_and, hf, hd]

/-! ### The class of a code (R52) -/

section

variable {r : DecRegs} {c : Code}

theorem classify_clr {c : Nat} (h : c = r.clearCode.toNat) : classify r.codeCtx c = .clr := if_pos h

theorem classify_eoi {c : Nat} (h1 : c ≠ r.clearCode.toNat) (h2 : c = r.eoiCode.toNat) :
    classify r.codeCtx c = .eoi := (if_neg h1).trans (if_pos h2)

theorem classify_lit {c : Nat} (h1 : c ≠ r.eoiCode.toNat) (h2 : c < r.clearCode.toNat) :
    classify r.codeCtx c = .lit (BitVec.ofNat 8 c) :=
  (if_neg (show ¬ c = r.clearCode.toNat by omega)).trans ((if_neg h1).trans (if_pos h2))

theorem classify_above (h1 : c.toNat ≠ r.eoiCode.toNat) (h2 : r.clearCode.toNat < c.toNat) :
    classify r.codeCtx c.toNat =
      if c.toNat < r.nextCode.toNat then .tab c
      else if c.toNat = r.nextCode.toNat then if r.prevValid then .kwk c else .illNoPrev c
      else .illRange c := by
  have h3 : ¬ c.toNat = r.codeCtx.clear := show ¬ c.toNat = r.clearCode.toNat by omega
  have h4 : ¬ c.toNat < r.codeCtx.clear := show ¬ c.toNat < r.clearCode.toNat by omega
  have h5 : ¬ c.toNat = r.codeCtx.eoi := h1
  rw [classify, if_neg h3, if_neg h5, if_neg h4, BitVec.ofNat_toNat, BitVec.setWidth_eq]
  rfl

theorem classify_tab (h1 : c.toNat ≠ r.eoiCode.toNat) (h2 : r.clearCode.toNat < c.toNat)
    (h3 : c.toNat < r.nextCode.toNat) : classify r.codeCtx c.toNat = .tab c := by
  rw [classify_above h1 h2, if_pos h3]

theorem classify_kwk (h1 : c.toNat ≠ r.eoiCode.toNat) (h2 : r.clearCode.toNat < c.toNat)
    (h3 : c.toNat = r.nextCode.toNat) (hp : r.prevValid = true) : classify r.codeCtx c.toNat = .kwk c := by
  rw [classify_above h1 h2, if_neg (by omega), if_pos h3, if_pos hp]

theorem classify_illNoPrev (h1 : c.toNat ≠ r.eoiCode.toNat) (h2 : r.clearCode.toNat < c.toNat)
    (h3 : c.toNat = r.nextCode.toNat) (hp : r.prevValid = false) : classify r.codeCtx c.toNat = .illNoPrev c := by
  rw [classify_above h1 h2, if_neg (by omega), if_pos h3, if_neg (by simp [hp])]

theorem classify_illRange (h1 : c.toNat ≠ r.eoiCode.toNat) (h2 : r.clearCode.toNat < c.toNat)
    (h3 : r.nextCode.toNat < c.toNat) : classify r.codeCtx c.toNat = .illRange c := by
  rw [classify_above h1 h2, if_neg (by omega), if_neg (by omega)]

end

end Sys2Proof.Machine
end

