-- ==== Sys2Proof/Tests/Slice0.lean ====
section
/-! SUPPORT. Tests/Slice0.lean: small tests of the model, and a witness for the hypotheses of each obligation.

Expected values come from the vectors of 95_test_vectors.md, named at each test, or from the rule named. -/

namespace Sys2Proof.Tests

open Sys2Proof.Machine

/-! ## WellFormed: one ill-formed term for each check -/

theorem test_wf_encode_m_below : (Instr.encode ⟨1#8, [0]⟩).wf = false := by decide
theorem test_wf_encode_m_above : (Instr.encode ⟨9#8, [0]⟩).wf = false := by decide
theorem test_wf_encode_empty : (Instr.encode ⟨2#8, []⟩).wf = false := by decide
theorem test_wf_encode_index : (Instr.encode ⟨2#8, [3, 4]⟩).wf = false := by decide
theorem test_wf_encode_legal : (Instr.encode ⟨2#8, [3, 0]⟩).wf = true := by decide
theorem test_wf_mcs : (Instr.bMcs 1#8).wf = false ∧ (Instr.bMcs 9#8).wf = false := by decide
theorem test_wf_len : (Instr.bLen 0#8).wf = false := by decide
theorem test_wf_tab : (Instr.tab 5#12).wf = false := by decide
theorem test_wf_kwk : (Instr.kwk 5#12).wf = false := by decide
theorem test_wf_noprev : (Instr.illNoPrev 5#12).wf = false := by decide
theorem test_wf_range : (Instr.illRange 6#12).wf = false := by decide

/-- Registers of `m = 2` with the entries 6 and 7 and a previous code. -/
def ctx : CodeCtx := { clear := 4, eoi := 5, next := 8, prevValid := true, width := 4 }

theorem test_wfIn_lit : (Instr.lit 4#8).wfIn ctx = false := by decide
theorem test_wfIn_tab : (Instr.tab 8#12).wfIn ctx = false ∧ (Instr.tab 6#12).wfIn ctx = true := by decide
theorem test_wfIn_tab_eoi : (Instr.tab 9#12).wfIn { ctx with clear := 8, eoi := 9, next := 12 } = false := by decide
theorem test_wfIn_tab_wide : (Instr.tab 7#12).wfIn { ctx with width := 2 } = false := by decide
theorem test_wfIn_kwk : (Instr.kwk 9#12).wfIn ctx = false := by decide
theorem test_wfIn_kwk_prev : (Instr.kwk 8#12).wfIn { ctx with prevValid := false } = false := by decide
theorem test_wfIn_kwk_wide : (Instr.kwk 8#12).wfIn { ctx with width := 3 } = false := by decide
theorem test_wfIn_noprev : (Instr.illNoPrev 9#12).wfIn { ctx with prevValid := false } = false := by decide
theorem test_wfIn_noprev_prev : (Instr.illNoPrev 8#12).wfIn ctx = false := by decide
theorem test_wfIn_noprev_wide : (Instr.illNoPrev 8#12).wfIn { ctx with prevValid := false, width := 3 } = false := by
  decide
theorem test_wfIn_range : (Instr.illRange 8#12).wfIn ctx = false := by decide
theorem test_wfIn_range_wide : (Instr.illRange 16#12).wfIn ctx = false := by decide
theorem test_ctx_ok : ctx.ok = true ∧ CodeCtx.ok { ctx with eoi := 6 } = false ∧ CodeCtx.ok { ctx with next := 5 } = false ∧
    CodeCtx.ok { ctx with width := 13 } = false ∧ CodeCtx.ok { ctx with width := 2 } = false := by decide

/-! ## Decoding: every constructor, from the encodings of 30_encoding.md -/

/-- R37, R49: the three bits 0, 0, 1 in stream order are the value 4, `clear_code` of `m = 2` (V-EX1). -/
theorem test_decode_clr : decodeBits (.afterClear 2) [false, false, true] = .ok (.clr, []) := by decide
/-- V-EX1: EOI at bits 16..19 is 1, 0, 1, 0. -/
theorem test_decode_eoi : decodeBits ctx [true, false, true, false] = .ok (.eoi, []) := by decide
/-- V-EX1: LIT 1 at bits 6..8 is 1, 0, 0. -/
theorem test_decode_lit : decodeBits (.afterClear 2) [true, false, false, true] = .ok (.lit 1#8, [true]) := by decide
/-- TAB 6 in four bits. -/
theorem test_decode_tab : decodeBits ctx [false, true, true, false] = .ok (.tab 6#12, []) := by decide
/-- Code 8 equals `next_code`, with a previous code. -/
theorem test_decode_kwk : decodeBits ctx [false, false, false, true] = .ok (.kwk 8#12, []) := by decide
/-- V-D10: code 6 right after a clear code. -/
theorem test_decode_noprev : decodeBits (.afterClear 2) [false, true, true] = .ok (.illNoPrev 6#12, []) := by decide
/-- V-H4: code 13 above `next_code` 8. -/
theorem test_decode_range : decodeBits ctx [true, false, true, true] = .ok (.illRange 13#12, []) := by decide
theorem test_decode_few_bits : decodeBits ctx [true, false, true] = .error .tooFewBits := by decide
/-- R47: byte values at the three framing positions. -/
theorem test_decode_mcs : decode (.byte .mcs 0x08#8) = .instr (.bMcs 8#8) := by decide
theorem test_decode_mcs_illegal : decode (.byte .mcs 0x0C#8) = .reject (.badMinCodeSize 12#8) := by decide
theorem test_decode_len : decode (.byte .length 0xFF#8) = .instr (.bLen 255#8) := by decide
theorem test_decode_term : decode (.byte .length 0x00#8) = .instr .bTerm := by decide
theorem test_decode_data : decode (.byte .data 0x00#8) = .instr (.bData 0#8) := by decide
/-- R8, R49: a value that no code has. -/
theorem test_decode_wide : decode (.code { ctx with width := 13 } 4096) = .reject (.codeTooWide 4096) := by decide
/-- The match column of the ENC rows. -/
theorem test_decode_enc_start : decode (.encState ⟨false, true, 0#8, true, true⟩) = .instr .encStart := by decide
theorem test_decode_enc_hit : decode (.encState ⟨true, false, 3#8, true, true⟩) = .instr (.encHit 3#8) := by decide
theorem test_decode_enc_miss : decode (.encState ⟨true, false, 3#8, false, false⟩) = .instr (.encMiss 3#8) := by decide
theorem test_decode_enc_full : decode (.encState ⟨true, false, 3#8, false, true⟩) = .instr (.encFull 3#8) := by decide
theorem test_decode_enc_finish : decode (.encState ⟨true, true, 3#8, true, true⟩) = .instr .encFinish := by decide
/-- The transactions of the two command rows. -/
theorem test_decode_encode : decode (.encodeCommand ⟨2#8, [0, 1]⟩) = .instr (.encode ⟨2#8, [0, 1]⟩) := by decide
theorem test_decode_decode : decode (.decodeCommand ⟨[2#8], 0, 4, true⟩) = .instr (.decode ⟨[2#8], 0, 4, true⟩) := by
  decide

/-- V-S2: the framing of V-EX1, and of a stream in 1-byte sub-blocks (V-D21). -/
theorem test_unframe : unframe [2#8, 3#8, 0x44#8, 2#8, 5#8, 0#8, 0x3B#8] =
    .ok (2#8, [0x44#8, 2#8, 5#8], [0x3B#8]) := by decide
theorem test_unframe_small : unframe [2#8, 1#8, 0x44#8, 1#8, 2#8, 1#8, 5#8, 0#8] =
    .ok (2#8, [0x44#8, 2#8, 5#8], []) := by decide
theorem test_unframe_truncated : unframe [2#8, 3#8, 0x44#8] = .error .truncated := by decide

/-- R60: listings of P2. -/
theorem test_listing : Instr.listing 4 (.kwk 12#12) = some "KWK 12/4" ∧ Instr.listing 4 .clr = some "CLR/4" := by decide

/-- The host's words: B-TERM, B-LEN, and the nine bits of `CLR` for `m = 8`. -/
theorem test_table_words : decodeTableWord 8 0 = some .bTerm ∧ decodeTableWord 8 3 = some (.bLen 3#8) ∧
    decodeTableWord 16 256 = some .clr ∧ decodeTableWord 16 258 = some (.illNoPrev 258#12) ∧
    decodeTableWord 16 512 = none ∧ decodeTableWord 24 0 = none := by decide

/-! ## States to step from -/

/-- ENC of V-EX1 after its start step: `cur_code = 0`, the three bits of CLR held, `in_pos = 1`. -/
def encU : EncUnit :=
  { EncUnit.reset with
    phase := .run, started := true, cmd := ⟨2#8, [0, 1, 1, 0]⟩, out := [2#8], outLen := 1
    regs :=
      { EncUnit.reset.regs with
        m := 2, clearCode := 4, eoiCode := 5, nextCode := 6, width := 3, curCode := 0, inPos := 1, acc := 4, nbits := 3 } }

/-- DEC of V-EX1 after its start step. -/
def decU : DecUnit :=
  { DecUnit.reset with
    phase := .run, started := true, cmd := ⟨[2#8, 3#8, 0x44#8, 2#8, 5#8, 0#8], 0, 4, false⟩
    regs :=
      { DecUnit.reset.regs with m := 2, clearCode := 4, eoiCode := 5, nextCode := 6, width := 3, srcPos := 1 } }

/-- A block with one unit in a command. -/
def withEnc (u : EncUnit) : State := { State.reset with enc := u }
def withDec (u : DecUnit) : State := { State.reset with dec := u }

/-- DEC with a code of the current width in the accumulator. -/
def holding (r : DecRegs) (acc : BitVec 20) : State :=
  withDec { decU with regs := { r with acc := acc, nbits := 8 } }

/-- DEC after the codes of V-D4 up to LIT 2: entry 10 is `(1, 2)`, `next_code = 11`, two indices produced. -/
def decD4 : DecUnit :=
  { decU with
    cmd := ⟨[3#8, 3#8, 0x18#8, 0xA2#8, 9#8, 0#8], 0, 4, false⟩
    idx := [(0, 1#8), (1, 2#8)]
    regs :=
      { decU.regs with
        m := 3, clearCode := 8, eoiCode := 9, nextCode := 11, width := 4, prevValid := true, prevCode := 2, srcPos := 4
        sbRem := 1, outPos := 2, acc := 0x2A, nbits := 8
        prefixes := { gen := 0, cells := [(10, 1#12)] }, suffixes := { gen := 1, cells := [(10, 2#8)] } } }

/-- What is asked of the next state of an instruction. -/
def after (r : Result) (p : State → Bool) : Bool :=
  match r with
  | .next t => p t
  | .fault _ => false
  | .refused _ => false

/-! ## Commands (R64, R65, R110, R111) -/

theorem test_encode : after (exec (.encode ⟨2#8, [0]⟩) State.reset) (fun t =>
    decide (t.enc.phase = .run) && decide (t.enc.out = []) && decide (selectEnc t.enc.view = .encStart)) = true := by decide
theorem test_encode_busy : exec (.encode ⟨2#8, [0]⟩) (withEnc encU) = .refused .encBusy := rfl
theorem test_decode_command : after (exec (.decode ⟨[7#8, 2#8], 1, 4, false⟩) State.reset) (fun t =>
    decide (t.dec.phase = .run) && decide (t.dec.regs.srcPos = 1) &&
      decide (t.dec.fetch = .raw (.byte .mcs 2#8))) = true := by decide
/-- R13: the default of `STRICT_LENGTH` is tolerant; a record may say otherwise. -/
theorem test_strict_default : ({ src := [2#8], p0 := 0, outputLength := 4 } : DecodeRecord).strict = false ∧
    ({ src := [2#8], p0 := 0, outputLength := 4, strict := true } : DecodeRecord).strict = true := by decide
theorem test_decode_busy : exec (.decode ⟨[], 0, 0, false⟩) (withDec decU) = .refused .decBusy := rfl

/-! ## Encoder steps -/

/-- V-E1, `m = 8`: the clear code fills one data byte and leaves one bit. -/
theorem test_enc_start : after (exec .encStart (withEnc { encU with started := false, cmd := ⟨8#8, [0]⟩, out := [], outLen := 0 }))
    (fun t => decide (t.enc.out = [8#8]) && decide (t.enc.regs.sbBytes = [0#8]) && decide (t.enc.regs.acc = 1) &&
      decide (t.enc.regs.nbits = 1) && decide (t.enc.regs.nextCode = 258) && decide (t.enc.regs.inPos = 1)) = true := by
  decide
/-- V-E10: `[255, 256]` faults at position 1. -/
theorem test_enc_start_fault : after (exec .encStart (withEnc { encU with started := false, cmd := ⟨8#8, [255, 256]⟩ }))
    (fun t => decide (t.enc.phase = .fault) && decide (t.enc.info = .index 1 256)) = true := by decide
/-- V-E2: the key `(0, 0)` is in the table as 6. -/
theorem test_enc_hit : after (exec (.encHit 0#8) (withEnc
      { encU with cmd := ⟨2#8, [0, 0, 0]⟩, regs := { encU.regs with inPos := 2, nextCode := 7, table := [⟨0, 0, 6⟩] } }))
    (fun t => decide (t.enc.regs.curCode = 6) && decide (t.enc.regs.inPos = 3) && decide (t.enc.regs.nbits = 3)) = true := by
  decide
/-- V-EX1, third index step: LIT 1 is emitted at 3 bits, then `8 >= 8` grows the width, then 8 is inserted. -/
theorem test_enc_miss : after (exec (.encMiss 0#8) (withEnc
      { encU with regs := { encU.regs with
          inPos := 3, curCode := 1, nextCode := 8, acc := 0, nbits := 1, table := [⟨1, 1, 7⟩, ⟨0, 1, 6⟩] } }))
    (fun t => decide (t.enc.regs.acc = 2) && decide (t.enc.regs.nbits = 4) && decide (t.enc.regs.width = 4) &&
      decide (t.enc.regs.nextCode = 9) && decide (t.enc.regs.lookup 1 0 = some 8) &&
      decide (t.enc.regs.curCode = 0)) = true := by decide
/-- V-E9 in small: a full table, `m = 8`; 12 bits of the current code, then 12 of the clear code. -/
theorem test_enc_full : after (exec (.encFull 55#8) (withEnc
      { encU with cmd := ⟨8#8, [220, 55]⟩, regs := { encU.regs with
          m := 8, clearCode := 256, eoiCode := 257, nextCode := 4096, width := 12, curCode := 220, acc := 0, nbits := 0 } }))
    (fun t => decide (t.enc.regs.sbBytes = [0xDC#8, 0x00#8, 0x10#8]) && decide (t.enc.regs.nextCode = 258) &&
      decide (t.enc.regs.width = 9) && decide (t.enc.regs.table = []) && decide (t.enc.regs.curCode = 55)) = true := by decide
/-- V-EX1: the end of the stream, from the state after its third miss. -/
theorem test_enc_finish : after (exec .encFinish (withEnc
      { encU with regs := { encU.regs with
          inPos := 4, curCode := 0, nextCode := 9, width := 4, acc := 2, nbits := 4, sbLen := 1
          sbBuf := { gen := 0, cells := [(0, 0x44#8)] } } }))
    (fun t => decide (t.enc.phase = .done) && decide (t.enc.out = [2#8, 3#8, 0x44#8, 2#8, 5#8, 0#8]) &&
      decide (t.enc.outLen = 6)) = true := by decide

/-! ## Framing bytes -/

theorem test_mcs : after (exec (.bMcs 2#8) (withDec { decU with started := false, regs := DecUnit.reset.regs }))
    (fun t => decide (t.dec = decU)) = true := by decide
/-- V-D12. -/
theorem test_mcs_fault : after (exec (.bMcs 9#8) (withDec { decU with started := false, cmd := ⟨[9#8], 0, 0, false⟩ }))
    (fun t => decide (t.dec.phase = .fault) && decide (t.dec.info = .mcsByte 9#8 0) && decide (t.dec.produced = 0)) = true := by
  decide
theorem test_len : after (exec (.bLen 3#8) (withDec decU))
    (fun t => decide (t.dec.regs.sbRem = 3) && decide (t.dec.regs.srcPos = 2) && decide (t.dec.regs.nbits = 0)) = true := by
  decide
/-- V-D7: the terminator with all four indices produced. -/
theorem test_term : after (exec .bTerm (withDec
      { decU with cmd := ⟨[2#8, 0#8], 0, 4, false⟩, regs := { decU.regs with outPos := 4 } }))
    (fun t => decide (t.dec.phase = .done) && decide (t.dec.endReason = .exhausted) && decide (t.dec.regs.srcPos = 2) &&
      decide (t.dec.tooShort = false) && t.dec.regs.terminated) = true := by decide
/-- V-EX1: bits 8.. of the stream come after the two bits held. -/
theorem test_data : after (exec (.bData 2#8) (withDec
      { decU with regs := { decU.regs with srcPos := 3, sbRem := 2, acc := 1, nbits := 2 } }))
    (fun t => decide (t.dec.regs.acc = 9) && decide (t.dec.regs.nbits = 10) && decide (t.dec.regs.sbRem = 1)) = true := by
  decide

/-! ## Codes -/

/-- V-D5: the clear after LIT 3; the bits above the code stay. -/
theorem test_clr : after (exec .clr (holding { decU.regs with nextCode := 8, prevValid := true } 0x1C))
    (fun t => decide (t.dec.regs.nextCode = 6) && decide (t.dec.regs.width = 3) && !t.dec.regs.prevValid &&
      decide (t.dec.regs.acc = 3) && decide (t.dec.regs.nbits = 5)) = true := by decide
/-- V-D18: EOI with three of five indices, strict. -/
theorem test_eoi_short : after (exec .eoi (withDec
      { decU with cmd := ⟨[], 0, 5, true⟩, regs := { decU.regs with acc := 5, nbits := 4, width := 4, outPos := 3 } }))
    (fun t => decide (t.dec.phase = .fault) && decide (t.dec.info = .length .short 3 5)) = true := by decide
theorem test_eoi : after (exec .eoi (withDec { decU with regs := { decU.regs with acc := 5, nbits := 4, outPos := 4 } }))
    (fun t => decide (t.dec.phase = .done) && decide (t.dec.endReason = .eoi) && decide (t.dec.produced = 4)) = true := by
  decide
/-- V-D1: the second LIT 1 inserts 7 and grows the width. -/
theorem test_lit : after (exec (.lit 1#8) (holding
      { decU.regs with nextCode := 7, prevValid := true, prevCode := 1, outPos := 2 } 1))
    (fun t => decide (t.dec.regs.nextCode = 8) && decide (t.dec.regs.width = 4) && decide (t.dec.idx = [(2, 1#8)]) &&
      decide (t.dec.regs.prefixes.read 7 = 1) && decide (t.dec.regs.suffixes.read 7 = 1)) = true := by decide
/-- V-D14: a run that does not fit is dropped whole. -/
theorem test_lit_overflow : after (exec (.lit 1#8) (holding { decU.regs with outPos := 4 } 1))
    (fun t => decide (t.dec.phase = .done) && t.dec.tooLong && decide (t.dec.idx = []) &&
      decide (t.dec.produced = 4)) = true := by decide
/-- V-D4: TAB 10 writes `[1, 2]` and inserts 11 = (2, 1). -/
theorem test_tab : after (exec (.tab 10#12) (withDec decD4))
    (fun t => decide (t.dec.idx = [(0, 1#8), (1, 2#8), (2, 1#8), (3, 2#8)]) && decide (t.dec.regs.nextCode = 12) &&
      decide (t.dec.regs.prefixes.read 11 = 2) && decide (t.dec.regs.suffixes.read 11 = 1) &&
      decide (t.dec.regs.prevCode = 10)) = true := by decide
/-- V-D3: KWK 6 writes `[0, 0]` and inserts 6 = (0, 0). -/
theorem test_kwk : after (exec (.kwk 6#12) (holding { decU.regs with prevValid := true, outPos := 1 } 6))
    (fun t => decide (t.dec.idx = [(1, 0#8), (2, 0#8)]) && decide (t.dec.regs.nextCode = 7) &&
      decide (t.dec.regs.seq 6 = some [0#8, 0#8])) = true := by decide
/-- V-D10. -/
theorem test_noprev : after (exec (.illNoPrev 6#12) (holding { decU.regs with srcPos := 3 } 6))
    (fun t => decide (t.dec.phase = .fault) && decide (t.dec.cause = .dKwkwkNoPrev) &&
      decide (t.dec.info = .code 6 6 3)) = true := by decide
/-- V-D9. -/
theorem test_range : after (exec (.illRange 7#12) (holding { decU.regs with srcPos := 3 } 7))
    (fun t => decide (t.dec.cause = .dInvalidCode) && decide (t.dec.info = .code 7 6 3)) = true := by decide

/-! ## Steps -/

/-- The host's word is fetched and run at the next step. -/
theorem test_fetch_word : after (step (State.reset.withFetchWord 8 3)) (fun t => decide (t.dec.regs.sbRem = 3)) = true ∧
    after (step (State.reset.withFetchWord 16 257)) (fun t => decide (t.dec.phase = .done)) = true ∧
    after (step (State.reset.withFetchWord 16 300)) (fun t => decide (t.dec.cause = .dInvalidCode)) = true := by decide
/-- V-D13: no length byte after `m`. -/
theorem test_step_overrun : after (step (withDec { decU with cmd := ⟨[2#8], 0, 4, false⟩ }))
    (fun t => decide (t.dec.phase = .fault) && decide (t.dec.info = .overrun 1)) = true := by decide
/-- R66: the host waits for a unit in RUN. -/
theorem test_host_waits : { withEnc encU with hostq := [.encode ⟨2#8, [0]⟩], sched := [.host] }.nextAgent = some .enc := by
  decide
/-- R94: the two-phase chase on a chain of two links. -/
theorem test_chase : decD4.regs.chase [] 5 10 = some [(5, 1#8), (6, 2#8)] := by decide
/-- R94: a KwKwK code with `prev_code = 10`; `first(prev_code) = 1` once more after the run. -/
theorem test_chase_kwk : ({ decD4.regs with prevCode := 10 } : DecRegs).chaseKwk [] 5 =
    some [(5, 1#8), (6, 2#8), (7, 1#8)] := by decide

/-! ## Witnesses: the hypotheses of the obligations can be met -/

/-- An instruction or a run that answers a next state. -/
theorem ran {r : Result} {p : State → Bool} (h : after r p = true) : ∃ t, r = .next t ∧ p t = true := by
  cases r with
  | next t => exact ⟨t, rfl, h⟩
  | fault _ => cases h
  | refused _ => cases h

theorem goes {r : Result} (h : after r (fun _ => true) = true) : ∃ t, r = .next t :=
  let ⟨t, ht, _⟩ := ran h
  ⟨t, ht⟩

/-- ENC at the index step that grows the width: entries 6 and 7, `next_code = 8 = 2^3`. -/
def encGrow : EncRegs :=
  { encU.regs with nextCode := 8, curCode := 1, table := [⟨1, 1, 7⟩, ⟨0, 1, 6⟩] }

/-- A table of `m = 8` with `n` entries: entry `258 + i` is the key `(i / 256, i % 256)`. -/
@[irreducible] def tableOf (n : Nat) : List EncEntry :=
  ((List.range' 258 n).map fun c =>
    { pre := BitVec.ofNat 12 ((c - 258) / 256), k := BitVec.ofNat 8 ((c - 258) % 256), code := BitVec.ofNat 12 c }).reverse

def encFullRegs : EncRegs :=
  { encU.regs with
    m := 8, clearCode := 256, eoiCode := 257, nextCode := 4096, width := 12, curCode := 0xFFF, acc := 0, nbits := 0
    table := tableOf 3838 }

/-- DEC with entry 6 = `(1, 2)` and `next_code = 7`, one below a power of two. -/
def dec7 : DecRegs :=
  { decU.regs with
    nextCode := 7, prevValid := true, prevCode := 2
    prefixes := { gen := 0, cells := [(6, 1#12)] }, suffixes := { gen := 1, cells := [(6, 2#8)] } }

/-- DEC one entry later: 7 = `(2, 0)` is in the table, and `next_code = 8 = 2^3`. -/
def dec8 : DecRegs :=
  { dec7 with
    nextCode := 8, width := 4, prevCode := 0
    prefixes := { gen := 0, cells := [(6, 1#12), (7, 2#12)] }, suffixes := { gen := 1, cells := [(6, 2#8), (7, 0#8)] } }

/-- DEC after LIT 0, about to read KWK 6 (V-D3). -/
def decKwk : DecUnit :=
  { decU with
    idx := [(0, 0#8)]
    regs := { decU.regs with prevValid := true, prevCode := 0, outPos := 1, acc := 6, nbits := 8 } }

/-- Both units in a command. -/
def both : State := { State.reset with enc := encU, dec := decU }

/-- ENC before its start step, with a record. -/
def encNew (m : Byte) (S : List Nat) : State :=
  withEnc { encU with started := false, cmd := ⟨m, S⟩, out := [], outLen := 0 }

/-- DEC before its start step, with source bytes. -/
def decNew (src : List Byte) : State := withDec { decU with started := false, cmd := ⟨src, 0, 4, false⟩ }

theorem test_legal_enc : encU.regs.Legal where
  m_range := by decide
  clear_eq := by decide
  eoi_eq := by decide
  next_range := by decide
  width_eq := by decide
  cur_legal := .inl (by decide)
  nbits_lt := by decide
  acc_lt := by decide
  sbLen_le := by decide
  table_codes := by decide
  table_size := by decide
  table_keys := by decide
  table_links := by intro e he; cases he

theorem test_legal_enc_grow : encGrow.Legal where
  m_range := by decide
  clear_eq := by decide
  eoi_eq := by decide
  next_range := by decide
  width_eq := by decide
  cur_legal := .inl (by decide)
  nbits_lt := by decide
  acc_lt := by decide
  sbLen_le := by decide
  table_codes := by decide
  table_size := by decide
  table_keys := by decide
  table_links := by
    intro e he
    simp only [encGrow, List.mem_cons, List.not_mem_nil, or_false] at he
    rcases he with rfl | rfl <;> exact .inl (by decide)

theorem tableOf_mem {n : Nat} {e : EncEntry} (h : e ∈ tableOf n) :
    ∃ i, i < n ∧ e = { pre := BitVec.ofNat 12 (i / 256), k := BitVec.ofNat 8 (i % 256), code := BitVec.ofNat 12 (258 + i) } := by
  simp only [tableOf, List.mem_reverse, List.mem_map, List.mem_range'_1] at h
  obtain ⟨c, hc, rfl⟩ := h
  refine ⟨c - 258, by omega, ?_⟩
  rw [show 258 + (c - 258) = c by omega]

theorem tableOf_codes (n : Nat) (hn : n ≤ 3838) :
    (tableOf n).map (fun e => e.code.toNat) = (List.range' 258 n).reverse := by
  rw [tableOf, List.map_reverse, List.map_map]
  congr 1
  refine (List.map_congr_left fun c hc => ?_).trans (List.map_id _)
  rw [List.mem_range'_1] at hc
  simp only [Function.comp, BitVec.toNat_ofNat, id]
  omega

theorem tableOf_length (n : Nat) : (tableOf n).length = n := by
  rw [tableOf, List.length_reverse, List.length_map, List.length_range']

theorem tableOf_keys (n : Nat) (hn : n ≤ 3838) : ((tableOf n).map fun e => (e.pre, e.k)).Nodup := by
  rw [tableOf, List.map_reverse, List.nodup_reverse, List.map_map]
  refine List.Nodup.map_on ?_ List.nodup_range'
  intro a ha b hb h
  rw [List.mem_range'_1] at ha hb
  simp only [Function.comp, Prod.mk.injEq] at h
  have h1 := congrArg BitVec.toNat h.1
  have h2 := congrArg BitVec.toNat h.2
  simp only [BitVec.toNat_ofNat] at h1 h2
  omega

theorem test_legal_enc_full : encFullRegs.Legal where
  m_range := by decide
  clear_eq := by decide
  eoi_eq := by decide
  next_range := by decide
  width_eq := by decide
  cur_legal := .inr (by decide)
  nbits_lt := by decide
  acc_lt := by decide
  sbLen_le := by decide
  table_codes := by
    have h : encFullRegs.table.length = 3838 := tableOf_length 3838
    have h2 : encFullRegs.eoiCode.toNat + 1 = 258 := by decide
    rw [h, h2]
    exact tableOf_codes 3838 (Nat.le_refl _)
  table_size := (tableOf_length 3838).trans (by decide)
  table_keys := tableOf_keys 3838 (Nat.le_refl _)
  table_links := by
    intro e he
    obtain ⟨i, hi, rfl⟩ := tableOf_mem he
    refine .inl ?_
    show (BitVec.ofNat 12 (i / 256)).toNat < 256
    rw [BitVec.toNat_ofNat]
    omega

theorem test_legal_dec : decU.regs.Legal where
  m_range := by decide
  clear_eq := by decide
  eoi_eq := by decide
  next_range := by decide
  width_eq := by decide
  nbits_le := by decide
  acc_lt := by decide
  not_terminated := rfl
  fresh := by decide
  prev_legal := by intro h; cases h
  links := by intro c h1 h2; exact absurd h2 (by have : 5 < c := h1; show ¬ c < 6; omega)
  bytes := by intro c h1 h2; exact absurd h2 (by have : 5 < c := h1; show ¬ c < 6; omega)

theorem test_legal_acc (a : BitVec 20) (n : BitVec 5) (hn : n.toNat ≤ 19) (ha : a.toNat < 2 ^ n.toNat) :
    ({ decU.regs with acc := a, nbits := n } : DecRegs).Legal :=
  let h := test_legal_dec
  ⟨h.m_range, h.clear_eq, h.eoi_eq, h.next_range, h.width_eq, hn, ha, h.not_terminated, h.fresh, h.prev_legal, h.links,
    h.bytes⟩

theorem test_legal_dec7 : dec7.Legal where
  m_range := by decide
  clear_eq := by decide
  eoi_eq := by decide
  next_range := by decide
  width_eq := by decide
  nbits_le := by decide
  acc_lt := by decide
  not_terminated := rfl
  fresh := by intro h; cases h
  prev_legal := fun _ => .inl (by decide)
  links := by
    intro c h1 h2
    obtain rfl : c = 6 := by have : 5 < c := h1; have : c < 7 := h2; omega
    exact .inl (by decide)
  bytes := by
    intro c h1 h2
    obtain rfl : c = 6 := by have : 5 < c := h1; have : c < 7 := h2; omega
    decide

theorem test_legal_dec8 : dec8.Legal where
  m_range := by decide
  clear_eq := by decide
  eoi_eq := by decide
  next_range := by decide
  width_eq := by decide
  nbits_le := by decide
  acc_lt := by decide
  not_terminated := rfl
  fresh := by intro h; cases h
  prev_legal := fun _ => .inl (by decide)
  links := by
    intro c h1 h2
    obtain rfl | rfl : c = 6 ∨ c = 7 := by have : 5 < c := h1; have : c < 8 := h2; omega
    · exact .inl (by decide)
    · exact .inl (by decide)
  bytes := by
    intro c h1 h2
    obtain rfl | rfl : c = 6 ∨ c = 7 := by have : 5 < c := h1; have : c < 8 := h2; omega
    · decide
    · decide

theorem test_legal_kwk : decKwk.regs.Legal where
  m_range := by decide
  clear_eq := by decide
  eoi_eq := by decide
  next_range := by decide
  width_eq := by decide
  nbits_le := by decide
  acc_lt := by decide
  not_terminated := rfl
  fresh := by intro h; cases h
  prev_legal := fun _ => .inl (by decide)
  links := by intro c h1 h2; exact absurd h2 (by have : 5 < c := h1; show ¬ c < 6; omega)
  bytes := by intro c h1 h2; exact absurd h2 (by have : 5 < c := h1; show ¬ c < 6; omega)

theorem test_running_enc : encU.Running where
  regs := test_legal_enc
  cmd_m := by decide
  input := by decide
  pos_range := by decide
  out_len := rfl
  framed := ⟨[], by simp, rfl⟩

/-- DEC in a command inside the invariant, whatever the accumulator holds below its `nbits` bits. -/
theorem running_dec {u : DecUnit} (h : u.regs.Legal) (hs : u.cmd.p0 < u.regs.srcPos ∧ u.regs.srcPos ≤ u.cmd.src.length)
    (ho : u.regs.outPos ≤ u.cmd.outputLength) (hw : u.tooLong = false ∧ u.tooShort = false)
    (hc : ∀ i, i < u.regs.outPos → ∃ v, Memory.read u.idx i = some v ∧ v.toNat < u.regs.clearCode.toNat) : u.Running :=
  ⟨h, hs, ho, hw, hc⟩

theorem test_running_dec : decU.Running :=
  running_dec test_legal_dec (by decide) (by decide) ⟨rfl, rfl⟩ (by intro i hi; exact absurd hi (Nat.not_lt_zero i))

theorem test_running_kwk : decKwk.Running := by
  refine running_dec test_legal_kwk (by decide) (by decide) ⟨rfl, rfl⟩ ?_
  intro i hi
  obtain rfl : i = 0 := by have : i < 1 := hi; omega
  exact ⟨0#8, rfl, by decide⟩

theorem test_inv_both : both.Inv := ⟨fun _ => test_running_enc, fun _ => test_running_dec, by decide⟩

theorem test_inv_kwk : (withDec decKwk).Inv := ⟨fun h => absurd h (by decide), fun _ => test_running_kwk, by decide⟩

/-- A block whose DEC is decU with other legal registers and record. -/
theorem inv_dec {u : DecUnit} (h : u.Running) (hs : u.started = true) (hm : (withDec u).memWf = true) : (withDec u).Inv :=
  ⟨fun h => (by cases h), fun _ => by show (if u.started then _ else _); rw [hs]; exact h, hm⟩

/-! ### Commands and steps -/

theorem test_witness_EncodeStartsCommand : State.reset.enc.phase ≠ .run := by decide
theorem test_witness_DecodeStartsCommand : State.reset.dec.phase ≠ .run ∧
    ([2#8] : List Byte)[0]? = some 2#8 ∧ ([] : List Byte).length ≤ 0 := by decide
theorem test_witness_CommandOnRunningUnitIsRefused : both.enc.phase = .run ∧ both.dec.phase = .run := by decide
theorem test_witness_UnitsChangeOnlyByTheirCommands :
    (∃ t, step both = .next t) ∧ both.enc.phase = .run ∧ both.dec.phase = .run ∧
      (∃ t, step State.reset = .next t) ∧ State.reset.enc.phase ≠ .run ∧ State.reset.dec.phase ≠ .run :=
  ⟨goes (by decide), rfl, rfl, goes (by decide), by decide, by decide⟩
theorem test_witness_StepRunsTheNextInstruction :
    both.nextAgent = some .enc ∧
    ((withDec decU).nextAgent = some .dec ∧ decU.fetch = .raw (.byte .length 3#8) ∧
      decode (.byte .length 3#8) = .instr (.bLen 3#8)) ∧
    ((decNew [9#8]).nextAgent = some .dec ∧ (decNew [9#8]).dec.fetch = .raw (.byte .mcs 9#8) ∧
      decode (.byte .mcs 9#8) = .reject (.badMinCodeSize 9#8)) ∧
    { State.reset with hostq := [.encode ⟨2#8, [0]⟩] }.nextAgent = some .host ∧
    { State.reset with hostq := [.decode ⟨[], 0, 0, false⟩] }.nextAgent = some .host ∧
    { State.reset with hostq := [.writeIdx 0 7#8] }.nextAgent = some .host ∧
    State.reset.nextAgent = none := by decide

/-! ### The encoder -/

theorem test_witness_EncStartFollowsItsPseudocode :
    (∀ S, (encNew 1#8 S).enc.phase = .run ∧ (encNew 1#8 S).enc.started = false) ∧
    ((1#8).toNat < 2 ∧ 8 < (9#8).toNat) ∧ (2 ≤ (2#8).toNat ∧ (2#8).toNat ≤ 8 ∧ (encNew 2#8 []).enc.cmd.S = []) ∧
    ((encNew 8#8 [255, 256]).enc.cmd.S[1]? = some 256 ∧ 2 ^ 8 ≤ 256 ∧
      ∀ j w, j < 1 → (encNew 8#8 [255, 256]).enc.cmd.S[j]? = some w → w < 2 ^ 8) ∧
    ((encNew 8#8 [255]).enc.cmd.S = [255] ∧ ∀ v ∈ (encNew 8#8 [255]).enc.cmd.S, v < 2 ^ 8) := by
  refine ⟨fun _ => ⟨rfl, rfl⟩, by decide, by decide, ⟨rfl, by decide, ?_⟩, rfl, by decide⟩
  intro j w hj hw
  obtain rfl : j = 0 := by omega
  cases hw
  decide
theorem test_witness_EncStartLeavesTheTabledValues : ∀ m ∈ [2#8, 6#8, 7#8, 8#8],
    (encNew m [3]).enc.phase = .run ∧ (encNew m [3]).enc.started = false ∧ (encNew m [3]).enc.out = [] ∧
      (encNew m [3]).enc.outLen = 0 ∧ (encNew m [3]).enc.cmd.wf = true := by decide
/-- The index `S[1] = 1` of V-EX1. -/
theorem atIndex (r : EncRegs) (h : r.inPos = 1) : EncUnit.AtIndex { encU with regs := r } 1#8 := by
  refine ⟨rfl, rfl, 1, ?_, rfl⟩
  show ([0, 1, 1, 0] : List Nat)[r.inPos]? = some 1
  rw [h]; rfl
theorem test_witness_EncHitExtendsTheCurrentSequence :
    EncUnit.AtIndex { encU with regs := encGrow } 1#8 ∧ encGrow.lookup encGrow.curCode 1#8 = some 7 ∧ encGrow.Legal :=
  ⟨atIndex _ rfl, by decide, test_legal_enc_grow⟩
/-- At the growth boundary `next_code = 2^width`, with an absent key. -/
theorem test_witness_EncMissEmitsThenGrowsThenInserts :
    EncUnit.AtIndex { encU with cmd := ⟨2#8, [0, 2]⟩, regs := encGrow } 2#8 ∧
      encGrow.lookup encGrow.curCode 2#8 = none ∧ encGrow.nextCode.toNat < 4096 ∧ encGrow.Legal :=
  ⟨⟨rfl, rfl, 2, rfl, rfl⟩, by decide, by decide, test_legal_enc_grow⟩
theorem test_witness_EncFullEmitsClearAndResets :
    EncUnit.AtIndex { encU with regs := encFullRegs } 1#8 ∧
      encFullRegs.lookup encFullRegs.curCode 1#8 = none ∧ encFullRegs.nextCode.toNat = 4096 ∧ encFullRegs.Legal := by
  refine ⟨atIndex _ rfl, ?_, by decide, test_legal_enc_full⟩
  simp only [EncRegs.lookup, Option.map_eq_none_iff, List.find?_eq_none, Bool.and_eq_true, decide_eq_true_eq, not_and]
  intro e he h
  obtain ⟨i, hi, rfl⟩ := tableOf_mem he
  have := congrArg BitVec.toNat h
  have h2 : encFullRegs.curCode.toNat = 4095 := by decide
  rw [h2] at this
  simp only [BitVec.toNat_ofNat] at this
  omega
theorem test_witness_EncFinishClosesTheStream :
    let u : EncUnit := { encU with regs := { encU.regs with inPos := 4 } }
    u.phase = .run ∧ u.started = true ∧ u.cmd.S.length ≤ u.regs.inPos ∧ u.regs.Legal :=
  let h := test_legal_enc
  ⟨rfl, rfl, by decide, h.m_range, h.clear_eq, h.eoi_eq, h.next_range, h.width_eq, h.cur_legal, h.nbits_lt, h.acc_lt,
    h.sbLen_le, h.table_codes, h.table_size, h.table_keys, h.table_links⟩
theorem test_witness_PutByteClosesFullSubBlocks : ({ encU.regs with sbLen := 253 } : EncRegs).sbLen.toNat < 254 ∧
    ({ encU.regs with sbLen := 254 } : EncRegs).sbLen.toNat = 254 := by decide
/-- The widest emission: 7 bits held and a code of 12 bits, with 254 bytes in the sub-block. -/
theorem test_witness_EmitCodeAppendsItsBits :
    let r : EncRegs := { encU.regs with nbits := 7, acc := 127, width := 12, sbLen := 254 }
    r.nbits.toNat < 8 ∧ r.acc.toNat < 2 ^ r.nbits.toNat ∧ r.width.toNat ≤ 12 ∧ r.sbLen.toNat ≤ 254 ∧
      (0xFFF#12).toNat < 2 ^ r.width.toNat := by decide
theorem test_witness_EmittedCodesFitTheWidth :
    encU.regs.Legal ∧ encFullRegs.Legal ∧ 2049 ≤ encFullRegs.nextCode.toNat :=
  ⟨test_legal_enc, test_legal_enc_full, by decide⟩
theorem test_witness_EncoderStepFrame :
    (IsEncStep .encStart ∧ ∃ t, exec .encStart (encNew 2#8 [0]) = .next t) ∧
    (IsEncStep (.encHit 1#8) ∧ ∃ t, exec (.encHit 1#8) (withEnc { encU with regs := encGrow }) = .next t) ∧
    (IsEncStep (.encMiss 1#8) ∧ ∃ t, exec (.encMiss 1#8) (withEnc encU) = .next t) ∧
    (IsEncStep (.encFull 1#8) ∧
      ∃ t, exec (.encFull 1#8) (withEnc { encU with regs := { encU.regs with nextCode := 4096, width := 12 } }) = .next t) ∧
    (IsEncStep .encFinish ∧
      ∃ t, exec .encFinish (withEnc { encU with regs := { encU.regs with inPos := 4 } }) = .next t) :=
  ⟨⟨.inl rfl, goes (by decide)⟩, ⟨.inr (.inl ⟨_, rfl⟩), goes (by decide)⟩,
    ⟨.inr (.inr (.inl ⟨_, rfl⟩)), goes (by decide)⟩, ⟨.inr (.inr (.inr (.inl ⟨_, rfl⟩))), goes (by decide)⟩,
    ⟨.inr (.inr (.inr (.inr rfl))), goes (by decide)⟩⟩

/-! ### The decoder's framing -/

theorem test_witness_LegalMinCodeSizeByteStartsDecoding : ∀ b ∈ [2#8, 8#8],
    (decNew [b]).dec.phase = .run ∧ (decNew [b]).dec.started = false ∧ (decNew [b]).dec.cmd.src[0]? = some b ∧
      2 ≤ b.toNat ∧ b.toNat ≤ 8 := by decide
theorem test_witness_IllegalMinCodeSizeByteFaults : ∀ b ∈ [1#8, 9#8],
    (decNew [b]).dec.phase = .run ∧ (decNew [b]).dec.started = false ∧ (decNew [b]).dec.cmd.src[0]? = some b ∧
      (b.toNat < 2 ∨ 8 < b.toNat) := by decide
theorem test_witness_LengthByteOpensASubBlock :
    decU.NeedsByte ∧ decU.regs.sbRem = 0#8 ∧ decU.regs.terminated = false ∧ decU.cmd.src[1]? = some 3#8 ∧ 3#8 ≠ 0#8 :=
  ⟨⟨rfl, rfl, by decide⟩, rfl, rfl, rfl, by decide⟩
theorem test_witness_TerminatorEndsByExhaustion :
    let u : DecUnit := { decU with regs := { decU.regs with srcPos := 5 } }
    u.NeedsByte ∧ u.regs.sbRem = 0#8 ∧ u.regs.terminated = false ∧ u.cmd.src[u.regs.srcPos]? = some 0#8 :=
  ⟨⟨rfl, rfl, by decide⟩, rfl, rfl, rfl⟩
/-- Eleven bits held below a width of 12. -/
theorem test_witness_DataByteFillsTheAccumulator :
    let u : DecUnit :=
      { decU with regs := { decU.regs with srcPos := 2, sbRem := 3, width := 12, nbits := 11, acc := 0x7FF } }
    u.NeedsByte ∧ u.regs.sbRem ≠ 0#8 ∧ u.cmd.src[u.regs.srcPos]? = some 0x44#8 ∧ u.regs.width.toNat ≤ 12 ∧
      u.regs.acc.toNat < 2 ^ u.regs.nbits.toNat :=
  ⟨⟨rfl, rfl, by decide⟩, by decide, rfl, by decide, by decide⟩
theorem test_witness_MissingSourceByteFaultsOrExhausts :
    ((decNew []).nextAgent = some .dec ∧ (decNew []).dec.started = false ∧ (decNew []).dec.cmd.src.length ≤ 0) ∧
    (let u : DecUnit := { decU with cmd := ⟨[2#8], 0, 4, false⟩ };
      (withDec u).nextAgent = some .dec ∧ u.NeedsByte ∧ u.regs.terminated = false ∧ u.cmd.src.length ≤ u.regs.srcPos) ∧
    (let u : DecUnit := { decU with cmd := ⟨[2#8], 0, 4, false⟩, regs := { decU.regs with sbRem := 1 } };
      (withDec u).nextAgent = some .dec ∧ u.NeedsByte ∧ u.regs.sbRem ≠ 0#8 ∧ u.cmd.src.length ≤ u.regs.srcPos) ∧
    (let u : DecUnit := { decU with regs := { decU.regs with terminated := true } };
      (withDec u).nextAgent = some .dec ∧ u.NeedsByte ∧ u.regs.sbRem = 0#8 ∧ u.regs.terminated = true) :=
  ⟨by decide, ⟨by decide, ⟨rfl, rfl, by decide⟩, rfl, by decide⟩,
    ⟨by decide, ⟨rfl, rfl, by decide⟩, by decide, by decide⟩, by decide, ⟨rfl, rfl, by decide⟩, rfl, rfl⟩

/-! ### The decoder's codes -/

theorem test_witness_EveryCodeHasExactlyOneClass :
    ctx.ok = true ∧ 15 < 2 ^ ctx.width ∧
      CodeCtx.ok { ctx with next := 4096, width := 12 } = true ∧ 4095 < 2 ^ ({ ctx with width := 12 } : CodeCtx).width := by
  decide
theorem test_witness_FirstDataCodeIsALiteral :
    decU.regs.Legal ∧ decU.regs.prevValid = false ∧
      ∀ c ∈ [3, 6, 7], c < 2 ^ decU.regs.width.toNat ∧ c ≠ decU.regs.clearCode.toNat ∧ c ≠ decU.regs.eoiCode.toNat ∧
        (c < decU.regs.clearCode.toNat ∨ c = decU.regs.eoiCode.toNat + 1 ∨ decU.regs.eoiCode.toNat + 1 < c) :=
  ⟨test_legal_dec, rfl, by decide⟩
/-- A unit whose accumulator holds a code. -/
theorem holds {r : DecRegs} {acc : BitVec 20} {c : Nat} (hw : r.width.toNat ≤ 8)
    (hc : ({ r with acc := acc, nbits := 8 } : DecRegs).codeHeld = c) : (holding r acc).dec.HoldsCode c :=
  ⟨rfl, rfl, hw, hc⟩
theorem test_witness_ClearResetsTheDecoder :
    (holding decU.regs 4).dec.HoldsCode 4 ∧ 4 = (holding decU.regs 4).dec.regs.clearCode.toNat :=
  ⟨holds (by decide) (by decide), by decide⟩
theorem test_witness_EoiEndsDecoding :
    (holding decU.regs 5).dec.HoldsCode 5 ∧ 5 ≠ decU.regs.clearCode.toNat ∧ 5 = decU.regs.eoiCode.toNat :=
  ⟨holds (by decide) (by decide), by decide, by decide⟩
/-- The last cell of the output. -/
theorem test_witness_LiteralWritesItsIndex :
    (holding { decU.regs with outPos := 3 } 3).dec.HoldsCode 3 ∧ 3 ≠ decU.regs.clearCode.toNat ∧
      3 ≠ decU.regs.eoiCode.toNat ∧ 3 < decU.regs.clearCode.toNat ∧ 3#8 = BitVec.ofNat 8 3 ∧
      3 + 1 ≤ decU.cmd.outputLength :=
  ⟨holds (by decide) (by decide), by decide, by decide, by decide, rfl, by decide⟩
theorem test_witness_TableCodeWritesItsRun :
    decD4.HoldsCode (10#12).toNat ∧ (10#12).toNat ≠ decD4.regs.clearCode.toNat ∧
      (10#12).toNat ≠ decD4.regs.eoiCode.toNat ∧ decD4.regs.clearCode.toNat ≤ (10#12).toNat ∧
      (10#12).toNat < decD4.regs.nextCode.toNat ∧ decD4.regs.seq 10 = some [1#8, 2#8] ∧
      decD4.regs.outPos + 2 ≤ decD4.cmd.outputLength :=
  ⟨⟨rfl, rfl, by decide, by decide⟩, by decide, by decide, by decide, by decide, by decide, by decide⟩
theorem test_witness_KwkwkCodeWritesItsRun :
    decKwk.HoldsCode (6#12).toNat ∧ (6#12).toNat ≠ decKwk.regs.clearCode.toNat ∧
      (6#12).toNat ≠ decKwk.regs.eoiCode.toNat ∧ decKwk.regs.clearCode.toNat ≤ (6#12).toNat ∧
      (6#12).toNat = decKwk.regs.nextCode.toNat ∧ decKwk.regs.prevValid = true ∧
      decKwk.regs.seq decKwk.regs.prevCode = some [0#8] ∧ decKwk.regs.outPos + (0 + 2) ≤ decKwk.cmd.outputLength :=
  ⟨⟨rfl, rfl, by decide, by decide⟩, by decide, by decide, by decide, by decide, rfl, by decide, by decide⟩
theorem test_witness_KwkwkEntryStandsForItsRun :
    (withDec decKwk).Inv ∧ decKwk.started = true ∧ decKwk.regs.kwkRun = some [0#8, 0#8] ∧
      ∃ t, exec (.kwk 6#12) (withDec decKwk) = .next t ∧ t.dec.phase = .run := by
  obtain ⟨t, h, hp⟩ := ran (p := fun t => decide (t.dec.phase = .run))
    (show after (exec (.kwk 6#12) (withDec decKwk)) _ = true by decide)
  exact ⟨test_inv_kwk, rfl, by decide, t, h, by simpa using hp⟩
/-- One index too many for each class of data code, in both modes. -/
theorem test_witness_OverflowingRunIsDroppedWhole : ∀ strict ∈ [false, true],
    (let u : DecUnit := { decU with cmd := ⟨[], 0, 4, strict⟩, regs := { decU.regs with outPos := 4, acc := 1, nbits := 3 } };
      u.selects (.lit 1#8) = true ∧ u.regs.runOf (.lit 1#8) = some (1#12, [1#8]) ∧
        u.cmd.outputLength < u.regs.outPos + 1 ∧ u.cmd.strict = strict) ∧
    (let u : DecUnit := { decD4 with cmd := ⟨[], 0, 3, strict⟩ };
      u.selects (.tab 10#12) = true ∧ u.regs.runOf (.tab 10#12) = some (10#12, [1#8, 2#8]) ∧
        u.cmd.outputLength < u.regs.outPos + 2) ∧
    (let u : DecUnit := { decKwk with cmd := ⟨[], 0, 2, strict⟩ };
      u.selects (.kwk 6#12) = true ∧ u.regs.runOf (.kwk 6#12) = some (6#12, [0#8, 0#8]) ∧
        u.cmd.outputLength < u.regs.outPos + 2) := by decide
theorem test_witness_IllegalCodesFault :
    ((holding decU.regs 6).dec.HoldsCode (6#12).toNat ∧ (6#12).toNat = decU.regs.nextCode.toNat ∧
      decU.regs.prevValid = false) ∧
    ((holding decU.regs 7).dec.HoldsCode (7#12).toNat ∧ decU.regs.nextCode.toNat < (7#12).toNat) ∧
    ∀ c ∈ [6#12, 7#12], c.toNat ≠ decU.regs.clearCode.toNat ∧ c.toNat ≠ decU.regs.eoiCode.toNat ∧
      decU.regs.clearCode.toNat ≤ c.toNat :=
  ⟨⟨holds (by decide) (by decide), by decide, rfl⟩, ⟨holds (by decide) (by decide), by decide⟩, by decide⟩
theorem test_witness_ConsumedCodeIsTheNextBits : (holding decU.regs 6).dec.regs.width.toNat ≤ 8 := by decide
theorem test_witness_InsertAddsOneEntry :
    (dec7.prevValid = true ∧ dec7.nextCode.toNat < 4096) ∧ decU.regs.prevValid = false ∧
      4096 ≤ ({ dec7 with nextCode := 4096 } : DecRegs).nextCode.toNat := by decide
theorem test_witness_WriteRunWritesItsCells : 1 < ([1#8, 2#8] : List Index).length ∧
    (1 < decD4.regs.outPos ∨ decD4.regs.outPos + 2 ≤ 1) ∧ (4 < decD4.regs.outPos ∨ decD4.regs.outPos + 2 ≤ 4) := by decide
theorem test_witness_FinishChecksTheLength :
    (decU.endReason ≠ .overflow ∧ decU.regs.outPos ≠ decU.cmd.outputLength ∧ decU.cmd.strict = false) ∧
    { decU.cmd with strict := true }.strict = true ∧ ({ decU with endReason := .overflow } : DecUnit).endReason = .overflow := by
  decide
theorem test_witness_EveryDataCodeHasItsSequence :
    dec7.Legal ∧ (3#12).toNat < dec7.clearCode.toNat ∧ dec7.eoiCode.toNat < (6#12).toNat ∧
      (6#12).toNat < dec7.nextCode.toNat := ⟨test_legal_dec7, by decide, by decide, by decide⟩
theorem test_witness_TwoPhaseChaseWritesTheSequence :
    dec7.Legal ∧ DataCodeBelow dec7.clearCode.toNat dec7.eoiCode.toNat dec7.nextCode.toNat (6#12).toNat ∧
      dec7.prevValid = true :=
  ⟨test_legal_dec7, .inr (by decide), rfl⟩
theorem test_witness_DecoderStepFrame :
    (IsDecStep (.bMcs 2#8) ∧ ∃ t, exec (.bMcs 2#8) (decNew [2#8]) = .next t) ∧
    (IsDecStep (.bLen 3#8) ∧ ∃ t, exec (.bLen 3#8) (withDec decU) = .next t) ∧
    (IsDecStep .bTerm ∧
      ∃ t, exec .bTerm (withDec { decU with regs := { decU.regs with srcPos := 5 } }) = .next t) ∧
    (IsDecStep (.bData 0x44#8) ∧
      ∃ t, exec (.bData 0x44#8) (withDec { decU with regs := { decU.regs with srcPos := 2, sbRem := 3 } }) = .next t) ∧
    (IsDecStep (.kwk 6#12) ∧ ∃ t, exec (.kwk 6#12) (withDec decKwk) = .next t) :=
  ⟨⟨.inl ⟨_, rfl⟩, goes (by decide)⟩, ⟨.inr (.inl ⟨_, rfl⟩), goes (by decide)⟩, ⟨.inr (.inr (.inl rfl)), goes (by decide)⟩,
    ⟨.inr (.inr (.inr (.inl ⟨_, rfl⟩))), goes (by decide)⟩, ⟨.inr (.inr (.inr (.inr rfl))), goes (by decide)⟩⟩

/-! ### Whole-machine statements -/

theorem test_witness_CursorsAdvanceInsideTheirBuffers :
    both.Inv ∧ (∃ t, step both = .next t) ∧ both.enc.phase = .run ∧ both.enc.started = true ∧ both.dec.phase = .run ∧
      (∃ t, step { both with sched := [.dec] } = .next t ∧ both.dec.regs.srcPos < t.dec.regs.srcPos) := by
  obtain ⟨t, h, hp⟩ := ran (p := fun t => decide (both.dec.regs.srcPos < t.dec.regs.srcPos))
    (show after (step { both with sched := [.dec] }) _ = true by decide)
  exact ⟨test_inv_both, goes (by decide), rfl, rfl, rfl, t, h, by simpa using hp⟩
theorem test_witness_FaultsArePrecise :
    ((encNew 9#8 [0]).Inv ∧ (encNew 9#8 [0]).enc.phase = .run ∧
      ∃ t, step (encNew 9#8 [0]) = .next t ∧ t.enc.phase = .fault) ∧
    (let s := withDec { decU with cmd := ⟨[2#8], 0, 4, false⟩ };
      s.Inv ∧ s.dec.phase = .run ∧ ∃ t, step s = .next t ∧ t.dec.phase = .fault) := by
  obtain ⟨t, h, hp⟩ := ran (p := fun t => decide (t.enc.phase = .fault))
    (show after (step (encNew 9#8 [0])) _ = true by decide)
  obtain ⟨u, k, kp⟩ := ran (p := fun t => decide (t.dec.phase = .fault))
    (show after (step (withDec { decU with cmd := ⟨[2#8], 0, 4, false⟩ })) _ = true by decide)
  refine ⟨⟨⟨fun _ => ⟨rfl, rfl⟩, fun h => absurd h (by decide), by decide⟩, rfl, t, h, by simpa using hp⟩, ?_, rfl, u, k,
    by simpa using kp⟩
  exact inv_dec (running_dec test_legal_dec (by decide) (by decide) ⟨rfl, rfl⟩ (by
    intro i hi; exact absurd hi (Nat.not_lt_zero i))) rfl (by decide)
/-- EOI with nothing produced: too short (tolerant and strict) and exact. -/
theorem test_witness_WarningsSayTheLength : ∀ n ∈ [0, 4], ∀ strict ∈ [false, true],
    (let s := withDec { decU with cmd := ⟨[2#8], 0, n, strict⟩, regs := { decU.regs with acc := 5, nbits := 8 } };
      s.dec.phase = .run ∧ s.dec.cmd.strict = strict ∧
        after (step s) (fun t => decide (t.dec.phase ≠ .run)) = true) := by decide
/-- LIT 1 with no room for it: OVERFLOW with `W_TOO_LONG` in tolerant mode, the fault in strict mode. -/
theorem test_witness_WarningsSayTheLength_overflow : ∀ strict ∈ [false, true],
    (let s := withDec { decU with cmd := ⟨[2#8], 0, 0, strict⟩, regs := { decU.regs with acc := 1, nbits := 8 } };
      s.dec.phase = .run ∧ s.dec.cmd.strict = strict ∧
        after (step s) (fun t => decide (t.dec.phase ≠ .run) && decide (t.dec.tooLong = !strict) &&
          decide (t.dec.phase = .done ∧ t.dec.endReason = .overflow ∨ strict = true)) = true) := by decide
/-- The states of both witnesses have the invariant. -/
theorem test_witness_WarningsSayTheLength_inv (n : Nat) (strict : Bool) (acc : BitVec 20) (h : acc.toNat < 2 ^ 8) :
    (withDec { decU with cmd := ⟨[2#8], 0, n, strict⟩, regs := { decU.regs with acc := acc, nbits := 8 } }).Inv := by
  refine inv_dec (running_dec (test_legal_acc acc 8 (by decide) h) ?_ (Nat.zero_le _) ⟨rfl, rfl⟩
    (by intro i hi; exact absurd hi (Nat.not_lt_zero i))) rfl rfl
  exact (by decide : 0 < 1 ∧ 1 ≤ ([2#8] : List Byte).length)
theorem test_witness_DecodeAndEncodeAgree :
    ctx.ok = true ∧ (∀ i ∈ [Instr.tab 6#12, .tab 7#12, .kwk 8#12, .illRange 15#12, .lit 3#8, .clr, .bMcs 8#8], i.wfIn ctx = true) ∧
      15 < 2 ^ ctx.width := by decide
theorem test_witness_DecodeBitsGivesBackTheCodeAndTheRest :
    ctx.ok = true ∧ (Instr.illRange 15#12).wfIn ctx = true ∧ (Instr.illRange 15#12).isCode = true := by decide
/-- The shortest and the longest sub-block, in the order the encoder never makes. -/
theorem test_witness_FramingGivesBackItsData :
    (∀ m ∈ [2#8, 8#8], 2 ≤ m.toNat ∧ m.toNat ≤ 8) ∧
      ∀ d ∈ [[5#8], List.replicate 255 0#8, [0#8]], 1 ≤ d.length ∧ d.length ≤ 255 := by
  refine ⟨by decide, ?_⟩
  intro d hd
  simp only [List.mem_cons, List.not_mem_nil, or_false] at hd
  rcases hd with rfl | rfl | rfl
  · decide
  · rw [List.length_replicate]; decide
  · decide
theorem test_witness_StepsRefineDecStep :
    decU.phase = .run ∧ decU.started = true ∧ decU.decStep.isSome = true ∧
      (let u : DecUnit := { decU with regs := { decU.regs with width := 13, nbits := 13, acc := 4096 } };
        u.phase = .run ∧ u.started = true ∧ u.decStep = none) := by decide
theorem test_witness_StepKeepsTheInvariant : both.Inv ∧ ∃ t, step both = .next t := ⟨test_inv_both, goes (by decide)⟩
theorem test_witness_StepFromInvariantNeverStops : both.Inv := test_inv_both
theorem test_witness_WidthGrowsAtPowersOfTwo :
    (encGrow.Legal ∧ encGrow.nextCode.toNat = 2 ^ encGrow.width.toNat ∧ encGrow.nextCode.toNat < 4096) ∧
      (dec7.Legal ∧ dec7.prevValid = true ∧ dec7.nextCode.toNat + 1 = 2 ^ dec7.width.toNat ∧ dec7.nextCode.toNat < 4096) :=
  ⟨⟨test_legal_enc_grow, by decide, by decide⟩, test_legal_dec7, rfl, by decide, by decide⟩
/-- Both `next_code`s equal to `8 = 2^3`, and both equal to 6, which is no power of two. -/
theorem test_witness_EncoderAndDecoderWidthsAgree_equal :
    (encGrow.Legal ∧ dec8.Legal ∧ encGrow.m = dec8.m ∧ dec8.nextCode.toNat = encGrow.nextCode.toNat ∧
      ∃ w, encGrow.m.toNat + 1 ≤ w ∧ w ≤ 11 ∧ encGrow.nextCode.toNat = 2 ^ w) ∧
    (encU.regs.Legal ∧ decU.regs.Legal ∧ encU.regs.m = decU.regs.m ∧
      decU.regs.nextCode.toNat = encU.regs.nextCode.toNat ∧
      ¬ ∃ w, encU.regs.m.toNat + 1 ≤ w ∧ w ≤ 11 ∧ encU.regs.nextCode.toNat = 2 ^ w) := by
  refine ⟨⟨test_legal_enc_grow, test_legal_dec8, by decide, by decide, 3, by decide, by decide, by decide⟩,
    test_legal_enc, test_legal_dec, by decide, by decide, ?_⟩
  rintro ⟨w, h1, -, h⟩
  have h3 : 2 ^ 3 ≤ 2 ^ w := Nat.pow_le_pow_right (by decide) h1
  rw [← h] at h3
  exact absurd h3 (by decide)
/-- One entry behind at the boundary (`next_code` 7 and 8), and both tables empty. -/
theorem test_witness_EncoderAndDecoderWidthsAgree :
    (encGrow.Legal ∧ dec7.Legal ∧ encGrow.m = dec7.m ∧ dec7.nextCode.toNat + 1 = encGrow.nextCode.toNat) ∧
      (encU.regs.Legal ∧ decU.regs.Legal ∧ encU.regs.m = decU.regs.m ∧
        encU.regs.nextCode.toNat = encU.regs.eoiCode.toNat + 1 ∧ decU.regs.nextCode.toNat = encU.regs.nextCode.toNat) :=
  ⟨⟨test_legal_enc_grow, test_legal_dec7, by decide, by decide⟩, test_legal_enc, test_legal_dec, by decide, by decide, by decide⟩
theorem test_witness_EncodeEndsAfterItsSteps :
    EncodeRecord.wf ⟨2#8, [0]⟩ = true ∧ ∃ t, exec (.encode ⟨2#8, [0]⟩) State.reset = .next t := ⟨by decide, goes (by decide)⟩
theorem test_witness_DecodeEndsWithinItsBound :
    (∃ t, exec (.decode ⟨[2#8], 0, 4, false⟩) State.reset = .next t) ∧ ([2#8] : List Byte)[0]? = some 2#8 ∧
      2 ≤ (2#8).toNat ∧ (2#8).toNat ≤ 8 := ⟨goes (by decide), by decide, by decide, by decide⟩
/-- V-E1, `m = 2`, `S = [0]`: the encoder's two steps, and a DECODE of what it made. -/
theorem test_witness_DecodeGivesBackWhatWasEncoded : ∃ t1 u1 d t2,
    EncodeRecord.wf ⟨2#8, [0]⟩ = true ∧ exec (.encode ⟨2#8, [0]⟩) State.reset = .next t1 ∧
      Host.Core.run Sys2Proof.core 2 (t1.onlyFor .enc 2) = .next u1 ∧ d.src = u1.enc.out ∧ d.p0 = 0 ∧
      d.outputLength = 1 ∧ exec (.decode d) State.reset = .next t2 ∧
      u1.enc.out = [2#8, 2#8, 0x44#8, 1#8, 0#8] := by
  obtain ⟨t1, h1, hp⟩ := ran (r := exec (.encode ⟨2#8, [0]⟩) State.reset)
    (p := fun t => after (Host.Core.run Sys2Proof.core 2 (t.onlyFor .enc 2)) fun u =>
      decide (u.enc.out = [2#8, 2#8, 0x44#8, 1#8, 0#8])) (by decide)
  obtain ⟨u1, h2, hu⟩ := ran hp
  exact ⟨t1, u1, ⟨u1.enc.out, 0, 1, true⟩, _, by decide, h1, h2, rfl, rfl, rfl, rfl, by simpa using hu⟩
theorem test_witness_ResultsDependOnlyOnTheRecords :
    (∃ t u, exec (.encode ⟨2#8, [0]⟩) State.reset = .next t ∧ t.hostq = [] ∧
      Host.Core.run Sys2Proof.core 2 (t.onlyFor .enc 2) = .next u ∧ u.enc.result.isSome = true) ∧
    (∃ t u, exec (.decode ⟨[9#8], 0, 0, false⟩) State.reset = .next t ∧ t.hostq = [] ∧
      Host.Core.run Sys2Proof.core 1 (t.onlyFor .dec 1) = .next u ∧ u.dec.result.isSome = true) := by
  constructor
  · obtain ⟨t, h1, hp⟩ := ran (r := exec (.encode ⟨2#8, [0]⟩) State.reset)
      (p := fun t => decide (t.hostq = []) && after (Host.Core.run Sys2Proof.core 2 (t.onlyFor .enc 2)) fun u =>
        u.enc.result.isSome) (by decide)
    obtain ⟨hq, hr⟩ := Bool.and_eq_true_iff.mp hp
    obtain ⟨u, h2, hu⟩ := ran hr
    exact ⟨t, u, h1, by simpa using hq, h2, hu⟩
  · obtain ⟨t, h1, hp⟩ := ran (r := exec (.decode ⟨[9#8], 0, 0, false⟩) State.reset)
      (p := fun t => decide (t.hostq = []) && after (Host.Core.run Sys2Proof.core 1 (t.onlyFor .dec 1)) fun u =>
        u.dec.result.isSome) (by decide)
    obtain ⟨hq, hr⟩ := Bool.and_eq_true_iff.mp hp
    obtain ⟨u, h2, hu⟩ := ran hr
    exact ⟨t, u, h1, by simpa using hq, h2, hu⟩
theorem test_witness_UnitStepsCommute :
    both.enc.phase = .run ∧ both.dec.phase = .run ∧
      ∃ t, Host.Core.run Sys2Proof.core 2 { both with sched := [.enc, .dec] } = .next t :=
  ⟨rfl, rfl, goes (by decide)⟩
theorem test_witness_BlocksAreIndependent :
    (∃ t, System.stepAt [both, State.reset] 0 = .next t) ∧ (0 : Nat) ≠ 1 ∧
      ∃ t, System.run [0, 1] [both, both] = .next t := ⟨⟨_, rfl⟩, by decide, ⟨_, rfl⟩⟩
/-- The largest and the smallest palette. -/
theorem test_witness_HostDutiesGiveALegalEncode :
    EncodeDuty 256 1 1 ⟨8#8, [255]⟩ ∧ EncodeDuty 2 2 2 ⟨2#8, [0, 1, 1, 0]⟩ ∧ 1 ≤ 1 * 1 := by
  have h8 : hostMinCodeSize 256 = 8 := by
    rw [hostMinCodeSize, show 256 = 2 ^ 8 from rfl, Nat.clog_pow 2 8 (by decide)]; rfl
  have h1 : hostMinCodeSize 2 = 2 := by
    have : Nat.clog 2 2 = 1 := by simpa using Nat.clog_pow 2 1 (by decide)
    rw [hostMinCodeSize, this]; rfl
  refine ⟨⟨⟨8, by decide, by decide, rfl⟩, by rw [h8]; rfl, rfl, by decide⟩, ⟨⟨1, by decide, by decide, rfl⟩, ?_, rfl, by decide⟩,
    by decide⟩
  rw [h1]; rfl

end Sys2Proof.Tests
end

/-! ## Scope: the units of a block and the blocks of a system share nothing (R3, R4, R44) -/

section

namespace Sys2Proof.Machine

/-! ### The two units of a block -/

section

variable {s : State} {rest : List Agent} (he : s.enc.phase = .run) (hd : s.dec.phase = .run)
include he hd

/-- A turn of each unit, ENC first: each unit takes its own step from the registers it had. -/
theorem run_enc_dec {u : DecUnit} (hs : s.sched = .enc :: .dec :: rest) (hu : s.dec.next? = some u) :
    Host.Core.run Sys2Proof.core 2 s = .next { s with sched := rest, enc := s.enc.next, dec := u } :=
  (run_next 1 (step_enc s _ hs he)).trans (run_next 0 (step_dec _ rest u rfl hd hu))

/-- When DEC has no next unit, its turn after ENC's stops the run. -/
theorem run_enc_dec_stops (hs : s.sched = .enc :: .dec :: rest) (hu : s.dec.next? = none) :
    ∃ f, Host.Core.run Sys2Proof.core 2 s = .fault f := by
  obtain ⟨f, hf⟩ := step_dec_stops { s with sched := .dec :: rest, enc := s.enc.next } rest rfl hd hu
  exact ⟨f, (run_next 1 (step_enc s _ hs he)).trans (run_fault 0 hf)⟩

/-- A turn of each unit, DEC first. -/
theorem run_dec_enc {u : DecUnit} (hs : s.sched = .dec :: .enc :: rest) (hu : s.dec.next? = some u) :
    Host.Core.run Sys2Proof.core 2 s = .next { s with sched := rest, enc := s.enc.next, dec := u } :=
  (run_next 1 (step_dec s _ u hs hd hu)).trans (run_next 0 (step_enc _ rest rfl he))

end

/-- Settles O58: in both orders each unit takes the step its own registers select, and a run that does not stop had a
next unit for DEC. -/
theorem unitStepsCommute : Obligations.UnitStepsCommute := by
  intro s he hd t h
  cases hu : s.dec.next? with
  | none =>
    obtain ⟨f, hf⟩ := run_enc_dec_stops (s := { s with sched := [.enc, .dec] }) he hd rfl hu
    cases hf.symm.trans h
  | some u =>
    have ht := (run_enc_dec (s := { s with sched := [.enc, .dec] }) he hd rfl hu).symm.trans h
    exact (run_dec_enc (s := { s with sched := [.dec, .enc] }) he hd rfl hu).trans ht

/-! ### The blocks of a system -/

namespace System

variable {sys t : System} {i j : Nat}

theorem stepAt_vacant (hi : sys[i]? = none) : sys.stepAt i = .next sys := by
  simp only [stepAt, hi]

theorem stepAt_block {s s' : State} (hi : sys[i]? = some s) (hs : step s = .next s') :
    sys.stepAt i = .next (sys.set i s') := by
  simp only [stepAt, hi, hs]

/-- What a move of a system can be: none where there is no block, and otherwise one step of that block in its place. -/
theorem stepAt_cases (h : sys.stepAt i = .next t) :
    (sys[i]? = none ∧ t = sys) ∨ ∃ s s', sys[i]? = some s ∧ step s = .next s' ∧ t = sys.set i s' := by
  simp only [stepAt] at h
  split at h
  · next hi => cases h; exact .inl ⟨hi, rfl⟩
  · next s hi =>
    split at h
    · next s' hs => cases h; exact .inr ⟨s, s', hi, hs, rfl⟩
    · cases h
    · cases h

theorem stepAt_other (h : sys.stepAt i = .next t) (hj : j ≠ i) : t[j]? = sys[j]? := by
  rcases stepAt_cases h with ⟨-, rfl⟩ | ⟨s, s', -, -, rfl⟩
  · rfl
  · exact List.getElem?_set_ne hj.symm

theorem run_pair_iff :
    run [i, j] sys = .next t ↔ ∃ u, sys.stepAt i = .next u ∧ u.stepAt j = .next t := by
  simp only [run]
  cases sys.stepAt i with
  | next u => cases hj : u.stepAt j <;> simp [hj]
  | fault f => simp
  | refused r => simp

/-- A move of one block may be put before a move of another that it followed. -/
theorem stepAt_swap {u : System} (hij : i ≠ j) (hi : sys.stepAt i = .next u) (hj : u.stepAt j = .next t) :
    ∃ v, sys.stepAt j = .next v ∧ v.stepAt i = .next t := by
  have same : u[j]? = sys[j]? := stepAt_other hi hij.symm
  rcases stepAt_cases hj with ⟨vacant, rfl⟩ | ⟨r, r', atJ, hr, rfl⟩
  · exact ⟨sys, stepAt_vacant (same.symm.trans vacant), hi⟩
  · have hv : sys.stepAt j = .next (sys.set j r') := stepAt_block (same.symm.trans atJ) hr
    have kept : (sys.set j r')[i]? = sys[i]? := stepAt_other hv hij
    refine ⟨_, hv, ?_⟩
    rcases stepAt_cases hi with ⟨vacant, rfl⟩ | ⟨s, s', atI, hs, rfl⟩
    · exact stepAt_vacant (kept.trans vacant)
    · rw [stepAt_block (kept.trans atI) hs, List.set_comm _ _ hij.symm]

end System

/-- Settles O59: a move replaces one element of the list, and depends on that element only. -/
theorem blocksAreIndependent : Obligations.BlocksAreIndependent := by
  refine ⟨fun sys t i j h hj => System.stepAt_other h hj, fun sys t i j hij h => ?_⟩
  obtain ⟨u, hi, hj⟩ := System.run_pair_iff.mp h
  exact System.run_pair_iff.mpr (System.stepAt_swap hij hi hj)

end Sys2Proof.Machine

end

/-! ## State: the block's invariant, its cursors, and results that depend on the record alone (R17 to R30, R36, R43) -/

section

namespace Sys2Proof.Machine

/-! ### A step keeps the invariant and never stops -/

/-- The canonical form of the block's memories, unit by unit. -/
theorem State.memWf_iff (s : State) :
    s.memWf = true ↔ Memory.wf s.enc.regs.sbBuf.cells = true ∧ s.dec.memWf := by
  simp only [State.memWf, DecUnit.memWf, Bool.and_eq_true, and_assoc]

theorem State.inv_iff (s : State) :
    s.Inv ↔ (s.enc.Inv ∧ Memory.wf s.enc.regs.sbBuf.cells = true) ∧ s.dec.Inv ∧ s.dec.memWf := by
  rw [State.Inv, State.memWf_iff]
  tauto

theorem DecUnit.next?_inv {u v : DecUnit} (hr : u.phase = .run) (h : u.Inv) (hv : u.next? = some v) : v.Inv := by
  obtain ⟨w, hw, goes⟩ := u.next?_goes hr h
  cases hw.symm.trans hv
  exact goes.inv

/-- Outside RUN nothing is claimed of a decoder, so the host may write its `IDX`. -/
theorem DecUnit.inv_of_not_running {u : DecUnit} (h : u.phase ≠ .run) : u.Inv := fun hr => absurd hr h

/-- Settles O50: a step changes at most one unit, by the start of a command, a write of `IDX` or the unit's own next
step, and each of them keeps that unit's invariant and the form of its memories. -/
theorem stepKeepsTheInvariant : Obligations.StepKeepsTheInvariant := by
  intro s t hs h
  have ⟨⟨encInv, encWf⟩, decInv, decWf⟩ := s.inv_iff.mp hs
  rw [State.inv_iff]
  rcases step_cases h with ⟨-, rfl⟩ | ⟨r, rest, -, -, rfl⟩ | ⟨r, rest, -, -, rfl⟩ | ⟨pos, v, rest, -, idle, rfl⟩ |
    ⟨run, rfl⟩ | ⟨u, run, hu, rfl⟩
  · exact ⟨⟨encInv, encWf⟩, decInv, decWf⟩
  · exact ⟨⟨EncUnit.begin_inv r _, Store.wf_fresh _⟩, decInv, decWf⟩
  · exact ⟨⟨encInv, encWf⟩, DecUnit.begin_inv r _ _, Store.wf_fresh _, Store.wf_fresh _, decWf.2.2⟩
  · exact ⟨⟨encInv, encWf⟩, DecUnit.inv_of_not_running idle, decWf.1, decWf.2.1, Memory.wf_write pos v decWf.2.2⟩
  · exact ⟨⟨s.enc.next_inv run encInv, s.enc.next_wf encWf⟩, decInv, decWf⟩
  · exact ⟨⟨encInv, encWf⟩, DecUnit.next?_inv run decInv hu, s.dec.next?_wf u decWf hu⟩

/-- Settles O51: the host moves only where it may, ENC always has a next unit, and DEC has one from the invariant. -/
theorem stepFromInvariantNeverStops : Obligations.StepFromInvariantNeverStops := by
  intro s hs
  have turn : ∀ a, s.nextAgent = some a → s.nextTurn.ready a = true := fun _ => State.nextAgent_ready
  simp only [step]
  cases hn : s.nextAgent with
  | none => exact ⟨s, rfl⟩
  | some a =>
    cases a with
    | host =>
      rcases stepHost_eq _ (turn _ hn) with ⟨_, _, -, -, h⟩ | ⟨_, _, -, -, h⟩ | ⟨_, _, _, -, -, h⟩ <;> exact ⟨_, h⟩
    | enc => exact ⟨_, stepEnc_eq s.nextTurn (of_decide_eq_true (turn _ hn))⟩
    | dec =>
      have run : s.dec.phase = .run := of_decide_eq_true (turn _ hn)
      obtain ⟨v, hv, -⟩ := s.dec.next?_goes run hs.2.1
      rcases stepDec_eq s.nextTurn run with ⟨u, -, h⟩ | ⟨stuck, -⟩
      · exact ⟨_, h⟩
      · cases hv.symm.trans stuck

/-! ### The cursors (R20, R36, R43) -/

/-- One step of a running encoder moves `in_pos` by at most 1, inside `S`. -/
theorem EncUnit.next_inPos (u : EncUnit) (h : u.Running) (hs : u.started = true) :
    u.next.cmd = u.cmd ∧ u.regs.inPos ≤ u.next.regs.inPos ∧ u.next.regs.inPos ≤ u.regs.inPos + 1 ∧
      u.next.regs.inPos ≤ u.cmd.S.length := by
  obtain ⟨bits, emitted⟩ := h.emitted
  by_cases hlt : u.regs.inPos < u.cmd.S.length
  · obtain ⟨-, -, -, -, -, -, hcmd, -, -, hpos⟩ := u.index_step_running bits h hs hlt emitted
    exact ⟨hcmd, by omega, by omega, by omega⟩
  · have hend : u.view.atEnd = true := by simp [EncUnit.view]; omega
    have hnext : u.next = u.finish := by simp [EncUnit.next, hs, hend]
    obtain ⟨-, -, -, -, -, -, -, -, -, hpos, hcmd⟩ := u.finish_emitted bits h emitted
    have := h.pos_range
    rw [hnext]
    exact ⟨hcmd, by omega, by omega, by omega⟩

/-- `u` becomes `v` by writing `IDX` only at cells not yet produced and below `output_length` (R36). -/
def DecUnit.WritesInBounds (u v : DecUnit) : Prop :=
  ∀ a, (u.cmd.outputLength ≤ a ∨ a < u.regs.outPos) → Memory.read v.idx a = Memory.read u.idx a

theorem DecUnit.writesInBounds_of_idx {u v : DecUnit} (h : v.idx = u.idx) : u.WritesInBounds v := fun _ _ => by rw [h]

theorem DecUnit.finish_idx (u : DecUnit) : u.finish.idx = u.idx := by rw [DecUnit.finish_status_only]

theorem DecUnit.start_idx (u : DecUnit) (b : Byte) : (u.start b).idx = u.idx := by
  simp only [DecUnit.start]
  split <;> rfl

theorem DecUnit.start_cursor (u : DecUnit) (b : Byte) :
    (u.start b).cmd = u.cmd ∧ (u.start b).regs.srcPos = u.cmd.p0 + 1 := by
  simp only [DecUnit.start]
  split <;> exact ⟨rfl, rfl⟩

/-- A run is written whole when it fits, from `out_pos` on, and not at all when it does not (R92). -/
theorem DecUnit.dataCode_inBounds (u : DecUnit) (c : Code) (f : Index) (rest : List Index) :
    u.WritesInBounds (u.dataCode c f rest) := by
  by_cases hfit : u.regs.outPos + (f :: rest).length ≤ u.cmd.outputLength
  · intro a ha
    rw [DecUnit.dataCode_fits u c f rest hfit, DecUnit.insert_regs_only, DecUnit.setPrev_idx, DecUnit.writeRun_idx,
      Memory.read_writeRun, if_neg (by omega)]
  · rw [DecUnit.dataCode_overflows u c f rest (by omega)]
    exact DecUnit.writesInBounds_of_idx u.overflow_reader.2.1

/-- Everything a code can make of a unit, once it is out of the accumulator (R83). -/
theorem DecUnit.act_cases {u v : DecUnit} {i : Instr} (h : u.act i = some v) :
    v = u.resetTable ∨ v = (u.setEndReason .eoi).finish ∨ (∃ c f rest, v = u.dataCode c f rest) ∨
      ∃ cause info, v = u.raise cause info := by
  cases i <;> simp only [DecUnit.act, Option.some.injEq, reduceCtorEq] at h
  case clr => exact .inl h.symm
  case eoi => exact .inr (.inl h.symm)
  case lit k => exact .inr (.inr (.inl ⟨_, _, _, h.symm⟩))
  case tab c =>
    split at h
    · exact .inr (.inr (.inl ⟨_, _, _, (Option.some.inj h).symm⟩))
    · cases h
  case kwk c =>
    split at h
    · exact .inr (.inr (.inl ⟨_, _, _, (Option.some.inj h).symm⟩))
    · cases h
  case illNoPrev c => exact .inr (.inr (.inr ⟨_, _, h.symm⟩))
  case illRange c => exact .inr (.inr (.inr ⟨_, _, h.symm⟩))

theorem DecUnit.act_inBounds {u v : DecUnit} {i : Instr} (h : u.act i = some v) : u.WritesInBounds v := by
  rcases DecUnit.act_cases h with rfl | rfl | ⟨c, f, rest, rfl⟩ | ⟨cause, info, rfl⟩
  · exact DecUnit.writesInBounds_of_idx rfl
  · exact DecUnit.writesInBounds_of_idx (DecUnit.finish_idx _)
  · exact u.dataCode_inBounds c f rest
  · exact DecUnit.writesInBounds_of_idx rfl

/-- What one step of a decoder does to its cursor in `SRC`: it stays, or it passes one byte that `SRC` has. -/
def DecUnit.ReadsAtMostOne (u v : DecUnit) : Prop :=
  v.cmd = u.cmd ∧
    (v.regs.srcPos = u.regs.srcPos ∨ v.regs.srcPos = u.regs.srcPos + 1 ∧ u.regs.srcPos < u.cmd.src.length)

/-- One step of a decoder in a command reads at most one byte and writes `IDX` in bounds. -/
theorem DecUnit.next?_cursors {u v : DecUnit} (hr : u.phase = .run) (h : u.Inv) (hv : u.next? = some v) :
    u.ReadsAtMostOne v ∧ u.WritesInBounds v := by
  have inSrc : ∀ {a b}, u.cmd.src[a]? = some b → a < u.cmd.src.length := fun hb =>
    (List.getElem?_eq_some_iff.mp hb).1
  have h := h hr
  cases hs : u.started with
  | false =>
    rw [hs, if_neg (by simp)] at h
    rcases u.first_step hs with ⟨-, he⟩ | ⟨b, hb, he⟩ <;> cases he.symm.trans hv
    · exact ⟨⟨rfl, .inl rfl⟩, DecUnit.writesInBounds_of_idx rfl⟩
    · obtain ⟨hcmd, hpos⟩ := u.start_cursor b
      rw [← h.2.1] at hb hpos
      exact ⟨⟨hcmd, .inr ⟨hpos, inSrc hb⟩⟩, DecUnit.writesInBounds_of_idx (u.start_idx b)⟩
  | true =>
    rw [hs, if_pos rfl] at h
    rcases u.running_step h hs with ⟨-, -, he⟩ | ⟨-, -, hb, he⟩ | ⟨b, -, -, hb, -, he⟩ | ⟨b, -, -, hb, he⟩ |
      ⟨-, -, -, he⟩
    · cases he.symm.trans hv
      exact ⟨⟨rfl, .inl rfl⟩, DecUnit.writesInBounds_of_idx rfl⟩
    · cases he.symm.trans hv
      rw [DecUnit.terminator, DecUnit.exhaust, DecUnit.finish_status_only]
      exact ⟨⟨rfl, .inr ⟨rfl, inSrc hb⟩⟩, DecUnit.writesInBounds_of_idx rfl⟩
    · cases he.symm.trans hv
      exact ⟨⟨rfl, .inr ⟨rfl, inSrc hb⟩⟩, DecUnit.writesInBounds_of_idx rfl⟩
    · cases he.symm.trans hv
      exact ⟨⟨rfl, .inr ⟨rfl, inSrc hb⟩⟩, DecUnit.writesInBounds_of_idx rfl⟩
    · have acted := he.symm.trans hv
      have frame := DecUnit.act_reader _ _ _ acted
      exact ⟨⟨frame.cmd, .inl frame.srcPos⟩, DecUnit.act_inBounds (u := u.consumeCode) acted⟩

/-- A step leaves an encoder in RUN as it was, or makes that unit's next move. -/
theorem step_enc_in_run {s t : State} (h : step s = .next t) (run : s.enc.phase = .run) :
    t.enc = s.enc ∨ t.enc = s.enc.next := by
  rcases step_cases h with ⟨-, rfl⟩ | ⟨_, _, -, idle, -⟩ | ⟨_, _, -, -, rfl⟩ | ⟨_, _, _, -, -, rfl⟩ | ⟨-, rfl⟩ |
    ⟨_, -, -, rfl⟩
  · exact .inl rfl
  · exact absurd run idle
  · exact .inl rfl
  · exact .inl rfl
  · exact .inr rfl
  · exact .inl rfl

/-- A step leaves a decoder in RUN as it was, or makes that unit's next move. -/
theorem step_dec_in_run {s t : State} (h : step s = .next t) (run : s.dec.phase = .run) :
    t.dec = s.dec ∨ s.dec.next? = some t.dec := by
  rcases step_cases h with ⟨-, rfl⟩ | ⟨_, _, -, -, rfl⟩ | ⟨_, _, -, idle, -⟩ | ⟨_, _, _, -, idle, -⟩ | ⟨-, rfl⟩ |
    ⟨_, -, hu, rfl⟩
  · exact .inl rfl
  · exact .inl rfl
  · exact absurd run idle
  · exact absurd run idle
  · exact .inl rfl
  · exact .inr hu

/-- Settles O39: within a command only the unit's own next move touches its cursors, and that move passes at most one
position that the buffer has. -/
theorem cursorsAdvanceInsideTheirBuffers : Obligations.CursorsAdvanceInsideTheirBuffers := by
  intro s t hs h
  obtain ⟨encInv, decInv, -⟩ := hs
  constructor
  · intro run started
    have running : s.enc.Running := by simpa only [started, if_true] using encInv run
    rcases step_enc_in_run h run with kept | moved
    · rw [kept]
      exact ⟨Nat.le_refl _, Nat.le_succ _, running.pos_range.2⟩
    · obtain ⟨hcmd, hpos⟩ := s.enc.next_inPos running started
      rw [moved, hcmd]
      exact hpos
  · intro run
    rcases step_dec_in_run h run with kept | moved
    · rw [kept]
      exact ⟨Nat.le_refl _, Nat.le_succ _, fun lt => absurd lt (Nat.lt_irrefl _), fun _ _ => rfl⟩
    · obtain ⟨⟨hcmd, hpos⟩, inBounds⟩ := DecUnit.next?_cursors run decInv moved
      rw [hcmd]
      exact ⟨by omega, by omega, by omega, inBounds⟩

/-! ### A result depends only on the command record (R30)

Two runs of one record are compared move by move.  They may differ in what the command has not set (free values, stale
storage, cells of `IDX`), and every operation keeps the difference there. -/

/-! #### The moves of one unit in a run scheduled for it -/

theorem run_succ_next {k : Nat} {s u : State} (h : Host.Core.run Sys2Proof.core (k + 1) s = .next u) :
    ∃ t, step s = .next t ∧ Host.Core.run Sys2Proof.core k t = .next u := by
  have inv : ∀ (M : Host.Core) (x y : M.State), M.run (k + 1) x = .next y →
      ∃ z, M.step x = .next z ∧ M.run k z = .next y := by
    intro M x y hxy
    simp only [Host.Core.run] at hxy
    split at hxy
    · next z hz => exact ⟨z, hz, hxy⟩
    · cases hxy
    · cases hxy
  exact inv Sys2Proof.core s u h

/-- With no host move waiting, a unit that is not in RUN stays as it is. -/
theorem step_rests {s t : State} (hq : s.hostq = []) (h : step s = .next t) :
    t.hostq = [] ∧ (s.enc.phase ≠ .run → t.enc = s.enc) ∧ (s.dec.phase ≠ .run → t.dec = s.dec) := by
  rcases step_cases h with ⟨-, rfl⟩ | ⟨_, _, waits, -, -⟩ | ⟨_, _, waits, -, -⟩ | ⟨_, _, _, waits, -, -⟩ | ⟨run, rfl⟩ |
    ⟨_, run, -, rfl⟩
  · exact ⟨hq, fun _ => rfl, fun _ => rfl⟩
  · cases hq.symm.trans waits
  · cases hq.symm.trans waits
  · cases hq.symm.trans waits
  · exact ⟨hq, fun idle => absurd run idle, fun _ => rfl⟩
  · exact ⟨hq, fun _ => rfl, fun idle => absurd run idle⟩

theorem run_rests {k : Nat} {s u : State} (hq : s.hostq = []) (h : Host.Core.run Sys2Proof.core k s = .next u) :
    (s.enc.phase ≠ .run → u.enc = s.enc) ∧ (s.dec.phase ≠ .run → u.dec = s.dec) := by
  induction k generalizing s with
  | zero => cases h; exact ⟨fun _ => rfl, fun _ => rfl⟩
  | succ k ih =>
    obtain ⟨t, hstep, hrun⟩ := run_succ_next h
    obtain ⟨hq', encRests, decRests⟩ := step_rests hq hstep
    obtain ⟨encRun, decRun⟩ := ih hq' hrun
    exact ⟨fun idle => by rw [encRun (by rwa [encRests idle]), encRests idle],
      fun idle => by rw [decRun (by rwa [decRests idle]), decRests idle]⟩

/-- `k` turns of an encoder: a move each while it is in RUN, and then none. -/
def EncUnit.turns : Nat → EncUnit → EncUnit
  | 0, u => u
  | k + 1, u => if u.phase = .run then EncUnit.turns k u.next else u

/-- `k` turns of a decoder; none when one of its moves stops the machine. -/
def DecUnit.turns : Nat → DecUnit → Option DecUnit
  | 0, u => some u
  | k + 1, u => if u.phase = .run then u.next?.bind (DecUnit.turns k) else some u

theorem run_enc_turns {k : Nat} {s u : State} (hq : s.hostq = []) (hs : s.sched = List.replicate k .enc)
    (h : Host.Core.run Sys2Proof.core k s = .next u) : u.enc = s.enc.turns k := by
  induction k generalizing s with
  | zero => cases h; rfl
  | succ k ih =>
    by_cases run : s.enc.phase = .run
    · rw [run_next k (step_enc s _ hs run)] at h
      rw [EncUnit.turns, if_pos run]
      exact ih (s := { s with sched := _, enc := _ }) hq rfl h
    · rw [EncUnit.turns, if_neg run, (run_rests hq h).1 run]

theorem run_dec_turns {k : Nat} {s u : State} (hq : s.hostq = []) (hs : s.sched = List.replicate k .dec)
    (h : Host.Core.run Sys2Proof.core k s = .next u) : s.dec.turns k = some u.dec := by
  induction k generalizing s with
  | zero => cases h; rfl
  | succ k ih =>
    by_cases run : s.dec.phase = .run
    · rw [DecUnit.turns, if_pos run]
      cases hv : s.dec.next? with
      | none =>
        obtain ⟨f, hf⟩ := step_dec_stops s _ hs run hv
        cases (run_fault k hf).symm.trans h
      | some v =>
        rw [run_next k (step_dec s _ v hs run hv)] at h
        exact ih (s := { s with sched := _, dec := v }) hq rfl h
    · rw [DecUnit.turns, if_neg run, (run_rests hq h).2 run]

/-! #### Two encoders with one record -/

/-- `u` with other contents in `sb_buf` and in the two registers that the start step sets last (R68). -/
def EncUnit.withStale (u : EncUnit) (cur : Code) (pos : Nat) (buf : Store 8) : EncUnit :=
  { u with regs := { u.regs with curCode := cur, inPos := pos, sbBuf := buf } }

/-- Encoders that the bit packer and the sub-blocker cannot tell apart: they hold the same bytes in the open sub-block. -/
def EncUnit.PackerTwin (u v : EncUnit) : Prop :=
  ∃ cur pos buf, v = u.withStale cur pos buf ∧ ∀ a, a < u.regs.sbLen.toNat → buf.read a = u.regs.sbBuf.read a

namespace EncUnit.PackerTwin

variable {u v : EncUnit}

/-- Whatever looks at no stale content is the same in both. -/
theorem reads {α : Type} (h : PackerTwin u v) (g : EncUnit → α)
    (hg : ∀ w cur pos buf, g (EncUnit.withStale w cur pos buf) = g w) : g v = g u := by
  obtain ⟨cur, pos, buf, rfl, -⟩ := h
  exact hg u cur pos buf

/-- An operation that touches neither the open sub-block nor the stale registers. -/
theorem map (f : EncUnit → EncUnit) (h : PackerTwin u v)
    (commutes : ∀ w cur pos buf, f (EncUnit.withStale w cur pos buf) = (f w).withStale cur pos buf)
    (keeps : ∀ w, (f w).regs.sbLen = w.regs.sbLen ∧ (f w).regs.sbBuf = w.regs.sbBuf) : PackerTwin (f u) (f v) := by
  obtain ⟨cur, pos, buf, rfl, agree⟩ := h
  exact ⟨cur, pos, buf, commutes u cur pos buf, by rwa [(keeps u).1, (keeps u).2]⟩

theorem sbBytes_eq (h : PackerTwin u v) : v.regs.sbBytes = u.regs.sbBytes := by
  obtain ⟨cur, pos, buf, rfl, agree⟩ := h
  exact List.map_congr_left fun a ha => agree a (List.mem_range.mp ha)

theorem append (h : PackerTwin u v) (b : Byte) : PackerTwin (u.append b) (v.append b) :=
  h.map (·.append b) (fun _ _ _ _ => rfl) fun _ => ⟨rfl, rfl⟩

theorem closeSubBlock (h : PackerTwin u v) : PackerTwin u.closeSubBlock v.closeSubBlock := by
  have bytes := h.sbBytes_eq
  obtain ⟨cur, pos, buf, rfl, -⟩ := h
  rw [closeSubBlock_eq, closeSubBlock_eq, bytes]
  exact ⟨cur, pos, buf, rfl, fun a ha => absurd ha (Nat.not_lt_zero a)⟩

theorem putByte (h : PackerTwin u v) (b : Byte) : PackerTwin (u.putByte b) (v.putByte b) := by
  -- the stored byte is the only new one that either unit holds
  have stored : ∀ {buf : Store 8}, (∀ a, a < u.regs.sbLen.toNat → buf.read a = u.regs.sbBuf.read a) →
      ∀ a, a < (BitVec.ofNat 8 (u.regs.sbLen.toNat + 1)).toNat →
        (buf.write u.regs.sbLen.toNat b).read a = (u.regs.sbBuf.write u.regs.sbLen.toNat b).read a := by
    intro buf agree a ha
    have hle : a < u.regs.sbLen.toNat + 1 := Nat.lt_of_lt_of_le ha (by rw [BitVec.toNat_ofNat]; exact Nat.mod_le _ _)
    simp only [Store.read_write]
    split
    · rfl
    · exact agree a (by omega)
  have len := h.reads (·.regs.sbLen) fun _ _ _ _ => rfl
  obtain ⟨cur, pos, buf, rfl, agree⟩ := h
  simp only [EncUnit.putByte, len]
  split
  · exact closeSubBlock ⟨cur, pos, buf.write u.regs.sbLen.toNat b, rfl, stored agree⟩
  · exact ⟨cur, pos, buf.write u.regs.sbLen.toNat b, rfl, stored agree⟩

theorem flush (fuel : Nat) (h : PackerTwin u v) : PackerTwin (flush fuel u) (flush fuel v) := by
  induction fuel generalizing u v with
  | zero => exact h
  | succ fuel ih =>
    simp only [EncUnit.flush, h.reads (·.regs.nbits) fun _ _ _ _ => rfl, h.reads (·.regs.acc) fun _ _ _ _ => rfl]
    split
    · exact ih ((h.putByte _).map (fun w => { w with regs := { w.regs with
        acc := w.regs.acc >>> 8, nbits := BitVec.ofNat 5 (w.regs.nbits.toNat - 8) } }) (fun _ _ _ _ => rfl)
        fun _ => ⟨rfl, rfl⟩)
    · exact h

theorem emitCode (h : PackerTwin u v) (c : Code) : PackerTwin (u.emitCode c) (v.emitCode c) :=
  (h.map (·.pushCode c) (fun _ _ _ _ => rfl) fun _ => ⟨rfl, rfl⟩).flush 3

theorem padByte (h : PackerTwin u v) : PackerTwin u.padByte v.padByte := by
  simp only [EncUnit.padByte, h.reads (·.regs.nbits) fun _ _ _ _ => rfl, h.reads (·.regs.acc) fun _ _ _ _ => rfl]
  split
  · exact (h.putByte _).map (fun w => { w with regs := { w.regs with acc := 0, nbits := 0 } }) (fun _ _ _ _ => rfl)
      fun _ => ⟨rfl, rfl⟩
  · exact h

end EncUnit.PackerTwin

theorem EncUnit.growWidth_eq (u : EncUnit) :
    u.growWidth =
      { u with
        regs :=
          { u.regs with
            width :=
              if 2 ^ u.regs.width.toNat ≤ u.regs.nextCode.toNat then BitVec.ofNat 4 (u.regs.width.toNat + 1)
              else u.regs.width } } := by
  simp only [EncUnit.growWidth]
  split <;> rfl

/-- Encoders in the same command, after its start step: only cells of `sb_buf` that hold no byte may differ. -/
structure EncUnit.Twin (u v : EncUnit) : Prop where
  packer : EncUnit.PackerTwin u v
  cur : v.regs.curCode = u.regs.curCode
  pos : v.regs.inPos = u.regs.inPos

namespace EncUnit.Twin

variable {u v : EncUnit}

theorem exists_buf (h : Twin u v) : ∃ buf, v = u.withStale u.regs.curCode u.regs.inPos buf ∧
    ∀ a, a < u.regs.sbLen.toNat → buf.read a = u.regs.sbBuf.read a := by
  obtain ⟨⟨cur, pos, buf, rfl, agree⟩, hcur, hpos⟩ := h
  exact ⟨buf, by rw [← hcur, ← hpos]; rfl, agree⟩

/-- An operation that does not touch the open sub-block. -/
theorem map (f : EncUnit → EncUnit) (h : Twin u v)
    (commutes : ∀ w buf, f (EncUnit.withStale w w.regs.curCode w.regs.inPos buf) =
      (f w).withStale (f w).regs.curCode (f w).regs.inPos buf)
    (keeps : ∀ w, (f w).regs.sbLen = w.regs.sbLen ∧ (f w).regs.sbBuf = w.regs.sbBuf) : Twin (f u) (f v) := by
  obtain ⟨buf, rfl, agree⟩ := h.exists_buf
  rw [commutes]
  exact ⟨⟨_, _, buf, rfl, by rwa [(keeps u).1, (keeps u).2]⟩, rfl, rfl⟩

/-- An operation of the packer. -/
theorem pack {u' v' : EncUnit} (h : Twin u v) (packed : PackerTwin u' v') (fu : PackerFrame u u')
    (fv : PackerFrame v v') : Twin u' v' :=
  ⟨packed, by rw [fu.curCode, fv.curCode, h.cur], by rw [fu.inPos, fv.inPos, h.pos]⟩

theorem emitCode (h : Twin u v) (c : Code) : Twin (u.emitCode c) (v.emitCode c) :=
  h.pack (h.packer.emitCode c) (emitCode_frame u c) (emitCode_frame v c)

theorem growWidth (h : Twin u v) : Twin u.growWidth v.growWidth :=
  h.map EncUnit.growWidth (fun w buf => by rw [growWidth_eq, growWidth_eq]; rfl) fun w => by
    rw [growWidth_eq]; exact ⟨rfl, rfl⟩

theorem hit (h : Twin u v) (k : Index) : Twin (EncUnit.hit k u) (EncUnit.hit k v) :=
  h.map (EncUnit.hit k) (fun _ _ => rfl) fun _ => ⟨rfl, rfl⟩

theorem miss (h : Twin u v) (k : Index) : Twin (EncUnit.miss k u) (EncUnit.miss k v) := by
  simp only [EncUnit.miss, h.cur]
  exact (h.emitCode u.regs.curCode).growWidth.map (fun w => ((w.insertKey k).setCur (k.setWidth 12)).advance)
    (fun _ _ => rfl) fun _ => ⟨rfl, rfl⟩

theorem full (h : Twin u v) (k : Index) : Twin (EncUnit.full k u) (EncUnit.full k v) := by
  simp only [EncUnit.full, h.cur, h.packer.reads (·.regs.clearCode) fun _ _ _ _ => rfl]
  exact ((h.emitCode u.regs.curCode).emitCode (u.regs.clearCode.setWidth 12)).map
    (fun w => (w.resetTable.setCur (k.setWidth 12)).advance) (fun _ _ => rfl) fun _ => ⟨rfl, rfl⟩

theorem finish (h : Twin u v) : Twin u.finish v.finish := by
  have emitted := (h.emitCode u.regs.curCode).emitCode (u.regs.eoiCode.setWidth 12)
  have padded := emitted.pack emitted.packer.padByte (padByte_frame _) (padByte_frame _)
  simp only [EncUnit.finish, h.cur, h.packer.reads (·.regs.eoiCode) fun _ _ _ _ => rfl,
    padded.packer.reads (·.regs.sbLen) fun _ _ _ _ => rfl]
  split
  · exact (padded.pack padded.packer.closeSubBlock (closeSubBlock_frame _) (closeSubBlock_frame _)).map
      (fun w => { w.append 0 with phase := .done }) (fun _ _ => rfl) fun _ => ⟨rfl, rfl⟩
  · exact padded.map (fun w => { w.append 0 with phase := .done }) (fun _ _ => rfl) fun _ => ⟨rfl, rfl⟩

/-- After the start step both units find the same step to run (R69). -/
theorem next (h : Twin u v) (hs : u.started = true) : Twin u.next v.next := by
  have view : v.view = u.view := by obtain ⟨_, rfl, -⟩ := h.exists_buf; rfl
  have started : v.started = u.started := h.packer.reads (·.started) fun _ _ _ _ => rfl
  simp only [EncUnit.next, view, started, hs, Bool.true_eq_false, if_false]
  split
  · exact h.finish
  · split
    · exact h.hit _
    · split
      · exact h.full _
      · exact h.miss _

end EncUnit.Twin

/-- The part of the start step after its checks sets every register but cells of `sb_buf` (R68, R110). -/
theorem EncUnit.startValid_twin (u : EncUnit) (r : EncRegs) (first : Nat) :
    EncUnit.Twin (u.startValid first) (EncUnit.startValid first { u with regs := r }) := by
  have started : EncUnit.PackerTwin u.startRegs (EncUnit.startRegs { u with regs := r }) :=
    ⟨r.curCode, r.inPos, r.sbBuf, rfl, fun a ha => absurd ha (Nat.not_lt_zero a)⟩
  obtain ⟨cur, pos, buf, he, agree⟩ := (started.append u.cmd.m).emitCode (u.startRegs.regs.clearCode.setWidth 12)
  exact ⟨⟨_, _, buf, congrArg (fun w : EncUnit => { w with regs := { w.regs with
    curCode := BitVec.ofNat 12 first, inPos := 1 } }) he, agree⟩, rfl, rfl⟩

/-- Encoders given one record: before the start step any registers, after it those of twins. -/
inductive EncUnit.Alike (u : EncUnit) : EncUnit → Prop where
  | waiting (r : EncRegs) (hs : u.started = false) : EncUnit.Alike u { u with regs := r }
  | running {v : EncUnit} (h : EncUnit.Twin u v) : EncUnit.Alike u v

namespace EncUnit.Alike

variable {u v : EncUnit}

theorem phase_eq (h : Alike u v) : v.phase = u.phase := by
  cases h with
  | waiting => rfl
  | running h => exact h.packer.reads (·.phase) fun _ _ _ _ => rfl

theorem result_eq (h : Alike u v) : u.result = v.result := by
  cases h with
  | waiting => rfl
  | running h => exact (h.packer.reads EncUnit.result fun _ _ _ _ => rfl).symm

/-- The start step makes the same checks of the record in both units. -/
theorem start (u : EncUnit) (r : EncRegs) (hs : u.started = false) :
    Alike u.start (EncUnit.start { u with regs := r }) := by
  by_cases hm : u.cmd.m.toNat < Config.mcsMin ∨ Config.mcsMax < u.cmd.m.toNat
  · simp only [EncUnit.start, if_pos hm]
    exact .waiting (u := u.raise _ _) r hs
  · simp only [EncUnit.start, if_neg hm, EncUnit.inRead]
    cases u.cmd.S[0]? with
    | none => exact .waiting (u := u.raise _ _) r hs
    | some first =>
      cases u.cmd.S.findIdx? fun v => decide (2 ^ u.cmd.m.toNat ≤ v) with
      | some i => exact .waiting (u := u.raise _ _) r hs
      | none => exact .running (u.startValid_twin r first)

theorem next (h : Alike u v) : Alike u.next v.next := by
  cases hs : u.started with
  | false =>
    obtain ⟨r, rfl⟩ : ∃ r, v = { u with regs := r } := by
      cases h with
      | waiting r => exact ⟨r, rfl⟩
      | running h => obtain ⟨_, rfl, -⟩ := h.exists_buf; exact ⟨_, rfl⟩
    rw [EncUnit.next, if_pos hs, EncUnit.next, if_pos hs]
    exact start u r hs
  | true =>
    cases h with
    | waiting r idle => cases hs.symm.trans idle
    | running h => exact .running (h.next hs)

theorem turns (k : Nat) (h : Alike u v) : Alike (EncUnit.turns k u) (EncUnit.turns k v) := by
  induction k generalizing u v with
  | zero => exact h
  | succ k ih =>
    simp only [EncUnit.turns, h.phase_eq]
    split
    · exact ih h.next
    · exact h

end EncUnit.Alike

/-- ENCODE on any unit starts its record. -/
theorem execEncode_next {r : EncodeRecord} {s t : State} (h : exec (.encode r) s = .next t) :
    t.enc = EncUnit.begin r s.freeTick := by
  simp only [exec, execEncode] at h
  split at h
  · cases h
  · cases h; rfl

theorem encodeResult_unique {r : EncodeRecord} {s1 s2 t1 t2 u1 u2 : State} {k : Nat}
    (h1 : exec (.encode r) s1 = .next t1) (h2 : exec (.encode r) s2 = .next t2) (q1 : t1.hostq = [])
    (q2 : t2.hostq = []) (g1 : Host.Core.run Sys2Proof.core k (t1.onlyFor .enc k) = .next u1)
    (g2 : Host.Core.run Sys2Proof.core k (t2.onlyFor .enc k) = .next u2) : u1.enc.result = u2.enc.result := by
  have e1 : u1.enc = t1.enc.turns k := run_enc_turns (s := t1.onlyFor .enc k) q1 rfl g1
  have e2 : u2.enc = t2.enc.turns k := run_enc_turns (s := t2.onlyFor .enc k) q2 rfl g2
  rw [e1, e2, execEncode_next h1, execEncode_next h2]
  have begun : EncUnit.Alike (EncUnit.begin r s1.freeTick) (EncUnit.begin r s2.freeTick) := .waiting _ rfl
  exact (begun.turns k).result_eq

/-! #### Two decoders with one record -/

/-- What the result shows: the status record, with `end_reason` in DONE only, and the cells of `IDX` produced (R63). -/
theorem DecUnit.result_congr (u : DecUnit) (r : DecRegs) (e : EndReason) (idx : Memory 8)
    (ends : u.phase = .done → e = u.endReason)
    (cells : ∀ a, a < u.produced → Memory.read idx a = Memory.read u.idx a) :
    DecUnit.result { u with regs := r, endReason := e, idx := idx } = u.result := by
  have produced : (List.range u.produced).map (Memory.read idx) = (List.range u.produced).map (Memory.read u.idx) :=
    List.map_congr_left fun a ha => cells a (List.mem_range.mp ha)
  simp only [DecUnit.result, produced]
  by_cases done : u.phase = .done
  · rw [ends done]
  · simp only [if_neg done]

/-- The command ended early (R95). -/
def DecUnit.Short (u : DecUnit) : Prop := u.endReason ≠ .overflow ∧ u.regs.outPos ≠ u.cmd.outputLength

theorem DecUnit.finish_full {u : DecUnit} (h : ¬ u.Short) :
    u.finish = { u with produced := u.regs.outPos, phase := .done } := if_neg h

theorem DecUnit.finish_strict {u : DecUnit} (h : u.Short) (hs : u.cmd.strict = true) :
    u.finish =
      DecUnit.raise .dLengthMismatch (.length .short u.regs.outPos u.cmd.outputLength)
        { u with produced := u.regs.outPos } := (if_pos h).trans (if_pos hs)

theorem DecUnit.finish_tolerant {u : DecUnit} (h : u.Short) (hs : ¬ u.cmd.strict = true) :
    u.finish = { u with produced := u.regs.outPos, tooShort := true, phase := .done } :=
  (if_pos h).trans (if_neg hs)

/-- Decoders in one command that have produced the same indices. -/
def DecUnit.SameOutput (u v : DecUnit) : Prop :=
  ∃ r n e idx, v = { u with regs := r, produced := n, endReason := e, idx := idx } ∧ r.outPos = u.regs.outPos ∧
    ∀ a, a < u.regs.outPos → Memory.read idx a = Memory.read u.idx a

/-- Commands that have ended, with the same result. -/
structure DecUnit.EndedAlike (u v : DecUnit) : Prop where
  left : u.phase ≠ .run
  right : v.phase ≠ .run
  result : u.result = v.result

namespace DecUnit.SameOutput

variable {u v : DecUnit}

theorem raise (h : SameOutput u v) (c : Cause) {i j : Info} (hij : i = j) :
    EndedAlike (u.raise c i) (v.raise c j) := by
  obtain ⟨r, n, e, idx, rfl, pos, cells⟩ := h
  subst hij
  refine ⟨nofun, nofun, ?_⟩
  simp only [DecUnit.raise, pos]
  exact (DecUnit.result_congr (u.raise c i) r e idx nofun cells).symm

theorem complete (h : SameOutput u v) (e : EndReason) :
    EndedAlike { u with produced := u.regs.outPos, endReason := e, phase := .done }
      { v with produced := v.regs.outPos, endReason := e, phase := .done } := by
  obtain ⟨r, n, e', idx, rfl, pos, cells⟩ := h
  refine ⟨nofun, nofun, ?_⟩
  simp only [pos]
  exact (DecUnit.result_congr { u with produced := u.regs.outPos, endReason := e, phase := .done } r e idx
    (fun _ => rfl) cells).symm

theorem phase_eq (h : SameOutput u v) : v.phase = u.phase := by
  obtain ⟨r, n, e, idx, rfl, -⟩ := h
  rfl

theorem warnTooShort (h : SameOutput u v) : SameOutput u.warnTooShort v.warnTooShort := by
  obtain ⟨r, n, e, idx, rfl, pos, cells⟩ := h
  exact ⟨r, n, e, idx, rfl, pos, cells⟩

theorem warnTooLong (h : SameOutput u v) : SameOutput u.warnTooLong v.warnTooLong := by
  obtain ⟨r, n, e, idx, rfl, pos, cells⟩ := h
  exact ⟨r, n, e, idx, rfl, pos, cells⟩

theorem counted (h : SameOutput u v) (e : EndReason) :
    SameOutput { u with produced := u.regs.outPos, endReason := e }
      { v with produced := v.regs.outPos, endReason := e } := by
  obtain ⟨r, n, e', idx, rfl, pos, cells⟩ := h
  exact ⟨r, _, e, idx, rfl, pos, cells⟩

/-- What a command checks at its end is the same in both. -/
theorem checks (h : SameOutput u v) : v.regs.outPos = u.regs.outPos ∧ v.cmd = u.cmd := by
  obtain ⟨r, n, e, idx, rfl, pos, -⟩ := h
  exact ⟨pos, rfl⟩

/-- The three ends of `DecFinish` (R95). -/
theorem finish (h : SameOutput u v) (e : EndReason) :
    EndedAlike (u.setEndReason e).finish (v.setEndReason e).finish := by
  obtain ⟨pos, cmd⟩ := h.checks
  by_cases short : (u.setEndReason e).Short
  · have short' : (v.setEndReason e).Short := ⟨short.1, by simpa [pos, cmd] using short.2⟩
    by_cases strict : u.cmd.strict = true
    · rw [DecUnit.finish_strict short strict, DecUnit.finish_strict short' (cmd ▸ strict)]
      exact (h.counted e).raise .dLengthMismatch
        (congrArg₂ (Info.length .short) pos.symm (congrArg DecodeRecord.outputLength cmd.symm))
    · rw [DecUnit.finish_tolerant short strict, DecUnit.finish_tolerant short' (cmd ▸ strict)]
      exact h.warnTooShort.complete e
  · have full' : ¬ (v.setEndReason e).Short := fun short' =>
      short ⟨short'.1, by simpa [pos, cmd] using short'.2⟩
    rw [DecUnit.finish_full short, DecUnit.finish_full full']
    exact h.complete e

theorem overflow (h : SameOutput u v) : EndedAlike u.overflow v.overflow := by
  obtain ⟨pos, cmd⟩ := h.checks
  simp only [DecUnit.overflow, cmd, pos]
  split
  · exact h.raise _ rfl
  · exact h.warnTooLong.finish _

end DecUnit.SameOutput

/-- What a decoder in a command may hold by chance: fields the command sets at its end, and storage. -/
structure DecUnit.Stale where
  produced : Nat
  endReason : EndReason
  prevCode : Code
  prefixes : Store 12
  suffixes : Store 8
  idx : Memory 8

/-- `u` with other contents in the fields of `Stale`. -/
def DecUnit.withStale (u : DecUnit) (x : DecUnit.Stale) : DecUnit :=
  { u with
    produced := x.produced, endReason := x.endReason, idx := x.idx
    regs := { u.regs with prevCode := x.prevCode, prefixes := x.prefixes, suffixes := x.suffixes } }

/-- `x` agrees with `u` wherever the command has written: a valid previous code, the codes in the table and the cells
produced (R28, R36, R93). -/
structure DecUnit.Stale.Agrees (x : DecUnit.Stale) (u : DecUnit) : Prop where
  prev : u.regs.prevValid = true → x.prevCode = u.regs.prevCode
  prefixes : ∀ c, u.regs.eoiCode.toNat < c → c < u.regs.nextCode.toNat → x.prefixes.read c = u.regs.prefixes.read c
  suffixes : ∀ c, u.regs.eoiCode.toNat < c → c < u.regs.nextCode.toNat → x.suffixes.read c = u.regs.suffixes.read c
  cells : ∀ a, a < u.regs.outPos → Memory.read x.idx a = Memory.read u.idx a

/-- Decoders in one command, after its start step: only what the command has not written may differ. -/
def DecUnit.Twin (u v : DecUnit) : Prop := ∃ x, v = u.withStale x ∧ x.Agrees u

/-- The sequence of a code depends on the entries of the table only (R94). -/
theorem DecRegs.seqRev_of_entries (r q : DecRegs) (hc : q.clearCode = r.clearCode) (he : q.eoiCode = r.eoiCode)
    (hn : q.nextCode = r.nextCode)
    (hp : ∀ c, r.eoiCode.toNat < c → c < r.nextCode.toNat → q.prefixes.read c = r.prefixes.read c)
    (hs : ∀ c, r.eoiCode.toNat < c → c < r.nextCode.toNat → q.suffixes.read c = r.suffixes.read c) (fuel : Nat)
    (c : Code) : q.seqRev fuel c = r.seqRev fuel c := by
  induction fuel generalizing c with
  | zero => rfl
  | succ fuel ih =>
    simp only [DecRegs.seqRev, hc, he, hn]
    split
    · rfl
    · split
      · next entry => rw [ih, hp _ entry.1 entry.2, hs _ entry.1 entry.2]
      · rfl

namespace DecUnit.Twin

variable {u v : DecUnit}

theorem sameOutput (h : Twin u v) : SameOutput u v := by
  obtain ⟨x, rfl, agrees⟩ := h
  exact ⟨_, x.produced, x.endReason, x.idx, rfl, rfl, agrees.cells⟩

/-- Whatever looks at no stale content is the same in both. -/
theorem reads {α : Type} (h : Twin u v) (g : DecUnit → α) (hg : ∀ w x, g (DecUnit.withStale w x) = g w) : g v = g u := by
  obtain ⟨x, rfl, -⟩ := h
  exact hg u x

theorem codeInfo_eq (h : Twin u v) (c : Code) :
    Info.code c v.regs.nextCode v.regs.srcPos = Info.code c u.regs.nextCode u.regs.srcPos :=
  h.reads (fun w => Info.code c w.regs.nextCode w.regs.srcPos) fun _ _ => rfl

theorem seq_eq (h : Twin u v) (c : Code) : v.regs.seq c = u.regs.seq c := by
  obtain ⟨x, rfl, agrees⟩ := h
  exact congrArg (Option.map List.reverse)
    (DecRegs.seqRev_of_entries u.regs (u.withStale x).regs rfl rfl rfl agrees.prefixes agrees.suffixes _ c)

theorem kwkRun_eq (h : Twin u v) (hp : u.regs.prevValid = true) : v.regs.kwkRun = u.regs.kwkRun := by
  have seq := h.seq_eq u.regs.prevCode
  have prev : v.regs.prevCode = u.regs.prevCode := by obtain ⟨x, rfl, agrees⟩ := h; exact agrees.prev hp
  rw [DecRegs.kwkRun, DecRegs.kwkRun, prev, seq]

/-- An operation that writes no field of `Stale`. -/
theorem map (f : DecUnit → DecUnit) (h : Twin u v) (commutes : ∀ w x, f (DecUnit.withStale w x) = (f w).withStale x)
    (keeps : ∀ x : Stale, x.Agrees u → x.Agrees (f u)) : Twin (f u) (f v) := by
  obtain ⟨x, rfl, agrees⟩ := h
  exact ⟨x, commutes u x, keeps x agrees⟩

theorem advance (h : Twin u v) : Twin u.advance v.advance :=
  h.map DecUnit.advance (fun _ _ => rfl) fun _ a => ⟨a.prev, a.prefixes, a.suffixes, a.cells⟩

theorem consumeCode (h : Twin u v) : Twin u.consumeCode v.consumeCode :=
  h.map DecUnit.consumeCode (fun _ _ => rfl) fun _ a => ⟨a.prev, a.prefixes, a.suffixes, a.cells⟩

theorem pushByte (h : Twin u v) (b : Byte) : Twin (u.pushByte b) (v.pushByte b) :=
  h.map (·.pushByte b) (fun _ _ => rfl) fun _ a => ⟨a.prev, a.prefixes, a.suffixes, a.cells⟩

theorem lenByte (h : Twin u v) (b : Byte) : Twin (u.lenByte b) (v.lenByte b) :=
  h.map (DecUnit.lenByte b) (fun _ _ => rfl) fun _ a => ⟨a.prev, a.prefixes, a.suffixes, a.cells⟩

/-- A clear code leaves no entry and no previous code to agree on (R84). -/
theorem resetTable (h : Twin u v) : Twin u.resetTable v.resetTable := by
  refine h.map DecUnit.resetTable (fun _ _ => rfl) fun x a => ?_
  have empty : ∀ c, u.regs.eoiCode.toNat < c → ¬ c < u.resetTable.regs.nextCode.toNat := by
    intro c hc
    have := Nat.mod_le (u.regs.eoiCode.toNat + 1) (2 ^ 13)
    rw [DecUnit.resetTable_nextCode, BitVec.toNat_ofNat]
    omega
  exact ⟨nofun, fun c h1 h2 => absurd h2 (empty c h1), fun c h1 h2 => absurd h2 (empty c h1), a.cells⟩

theorem writeRun (h : Twin u v) (run : List Index) : Twin (u.writeRun run) (v.writeRun run) := by
  obtain ⟨x, rfl, agrees⟩ := h
  refine ⟨{ x with idx := Memory.writeRun x.idx u.regs.outPos run }, rfl, agrees.prev, agrees.prefixes,
    agrees.suffixes, fun a ha => ?_⟩
  simp only [DecUnit.writeRun_outPos, DecUnit.writeRun_idx, Memory.read_writeRun] at ha ⊢
  split
  · rfl
  · exact agrees.cells a (by omega)

/-- An entry made of the valid previous code is the same in both (R93). -/
theorem insert (h : Twin u v) (f : Index) : Twin (u.insert f) (v.insert f) := by
  have valid := h.reads (·.regs.prevValid) fun _ _ => rfl
  have code := h.reads (·.regs.nextCode) fun _ _ => rfl
  cases hp : u.regs.prevValid with
  | false => rwa [insert_no_prev u f hp, insert_no_prev v f (valid.trans hp)]
  | true =>
    by_cases hn : u.regs.nextCode.toNat < 4096
    · rw [insert_stores u f hp hn, insert_stores v f (valid.trans hp) (by rwa [code])]
      obtain ⟨x, rfl, agrees⟩ := h
      have below : ∀ c, c < (BitVec.ofNat 13 (u.regs.nextCode.toNat + 1)).toNat → c ≠ u.regs.nextCode.toNat →
          c < u.regs.nextCode.toNat := by
        intro c hc hne
        rw [BitVec.toNat_ofNat] at hc
        omega
      refine ⟨{ x with
        prefixes := x.prefixes.write u.regs.nextCode.toNat x.prevCode
        suffixes := x.suffixes.write u.regs.nextCode.toNat f }, rfl, agrees.prev, fun c h1 h2 => ?_, fun c h1 h2 => ?_,
        agrees.cells⟩
      · simp only [Store.read_write]
        split
        · exact agrees.prev hp
        · next hne => exact agrees.prefixes c h1 (below c h2 hne)
      · simp only [Store.read_write]
        split
        · rfl
        · next hne => exact agrees.suffixes c h1 (below c h2 hne)
    · rwa [insert_full u f (by omega), insert_full v f (by rw [code]; omega)]

theorem setPrev (h : Twin u v) (c : Code) : Twin (u.setPrev c) (v.setPrev c) := by
  obtain ⟨x, rfl, a⟩ := h
  exact ⟨{ x with prevCode := c }, rfl, fun _ => rfl, a.prefixes, a.suffixes, a.cells⟩

end DecUnit.Twin

/-- A code is found in the context of the registers (R52). -/
theorem DecUnit.fetch_code {u : DecUnit} {cc : CodeCtx} {c : Nat} (h : u.fetch = .raw (.code cc c)) :
    cc = u.regs.codeCtx := by
  have noByte : ∀ pos a, u.fetchByteAt pos a ≠ .raw (.code cc c) := by
    intro pos a
    simp only [DecUnit.fetchByteAt]
    split <;> nofun
  simp only [DecUnit.fetch] at h
  split at h
  · exact absurd h (noByte _ _)
  · split at h
    · split at h
      · split at h
        · cases h
        · exact absurd h (noByte _ _)
      · exact absurd h (noByte _ _)
    · cases h; rfl

/-- A KWK code needs a previous code (R52). -/
theorem prevValid_of_classify_kwk {cc : CodeCtx} {c : Nat} {d : Code} (h : classify cc c = .kwk d) :
    cc.prevValid = true := by
  rcases classify_cases cc c with ⟨-, e⟩ | ⟨-, e⟩ | ⟨-, e⟩ | ⟨-, -, e⟩ | ⟨-, valid, -⟩ | ⟨-, -, e⟩ | ⟨-, e⟩
  case inr.inr.inr.inr.inl => exact valid
  all_goals cases e.symm.trans h

/-- Decoders given one record: before the start step, after it, and at the end of the command. -/
inductive DecUnit.Alike (u v : DecUnit) : Prop where
  | waiting (h : DecUnit.SameOutput u v) (hr : u.phase = .run) (hs : u.started = false)
  | running (h : DecUnit.Twin u v) (hr : u.phase = .run) (hs : u.started = true)
  | ended (h : DecUnit.EndedAlike u v)

namespace DecUnit

variable {u v u' v' : DecUnit}

/-- A legal min-code-size byte sets every register but the previous code and the storage (R79, R111). -/
theorem SameOutput.start (h : SameOutput u v) (hr : u.phase = .run) (b : Byte) : Alike (u.start b) (v.start b) := by
  obtain ⟨r, n, e, idx, rfl, pos, cells⟩ := h
  by_cases illegal : b.toNat < Config.mcsMin ∨ Config.mcsMax < b.toNat
  · simp only [DecUnit.start, if_pos illegal]
    exact .ended (SameOutput.raise (u := { u with regs := { u.regs with srcPos := u.cmd.p0 + 1 } })
      ⟨{ r with srcPos := u.cmd.p0 + 1 }, n, e, idx, rfl, pos, cells⟩ _ rfl)
  · simp only [DecUnit.start, if_neg illegal]
    have empty : ∀ c, (BitVec.ofNat 9 (2 ^ b.toNat + 1)).toNat < c →
        ¬ c < (BitVec.ofNat 13 (2 ^ b.toNat + 2)).toNat := by
      intro c hc
      have hb : b.toNat ≤ 8 := Nat.not_lt.mp (not_or.mp illegal).2
      have : 2 ^ b.toNat ≤ 2 ^ 8 := Nat.pow_le_pow_right (by decide) hb
      rw [BitVec.toNat_ofNat] at hc ⊢
      generalize 2 ^ b.toNat = p at *
      omega
    exact .running ⟨⟨n, e, r.prevCode, r.prefixes, r.suffixes, idx⟩, rfl, nofun, fun c h1 h2 => absurd h2 (empty c h1),
      fun c h1 h2 => absurd h2 (empty c h1), fun a ha => absurd ha (Nat.not_lt_zero a)⟩ hr rfl

/-- A data code (R91): the same run, and the same check of its length (R92). -/
theorem Twin.dataCode (h : Twin u v) (hr : u.phase = .run) (hs : u.started = true) (c : Code) (f : Index)
    (rest : List Index) : Alike (u.dataCode c f rest) (v.dataCode c f rest) := by
  obtain ⟨pos, cmd⟩ := h.sameOutput.checks
  by_cases fits : u.regs.outPos + (f :: rest).length ≤ u.cmd.outputLength
  · rw [u.dataCode_fits c f rest fits, v.dataCode_fits c f rest (by rwa [pos, cmd])]
    have frame := insert_regs_only (u.writeRun (f :: rest)) f
    exact .running (((h.writeRun _).insert f).setPrev c) (by rw [frame]; exact hr) (by rw [frame]; exact hs)
  · rw [u.dataCode_overflows c f rest (by omega), v.dataCode_overflows c f rest (by rw [pos, cmd]; omega)]
    exact .ended h.sameOutput.overflow

theorem Twin.dataCode? (h : Twin u v) (hr : u.phase = .run) (hs : u.started = true) {c : Code}
    {run : Option (List Index)} (hu : u.dataCode? c run = some u') (hv : v.dataCode? c run = some v') :
    Alike u' v' := by
  match run with
  | some (f :: rest) =>
    cases hu
    cases hv
    exact h.dataCode hr hs c f rest
  | some [] => cases hu
  | none => cases hu

/-- A code of any class acts alike; a KWK code does because the previous code is valid (R88). -/
theorem Twin.act (h : Twin u v) (hr : u.phase = .run) (hs : u.started = true) (i : Instr)
    (hk : ∀ c, i = .kwk c → u.regs.prevValid = true) (hu : u.act i = some u') (hv : v.act i = some v') :
    Alike u' v' := by
  cases i with
  | clr => cases hu; cases hv; exact .running h.resetTable hr hs
  | eoi => cases hu; cases hv; exact .ended (h.sameOutput.finish .eoi)
  | lit k => cases hu; cases hv; exact h.dataCode hr hs _ k []
  | tab c =>
    have hv : v.dataCode? c (v.regs.seq c) = some v' := hv
    rw [h.seq_eq] at hv
    exact h.dataCode? hr hs (run := u.regs.seq c) hu hv
  | kwk c =>
    have hv : v.dataCode? c v.regs.kwkRun = some v' := hv
    rw [h.kwkRun_eq (hk c rfl)] at hv
    exact h.dataCode? hr hs (run := u.regs.kwkRun) hu hv
  | illNoPrev c => cases hu; cases hv; exact .ended (h.sameOutput.raise _ (h.codeInfo_eq c).symm)
  | illRange c => cases hu; cases hv; exact .ended (h.sameOutput.raise _ (h.codeInfo_eq c).symm)
  | encode | decode | encStart | encHit | encMiss | encFull | encFinish | bMcs | bLen | bTerm | bData => cases hu

/-- After the start step both units find the same byte or code, and act on it alike. -/
theorem Twin.next? (h : Twin u v) (hr : u.phase = .run) (hs : u.started = true) (hu : u.next? = some u')
    (hv : v.next? = some v') : Alike u' v' := by
  simp only [DecUnit.next?, h.reads DecUnit.fetch fun _ _ => rfl] at hu hv
  cases hf : u.fetch with
  | overrun a =>
    rw [hf] at hu hv
    cases hu
    cases hv
    exact .ended (h.sameOutput.raise _ rfl)
  | exhausted =>
    rw [hf] at hu hv
    cases hu
    cases hv
    exact .ended (h.sameOutput.finish .exhausted)
  | raw r =>
    rw [hf] at hu hv
    cases r with
    | encodeCommand | decodeCommand | encState => cases hu
    | byte pos b =>
      cases pos with
      | mcs =>
        cases hu
        cases hv
        exact h.sameOutput.start hr b
      | length =>
        by_cases hb : b = 0#8
        · simp only [hb, if_true, Option.some.injEq] at hu hv
          subst hu hv
          have terminated := h.advance.map (fun w => { w with regs := { w.regs with terminated := true } })
            (fun _ _ => rfl) fun _ a => ⟨a.prev, a.prefixes, a.suffixes, a.cells⟩
          exact .ended (terminated.sameOutput.finish .exhausted)
        · simp only [if_neg hb, Option.some.injEq] at hu hv
          subst hu hv
          exact .running (h.lenByte b) hr hs
      | data =>
        cases hu
        cases hv
        exact .running (h.advance.pushByte b) hr hs
    | code cc c =>
      by_cases fits : c < 2 ^ cc.width ∧ c < Config.tableSize
      · simp only [if_pos fits] at hu hv
        refine h.consumeCode.act hr hs _ (fun d hd => ?_) hu hv
        rw [DecUnit.fetch_code hf] at hd
        exact prevValid_of_classify_kwk hd
      · simp only [if_neg fits] at hu
        cases hu

namespace Alike

theorem phase_iff (h : Alike u v) : u.phase = .run ↔ v.phase = .run := by
  cases h with
  | waiting h => rw [h.phase_eq]
  | running h => rw [h.sameOutput.phase_eq]
  | ended h => exact iff_of_false h.left h.right

theorem result_eq (h : Alike u v) : u.result = v.result := by
  have hidden : ∀ {w : DecUnit}, w.phase = .run → w.result = none := fun hw => by simp [DecUnit.result, hw]
  cases h with
  | waiting h hr => rw [hidden hr, hidden (h.phase_eq.trans hr)]
  | running h hr => rw [hidden hr, hidden (h.sameOutput.phase_eq.trans hr)]
  | ended h => exact h.result

theorem next? (h : Alike u v) (hr : u.phase = .run) (hu : u.next? = some u') (hv : v.next? = some v') :
    Alike u' v' := by
  cases h with
  | running h _ hs => exact h.next? hr hs hu hv
  | ended h => exact absurd hr h.left
  | waiting h _ hs =>
    have cmd := h.checks.2
    have hs' : v.started = false := by obtain ⟨_, _, _, _, rfl, -⟩ := h; exact hs
    rcases u.first_step hs with ⟨missing, eu⟩ | ⟨b, found, eu⟩ <;>
      rcases v.first_step hs' with ⟨missing', ev⟩ | ⟨b', found', ev⟩ <;> cases eu.symm.trans hu <;>
        cases ev.symm.trans hv
    · rw [cmd]
      exact .ended (h.raise _ rfl)
    · rw [cmd] at found'
      cases missing.symm.trans found'
    · rw [cmd] at missing'
      cases found.symm.trans missing'
    · rw [cmd] at found'
      cases found.symm.trans found'
      exact h.start hr b

theorem turns {k : Nat} (h : Alike u v) (hu : u.turns k = some u') (hv : v.turns k = some v') : Alike u' v' := by
  induction k generalizing u v with
  | zero => cases hu; cases hv; exact h
  | succ k ih =>
    by_cases hr : u.phase = .run
    · rw [DecUnit.turns, if_pos hr, Option.bind_eq_some_iff] at hu
      rw [DecUnit.turns, if_pos (h.phase_iff.mp hr), Option.bind_eq_some_iff] at hv
      obtain ⟨a, ha, hu⟩ := hu
      obtain ⟨b, hb, hv⟩ := hv
      exact ih (h.next? hr ha hb) hu hv
    · rw [DecUnit.turns, if_neg hr] at hu
      rw [DecUnit.turns, if_neg (hr ∘ h.phase_iff.mpr)] at hv
      cases hu
      cases hv
      exact h

end Alike

end DecUnit

/-- DECODE on any unit starts its record. -/
theorem execDecode_next {r : DecodeRecord} {s t : State} (h : exec (.decode r) s = .next t) :
    t.dec = DecUnit.begin r s.freeTick s.dec.idx := by
  simp only [exec, execDecode] at h
  split at h
  · cases h
  · cases h; rfl

theorem decodeResult_unique {r : DecodeRecord} {s1 s2 t1 t2 u1 u2 : State} {k : Nat}
    (h1 : exec (.decode r) s1 = .next t1) (h2 : exec (.decode r) s2 = .next t2) (q1 : t1.hostq = [])
    (q2 : t2.hostq = []) (g1 : Host.Core.run Sys2Proof.core k (t1.onlyFor .dec k) = .next u1)
    (g2 : Host.Core.run Sys2Proof.core k (t2.onlyFor .dec k) = .next u2) : u1.dec.result = u2.dec.result := by
  have e1 : t1.dec.turns k = some u1.dec := run_dec_turns (s := t1.onlyFor .dec k) q1 rfl g1
  have e2 : t2.dec.turns k = some u2.dec := run_dec_turns (s := t2.onlyFor .dec k) q2 rfl g2
  rw [execDecode_next h1] at e1
  rw [execDecode_next h2] at e2
  have begun : DecUnit.Alike (DecUnit.begin r s1.freeTick s1.dec.idx) (DecUnit.begin r s2.freeTick s2.dec.idx) :=
    .waiting ⟨_, _, _, s2.dec.idx, rfl, rfl, fun a ha => absurd ha (Nat.not_lt_zero a)⟩ rfl rfl
  exact (begun.turns e1 e2).result_eq

/-- Settles O57: after the same turns two commands with one record are alike, for each unit. -/
theorem resultsDependOnlyOnTheRecords : Obligations.ResultsDependOnlyOnTheRecords :=
  ⟨fun _ _ _ _ _ _ _ _ h1 h2 q1 q2 g1 g2 => encodeResult_unique h1 h2 q1 q2 g1 g2,
    fun _ _ _ _ _ _ _ _ h1 h2 q1 q2 g1 g2 => decodeResult_unique h1 h2 q1 q2 g1 g2⟩

end Sys2Proof.Machine

end

/-! ## Memory: what a step of one unit writes, and what a read past `SRC` does (R34 to R36) -/

section

namespace Sys2Proof.Machine

/-! ### The encoder's steps only append to `OUT` (R34) -/

/-- What every step of an encoder does: the command record stays, `OUT` grows at its end, and `out_len` counts it. -/
def EncUnit.OnlyAppends (u v : EncUnit) : Prop :=
  v.cmd = u.cmd ∧ ∃ bs, v.out = u.out ++ bs ∧ v.outLen = u.outLen + bs.length

theorem EncUnit.append_frame (u : EncUnit) (b : Byte) : PackerFrame u (u.append b) :=
  ⟨rfl, rfl, rfl, rfl, rfl, rfl, rfl, rfl, rfl, rfl, rfl, rfl, rfl, ⟨[b], rfl, rfl⟩, id⟩

/-- EncStart appends nothing when it faults, and `m` with the packer's bytes when it does not (R68). -/
theorem EncUnit.start_onlyAppends (u : EncUnit) : u.OnlyAppends u.start := by
  rcases u.start_cases with ⟨c, i, he, -, -⟩ | ⟨first, rest, -, -, he⟩
  · rw [he]
    exact ⟨rfl, [], by simp, rfl⟩
  · have packed := (u.startRegs.append_frame u.cmd.m).trans (emitCode_frame _ (u.startRegs.regs.clearCode.setWidth 12))
    rw [he]
    exact ⟨packed.cmd, packed.appended⟩

/-- What the three steps on an index leave unchanged; they advance `in_pos` by 1 (R69). -/
structure EncUnit.IndexFrame (u v : EncUnit) : Prop where
  appends : u.OnlyAppends v
  phase : v.phase = u.phase
  started : v.started = u.started
  cause : v.cause = u.cause
  info : v.info = u.info
  m : v.regs.m = u.regs.m
  clearCode : v.regs.clearCode = u.regs.clearCode
  eoiCode : v.regs.eoiCode = u.regs.eoiCode
  inPos : v.regs.inPos = u.regs.inPos + 1

theorem EncUnit.hit_frame (u : EncUnit) (k : Index) : IndexFrame u (EncUnit.hit k u) :=
  ⟨⟨rfl, [], by simp [EncUnit.hit], rfl⟩, rfl, rfl, rfl, rfl, rfl, rfl, rfl, rfl⟩

theorem EncUnit.miss_frame (u : EncUnit) (k : Index) : IndexFrame u (EncUnit.miss k u) := by
  have packed := emitCode_frame u u.regs.curCode
  rw [EncUnit.miss_eq]
  exact ⟨⟨packed.cmd, packed.appended⟩, packed.phase, packed.started, packed.cause, packed.info, packed.m,
    packed.clearCode, packed.eoiCode, rfl⟩

theorem EncUnit.full_frame (u : EncUnit) (k : Index) : IndexFrame u (EncUnit.full k u) := by
  have packed := (emitCode_frame u u.regs.curCode).trans (emitCode_frame _ (u.regs.clearCode.setWidth 12))
  rw [EncUnit.full_eq]
  exact ⟨⟨packed.cmd, packed.appended⟩, packed.phase, packed.started, packed.cause, packed.info, packed.m,
    packed.clearCode, packed.eoiCode, rfl⟩

/-- EncFinish is a run of the packer, then DONE (R73). -/
theorem EncUnit.finish_packed (u : EncUnit) : ∃ w, PackerFrame u w ∧ u.finish = { w with phase := .done } := by
  have tail := ((emitCode_frame u u.regs.curCode).trans (emitCode_frame _ (u.regs.eoiCode.setWidth 12))).trans
    (EncUnit.padByte_frame _)
  refine ⟨_, ?_, rfl⟩
  refine PackerFrame.trans ?_ (EncUnit.append_frame _ 0)
  split
  · exact tail.trans (closeSubBlock_frame _)
  · exact tail

/-- The three steps on an index share one frame; a hit is exactly `EncHit` (R69 to R72). -/
theorem exec_index_frame {i : Instr} {s t : State} (hi : IsEncStep i) (notStart : i ≠ .encStart)
    (notFinish : i ≠ .encFinish) (h : exec i s = .next t) :
    t = { s with enc := t.enc } ∧ EncUnit.IndexFrame s.enc t.enc ∧
      ∀ k, i = .encHit k → t.enc = EncUnit.hit k s.enc := by
  rcases hi with start | ⟨k, rfl⟩ | ⟨k, rfl⟩ | ⟨k, rfl⟩ | finish
  · exact absurd start notStart
  · obtain ⟨-, rfl⟩ := State.runEnc_next h
    exact ⟨rfl, s.enc.hit_frame k, fun _ same => by cases same; rfl⟩
  · obtain ⟨-, rfl⟩ := State.runEnc_next h
    exact ⟨rfl, s.enc.miss_frame k, nofun⟩
  · obtain ⟨-, rfl⟩ := State.runEnc_next h
    exact ⟨rfl, s.enc.full_frame k, nofun⟩
  · exact absurd finish notFinish

/-- Settles O15: the start and the finish are the packer's frame around their own writes, and the three steps on an
index share one frame. -/
theorem encoderStepFrame : Obligations.EncoderStepFrame := by
  intro i s t hi h
  by_cases hstart : i = .encStart
  · subst hstart
    obtain ⟨-, rfl⟩ := State.runEnc_next h
    obtain ⟨cmd, appended⟩ := s.enc.start_onlyAppends
    exact ⟨rfl, cmd, appended, fun ne => absurd rfl ne, nofun⟩
  by_cases hfinish : i = .encFinish
  · subst hfinish
    obtain ⟨-, rfl⟩ := State.runEnc_next h
    obtain ⟨w, packed, finished⟩ := s.enc.finish_packed
    rw [finished]
    exact ⟨rfl, packed.cmd, packed.appended,
      fun _ => ⟨packed.started, packed.cause, packed.info, packed.m, packed.clearCode, packed.eoiCode,
        fun ne => absurd rfl ne,
        fun _ => ⟨packed.inPos, packed.curCode, packed.nextCode, packed.width, packed.table⟩⟩,
      nofun⟩
  obtain ⟨block, frame, hit⟩ := exec_index_frame hi hstart hfinish h
  obtain ⟨cmd, appended⟩ := frame.appends
  refine ⟨block, cmd, appended, fun _ => ⟨frame.started, frame.cause, frame.info, frame.m, frame.clearCode,
    frame.eoiCode, fun _ => ⟨frame.phase, frame.inPos⟩, fun is => absurd is hfinish⟩, fun k is => ?_⟩
  rw [hit k is]
  rfl

/-! ### The decoder's steps write `IDX` and the tables only forward (R36, R93) -/

/-- `u` becomes `v` without moving `out_pos` back: `IDX` changes only in the cells counted meanwhile, and the tables
only at the next entry. -/
structure DecUnit.WritesForward (u v : DecUnit) : Prop where
  outPos : u.regs.outPos ≤ v.regs.outPos
  idx : ∀ a, a < u.regs.outPos ∨ v.regs.outPos ≤ a → Memory.read v.idx a = Memory.read u.idx a
  tables : ∀ c, c ≠ u.regs.nextCode.toNat →
    v.regs.prefixes.read c = u.regs.prefixes.read c ∧ v.regs.suffixes.read c = u.regs.suffixes.read c

/-- A unit that writes none of them. -/
theorem DecUnit.WritesForward.of_same {u v : DecUnit} (outPos : v.regs.outPos = u.regs.outPos) (idx : v.idx = u.idx)
    (prefixes : v.regs.prefixes = u.regs.prefixes) (suffixes : v.regs.suffixes = u.regs.suffixes) :
    u.WritesForward v :=
  ⟨Nat.le_of_eq outPos.symm, fun _ _ => by rw [idx], fun _ _ => by rw [prefixes, suffixes]; exact ⟨rfl, rfl⟩⟩

/-- `Insert` writes one entry, the next. -/
theorem DecUnit.insert_tables (u : DecUnit) (f : Index) (c : Nat) (hc : c ≠ u.regs.nextCode.toNat) :
    (u.insert f).regs.prefixes.read c = u.regs.prefixes.read c ∧
      (u.insert f).regs.suffixes.read c = u.regs.suffixes.read c := by
  simp only [DecUnit.insert]
  split
  · simp only [Store.read_write, if_neg hc, and_self]
  · exact ⟨rfl, rfl⟩

/-- A data code counts the cells of its run, or writes nothing when the run does not fit (R91, R92). -/
theorem DecUnit.dataCode_writesForward (u : DecUnit) (c : Code) (f : Index) (rest : List Index) :
    u.WritesForward (u.dataCode c f rest) := by
  by_cases hfit : u.regs.outPos + (f :: rest).length ≤ u.cmd.outputLength
  · have inserted := DecUnit.insert_regs_only (u.writeRun (f :: rest)) f
    have counted : (((u.writeRun (f :: rest)).insert f).setPrev c).regs.outPos =
        u.regs.outPos + (f :: rest).length := by rw [inserted]; rfl
    rw [DecUnit.dataCode_fits u c f rest hfit]
    refine ⟨by omega, fun a ha => ?_, fun x hx => DecUnit.insert_tables (u.writeRun (f :: rest)) f x hx⟩
    rw [counted] at ha
    rw [inserted, DecUnit.setPrev_idx, DecUnit.writeRun_idx, Memory.read_writeRun, if_neg (by omega)]
  · obtain ⟨-, idx, regs⟩ := u.overflow_reader
    rw [DecUnit.dataCode_overflows u c f rest (by omega)]
    exact .of_same (by rw [regs]) idx (by rw [regs]) (by rw [regs])

theorem DecUnit.act_writesForward {u v : DecUnit} {i : Instr} (h : u.act i = some v) : u.WritesForward v := by
  rcases DecUnit.act_cases h with rfl | rfl | ⟨c, f, rest, rfl⟩ | ⟨cause, info, rfl⟩
  · exact DecUnit.WritesForward.of_same rfl rfl rfl rfl
  · rw [DecUnit.finish_status_only]
    exact DecUnit.WritesForward.of_same rfl rfl rfl rfl
  · exact u.dataCode_writesForward c f rest
  · exact DecUnit.WritesForward.of_same rfl rfl rfl rfl

theorem State.runDataCode_selected {s t : State} {i : Instr} {c : Code} {run : Option (List Index)}
    (h : s.runDataCode i c run = .next t) : s.dec.selects i = true := by
  simp only [State.runDataCode] at h
  split at h
  · next selected => exact selected
  · cases h

/-- A code that answers a next state acts on the unit once it is out of the accumulator (R83). -/
theorem exec_code_next {i : Instr} {s t : State} (hi : i.isCode = true) (h : exec i s = .next t) :
    ∃ u, s.dec.consumeCode.act i = some u ∧ t = { s with dec := u } := by
  have selected : s.dec.selects i = true := by
    cases i <;> simp only [Instr.isCode, Bool.false_eq_true] at hi
    case clr | eoi | illNoPrev | illRange => exact (State.runDec_next h).1
    case lit k => exact State.runDataCode_selected (c := k.setWidth 12) (run := some [k]) h
    case tab c => exact State.runDataCode_selected (c := c) (run := s.dec.regs.seq c) h
    case kwk c => exact State.runDataCode_selected (c := c) (run := s.dec.regs.kwkRun) h
  rw [exec_code s i hi selected] at h
  split at h
  · next u acted => exact ⟨u, acted, by cases h; rfl⟩
  · cases h

/-- What a framing byte after the start step leaves unchanged: `src_pos` advances by 1, and no table, no width and no
output changes (R80). -/
structure DecUnit.ByteFrame (u v : DecUnit) : Prop where
  cmd : v.cmd = u.cmd
  started : v.started = u.started
  idx : v.idx = u.idx
  regs :
    v.regs =
      { u.regs with
        srcPos := u.regs.srcPos + 1, sbRem := v.regs.sbRem, terminated := v.regs.terminated
        acc := v.regs.acc, nbits := v.regs.nbits }

/-- The three framing bytes after the start step share one frame; a data byte alone fills the accumulator (R80, R81). -/
theorem exec_byte_frame {i : Instr} {s t : State} (hi : IsDecStep i) (notStart : ∀ b, i ≠ .bMcs b)
    (notCode : i.isCode = false) (h : exec i s = .next t) :
    t = { s with dec := t.dec } ∧ DecUnit.ByteFrame s.dec t.dec ∧
      ((∀ b, i ≠ .bData b) → t.dec.regs.acc = s.dec.regs.acc ∧ t.dec.regs.nbits = s.dec.regs.nbits) := by
  rcases hi with ⟨b, start⟩ | ⟨len, rfl⟩ | rfl | ⟨b, rfl⟩ | code
  · exact absurd start (notStart b)
  · obtain ⟨-, rfl⟩ := State.runDec_next h
    exact ⟨rfl, ⟨rfl, rfl, rfl, rfl⟩, fun _ => ⟨rfl, rfl⟩⟩
  · obtain ⟨-, rfl⟩ := State.runDec_next h
    rw [DecUnit.terminator, DecUnit.exhaust, DecUnit.finish_status_only]
    exact ⟨rfl, ⟨rfl, rfl, rfl, rfl⟩, fun _ => ⟨rfl, rfl⟩⟩
  · obtain ⟨-, rfl⟩ := State.runDec_next h
    exact ⟨rfl, ⟨rfl, rfl, rfl, rfl⟩, fun ne => absurd rfl (ne b)⟩
  · cases code.symm.trans notCode

theorem DecUnit.start_stores (u : DecUnit) (b : Byte) :
    (u.start b).regs.prefixes = u.regs.prefixes ∧ (u.start b).regs.suffixes = u.regs.suffixes := by
  simp only [DecUnit.start]
  split <;> exact ⟨rfl, rfl⟩

/-- Settles O38: the start step writes no storage, a code keeps the reader's registers and writes forward, and a framing
byte keeps everything but the reader's registers. -/
theorem decoderStepFrame : Obligations.DecoderStepFrame := by
  intro i s t hi h
  by_cases hstart : ∃ b, i = .bMcs b
  · obtain ⟨b, rfl⟩ := hstart
    obtain ⟨-, rfl⟩ := State.runDec_next h
    have stores := s.dec.start_stores b
    refine ⟨rfl, (s.dec.start_cursor b).1, fun a _ => ?_, fun ne => absurd rfl (ne b), fun c _ => ?_⟩
    · rw [s.dec.start_idx b]
    · rw [stores.1, stores.2]
      exact ⟨rfl, rfl⟩
  have notStart : ∀ b, i ≠ .bMcs b := not_exists.mp hstart
  cases hcode : i.isCode with
  | true =>
    obtain ⟨u, acted, rfl⟩ := exec_code_next hcode h
    have reader := DecUnit.act_reader _ _ _ acted
    have forward := DecUnit.act_writesForward acted
    exact ⟨rfl, reader.cmd, forward.idx,
      fun _ => ⟨reader.started, reader.m, reader.clearCode, reader.eoiCode, forward.outPos,
        fun _ => ⟨reader.srcPos, reader.sbRem, reader.terminated⟩, nofun, fun _ => nofun⟩,
      forward.tables⟩
  | false =>
    obtain ⟨block, frame, held⟩ := exec_byte_frame hi notStart hcode h
    refine ⟨block, frame.cmd, fun a _ => by rw [frame.idx], fun _ => ?_, fun c _ => ?_⟩
    · refine ⟨frame.started, ?_, ?_, ?_, ?_, nofun, fun _ => ⟨?_, ?_, frame.idx, ?_, ?_, ?_, ?_, ?_, ?_⟩,
        fun notData _ => held notData⟩ <;> rw [frame.regs]
    · rw [frame.regs]
      exact ⟨rfl, rfl⟩

/-! ### A byte that `SRC` does not have (R35, R80) -/

/-- A turn of DEC is the unit's own next move. -/
theorem step_of_nextAgent_dec {s : State} {u : DecUnit} (hn : s.nextAgent = some .dec) (hu : s.dec.next? = some u) :
    step s = .next { s.nextTurn with dec := u } := by
  have run : s.nextTurn.dec.phase = .run := of_decide_eq_true (State.nextAgent_ready hn)
  simp only [step, hn]
  rcases stepDec_eq s.nextTurn run with ⟨v, hv, moved⟩ | ⟨stuck, -⟩
  · cases hu.symm.trans hv
    exact moved
  · cases hu.symm.trans stuck

theorem DecUnit.fetchByteAt_beyond {u : DecUnit} {a : Nat} (pos : FramePos) (h : u.cmd.src.length ≤ a) :
    u.fetchByteAt pos a = .overrun a := by
  simp only [DecUnit.fetchByteAt, DecUnit.memRead, List.getElem?_eq_none h]

/-- The three positions at which DEC needs a byte, when `SRC` ends before it. -/
theorem DecUnit.fetch_overrun {u : DecUnit} {a : Nat} (h : u.cmd.src.length ≤ a)
    (needed : u.started = false ∧ a = u.cmd.p0 ∨
      u.NeedsByte ∧ (u.regs.sbRem ≠ 0#8 ∨ u.regs.terminated = false) ∧ a = u.regs.srcPos) :
    u.fetch = .overrun a := by
  rcases needed with ⟨waiting, rfl⟩ | ⟨⟨-, started, short⟩, reads, rfl⟩
  · rw [DecUnit.fetch, if_pos waiting, u.fetchByteAt_beyond _ h]
  · rw [DecUnit.fetch, if_neg (by simp [started]), if_pos short]
    by_cases blockEnd : u.regs.sbRem = 0#8
    · have go : ¬ u.regs.terminated = true := by simpa [blockEnd] using reads
      rw [if_pos blockEnd, if_neg go, u.fetchByteAt_beyond _ h]
    · rw [if_neg blockEnd, u.fetchByteAt_beyond _ h]

theorem DecUnit.fetch_exhausted {u : DecUnit} (needs : u.NeedsByte) (blockEnd : u.regs.sbRem = 0#8)
    (terminated : u.regs.terminated = true) : u.fetch = .exhausted := by
  obtain ⟨-, started, short⟩ := needs
  rw [DecUnit.fetch, if_neg (by simp [started]), if_pos short, if_pos blockEnd, if_pos terminated]

/-- Settles O21: what DEC finds at each missing byte decides its next move. -/
theorem missingSourceByteFaultsOrExhausts : Obligations.MissingSourceByteFaultsOrExhausts := by
  intro s hn
  refine ⟨fun a needed beyond => ?_, fun needs blockEnd terminated => ?_⟩
  · have found := DecUnit.fetch_overrun beyond needed
    exact step_of_nextAgent_dec (u := s.dec.raise .dSourceOverrun (.overrun a)) hn (by simp only [DecUnit.next?, found])
  · have found := DecUnit.fetch_exhausted needs blockEnd terminated
    exact step_of_nextAgent_dec (u := s.dec.exhaust) hn (by simp only [DecUnit.next?, found])

end Sys2Proof.Machine

end

/-! ## Encoding: classes, codes as bits, and framing are read back as they were written (R47 to R60) -/

section

namespace Sys2Proof

/-! ### What a legal context admits (R18, R51, R52) -/

/-- What the registers of R18 say of the code values, whatever `m` is. -/
structure CodeCtx.Bounds (cc : CodeCtx) : Prop where
  clear_ge : 4 ≤ cc.clear
  clear_le : cc.clear ≤ 256
  eoi_eq : cc.eoi = cc.clear + 1
  eoi_lt_next : cc.eoi < cc.next
  next_le : cc.next ≤ 4096
  eoi_lt_pow : cc.eoi < 2 ^ cc.width
  pow_le : 2 ^ cc.width ≤ 4096

theorem CodeCtx.bounds {cc : CodeCtx} (h : cc.ok = true) : cc.Bounds := by
  obtain ⟨-, eoiFits, -, clearLe, nextLe⟩ := Laws.CodeFits.ctx h
  simp only [CodeCtx.ok, List.any_eq_true, Bool.and_eq_true, decide_eq_true_eq, List.mem_range'_1] at h
  obtain ⟨m, ⟨hm, -⟩, ⟨⟨⟨⟨clearEq, eoiEq⟩, nextGe⟩, -⟩, -⟩, widthLe⟩ := h
  have clearGe : 2 ^ 2 ≤ 2 ^ m := Nat.pow_le_pow_right (by decide) hm
  have powLe : 2 ^ cc.width ≤ 2 ^ 12 := Nat.pow_le_pow_right (by decide) widthLe
  exact ⟨by omega, clearLe, by omega, by omega, nextLe, eoiFits, powLe⟩

section

variable {cc : CodeCtx} (h : cc.ok = true)

theorem wfIn_lit (k : Index) : (Instr.lit k).wfIn cc = true ↔ k.toNat < cc.clear := by
  simp only [Instr.wfIn, Instr.wf, Bool.true_and, decide_eq_true_eq]

include h

theorem wfIn_tab (c : Code) :
    (Instr.tab c).wfIn cc = true ↔ cc.eoi < c.toNat ∧ c.toNat < cc.next ∧ c.toNat < 2 ^ cc.width := by
  obtain ⟨clearGe, -, eoiEq, -, -, -, -⟩ := CodeCtx.bounds h
  simp only [Instr.wfIn, Instr.wf, Bool.and_eq_true, decide_eq_true_eq]
  omega

theorem wfIn_kwk (c : Code) :
    (Instr.kwk c).wfIn cc = true ↔ c.toNat = cc.next ∧ cc.prevValid = true ∧ c.toNat < 2 ^ cc.width := by
  obtain ⟨clearGe, -, eoiEq, eoiLt, -, -, -⟩ := CodeCtx.bounds h
  have above : c.toNat = cc.next → 6 ≤ c.toNat := by omega
  simp only [Instr.wfIn, Instr.wf, Bool.and_eq_true, decide_eq_true_eq]
  tauto

theorem wfIn_illNoPrev (c : Code) :
    (Instr.illNoPrev c).wfIn cc = true ↔ c.toNat = cc.next ∧ cc.prevValid = false ∧ c.toNat < 2 ^ cc.width := by
  obtain ⟨clearGe, -, eoiEq, eoiLt, -, -, -⟩ := CodeCtx.bounds h
  have above : c.toNat = cc.next → 6 ≤ c.toNat := by omega
  simp only [Instr.wfIn, Instr.wf, Bool.and_eq_true, Bool.not_eq_true', decide_eq_true_eq]
  tauto

theorem wfIn_illRange (c : Code) :
    (Instr.illRange c).wfIn cc = true ↔ cc.next < c.toNat ∧ c.toNat < 2 ^ cc.width := by
  obtain ⟨clearGe, -, eoiEq, eoiLt, -, -, -⟩ := CodeCtx.bounds h
  simp only [Instr.wfIn, Instr.wf, Bool.and_eq_true, decide_eq_true_eq]
  omega

end

/-! ### A code value and its class determine each other (R52, R53) -/

theorem toNat_ofNat_of_lt {w c : Nat} (h : c < 2 ^ w) : (BitVec.ofNat w c).toNat = c := by
  rw [BitVec.toNat_ofNat, Nat.mod_eq_of_lt h]

section

variable {cc : CodeCtx} (h : cc.ok = true)
include h

/-- The class of a value is a code that its row admits and that has this value. -/
theorem classify_admitted {c : Nat} (hc : c < 2 ^ cc.width) :
    (classify cc c).isCode = true ∧ (classify cc c).wfIn cc = true ∧ codeValue cc (classify cc c) = c := by
  obtain ⟨clearGe, clearLe, eoiEq, eoiLt, nextLe, -, powLe⟩ := CodeCtx.bounds h
  have wide : (BitVec.ofNat 12 c).toNat = c := toNat_ofNat_of_lt (by omega)
  rcases Machine.classify_cases cc c with ⟨is, e⟩ | ⟨is, e⟩ | ⟨below, e⟩ | ⟨other, below, e⟩ | ⟨is, valid, e⟩ |
    ⟨is, invalid, e⟩ | ⟨above, e⟩ <;> rw [e]
  · exact ⟨rfl, rfl, is.symm⟩
  · exact ⟨rfl, rfl, is.symm⟩
  · have narrow : (BitVec.ofNat 8 c).toNat = c := toNat_ofNat_of_lt (by omega)
    exact ⟨rfl, (wfIn_lit _).mpr (by rwa [narrow]), narrow⟩
  · exact ⟨rfl, (wfIn_tab h _).mpr (by rw [wide]; omega), wide⟩
  · exact ⟨rfl, (wfIn_kwk h _).mpr (by rw [wide]; exact ⟨is, valid, hc⟩), wide⟩
  · exact ⟨rfl, (wfIn_illNoPrev h _).mpr (by rw [wide]; exact ⟨is, invalid, hc⟩), wide⟩
  · exact ⟨rfl, (wfIn_illRange h _).mpr (by rw [wide]; exact ⟨above, hc⟩), wide⟩

/-- Above `eoi_code` the class is decided by `next_code` and `prev_valid`. -/
theorem classify_above_eoi {c : Code} (above : cc.eoi < c.toNat) :
    classify cc c.toNat =
      if c.toNat < cc.next then .tab c
      else if c.toNat = cc.next then if cc.prevValid then .kwk c else .illNoPrev c
      else .illRange c := by
  obtain ⟨-, -, eoiEq, -, -, -, -⟩ := CodeCtx.bounds h
  rw [classify, if_neg (by omega), if_neg (by omega), if_neg (by omega), BitVec.ofNat_toNat, BitVec.setWidth_eq]

/-- The value of a code that its row admits is classified as that code. -/
theorem classify_codeValue {i : Instr} (hi : i.isCode = true) (hw : i.wfIn cc = true) :
    classify cc (codeValue cc i) = i := by
  obtain ⟨-, -, eoiEq, eoiLt, -, -, -⟩ := CodeCtx.bounds h
  cases i <;> simp only [Instr.isCode, Bool.false_eq_true] at hi <;> simp only [codeValue]
  case clr => exact if_pos rfl
  case eoi => rw [classify, if_neg (by omega), if_pos rfl]
  case lit k =>
    have below := (wfIn_lit k).mp hw
    rw [classify, if_neg (by omega), if_neg (by omega), if_pos below, BitVec.ofNat_toNat, BitVec.setWidth_eq]
  case tab c =>
    obtain ⟨above, below, -⟩ := (wfIn_tab h c).mp hw
    rw [classify_above_eoi h above, if_pos below]
  case kwk c =>
    obtain ⟨is, valid, -⟩ := (wfIn_kwk h c).mp hw
    rw [classify_above_eoi h (by omega), if_neg (by omega), if_pos is, if_pos valid]
  case illNoPrev c =>
    obtain ⟨is, invalid, -⟩ := (wfIn_illNoPrev h c).mp hw
    rw [classify_above_eoi h (by omega), if_neg (by omega), if_pos is, if_neg (by simp [invalid])]
  case illRange c =>
    obtain ⟨above, -⟩ := (wfIn_illRange h c).mp hw
    rw [classify_above_eoi h (by omega), if_neg (by omega), if_neg (by omega)]

/-- The table of R52, read as one equivalence: a value has the class `i` exactly when `i` is a code with this value that
its row admits. -/
theorem classify_eq_iff {c : Nat} (hc : c < 2 ^ cc.width) (i : Instr) :
    classify cc c = i ↔ i.isCode = true ∧ i.wfIn cc = true ∧ codeValue cc i = c := by
  constructor
  · rintro rfl
    exact classify_admitted h hc
  · rintro ⟨code, admitted, rfl⟩
    exact classify_codeValue h code admitted

theorem decode_code {c : Nat} (hc : c < 2 ^ cc.width) : decode (.code cc c) = .instr (classify cc c) :=
  if_pos ⟨hc, Nat.lt_of_lt_of_le hc (CodeCtx.bounds h).pow_le⟩

end

/-! ### Decoding what was encoded -/

/-- Every instruction's lemma of Laws/PerInstr.lean, as one statement. -/
theorem codeFits : ∀ i : Instr, Laws.CodeFits.Statement i
  | .encode r => Laws.CodeFits.encode r
  | .decode r => Laws.CodeFits.decode r
  | .encStart => Laws.CodeFits.encStart
  | .encHit k => Laws.CodeFits.encHit k
  | .encMiss k => Laws.CodeFits.encMiss k
  | .encFull k => Laws.CodeFits.encFull k
  | .encFinish => Laws.CodeFits.encFinish
  | .bMcs m => Laws.CodeFits.bMcs m
  | .bLen len => Laws.CodeFits.bLen len
  | .bTerm => Laws.CodeFits.bTerm
  | .bData b => Laws.CodeFits.bData b
  | .clr => Laws.CodeFits.clr
  | .eoi => Laws.CodeFits.eoi
  | .lit k => Laws.CodeFits.lit k
  | .tab c => Laws.CodeFits.tab c
  | .kwk c => Laws.CodeFits.kwk c
  | .illNoPrev c => Laws.CodeFits.illNoPrev c
  | .illRange c => Laws.CodeFits.illRange c

theorem decodeByte_mcs {m : Byte} (low : 2 ≤ m.toNat) (high : m.toNat ≤ 8) :
    decodeByte .mcs m = .instr (.bMcs m) := if_pos ⟨low, high⟩

theorem decodeByte_length {len : Byte} (hl : len ≠ 0#8) : decodeByte .length len = .instr (.bLen len) := if_neg hl

/-- A command, an encoder step or a framing byte stands outside the code stream and needs no context. -/
theorem decode_encode_of_not_code (cc : CodeCtx) {i : Instr} (hi : i.isCode = false) (hw : i.wf = true) :
    decode (encode cc i) = .instr i := by
  cases i <;> simp only [Instr.isCode, Bool.true_eq_false] at hi
  case encode | decode | encStart | encHit | encMiss | encFull | encFinish | bTerm | bData => rfl
  case bMcs m =>
    simp only [Instr.wf, Bool.and_eq_true, decide_eq_true_eq] at hw
    exact decodeByte_mcs hw.1 hw.2
  case bLen len => exact decodeByte_length (of_decide_eq_true hw)

/-- A code is decoded from its value as itself. -/
theorem decode_codeValue {cc : CodeCtx} {i : Instr} (h : cc.ok = true) (hw : i.wfIn cc = true)
    (hi : i.isCode = true) : decode (.code cc (codeValue cc i)) = .instr i := by
  obtain ⟨-, fits, -, -⟩ := codeFits i cc h hw
  rw [decode_code h fits, classify_codeValue h hi hw]

theorem decode_encode {cc : CodeCtx} {i : Instr} (h : cc.ok = true) (hw : i.wfIn cc = true) :
    decode (encode cc i) = .instr i := by
  obtain ⟨wf, -, -, asCode⟩ := codeFits i cc h hw
  cases hi : i.isCode with
  | true => rw [asCode hi, decode_codeValue h hw hi]
  | false => exact decode_encode_of_not_code cc hi wf

/-- Settles O43: a code and its value determine each other by the table of R52, and every other instruction is found
where it stands. -/
theorem decodeAndEncodeAgree : Obligations.DecodeAndEncodeAgree := by
  refine ⟨fun cc i h hw => decode_encode h hw, fun cc c h hc => ?_⟩
  obtain ⟨code, admitted, value⟩ := classify_admitted h hc
  obtain ⟨-, -, -, asCode⟩ := codeFits _ cc h admitted
  exact ⟨classify cc c, decode_code h hc, admitted, by rw [asCode code, value]⟩

/-! ### Each class has its row (R52) -/

section

variable {cc : CodeCtx} {c : Nat} (h : cc.ok = true) (hc : c < 2 ^ cc.width)
include h hc

theorem wfIn_of_classify {i : Instr} (e : classify cc c = i) : i.wfIn cc = true := by
  obtain ⟨-, admitted, -⟩ := (classify_eq_iff h hc i).mp e
  exact admitted

/-- A class whose operand is the value itself applies exactly when the value fits the operand and the row admits it. -/
theorem exists_classify_iff {w : Nat} {con : BitVec w → Instr} (isCode : ∀ x, (con x).isCode = true)
    (value : ∀ x, codeValue cc (con x) = x.toNat) :
    (∃ x, classify cc c = con x ∧ x.toNat = c) ↔ c < 2 ^ w ∧ (con (BitVec.ofNat w c)).wfIn cc = true := by
  constructor
  · rintro ⟨x, e, rfl⟩
    rw [BitVec.ofNat_toNat, BitVec.setWidth_eq]
    exact ⟨x.isLt, wfIn_of_classify h hc e⟩
  · rintro ⟨fits, admitted⟩
    have held : (BitVec.ofNat w c).toNat = c := toNat_ofNat_of_lt fits
    exact ⟨_, (classify_eq_iff h hc _).mpr ⟨isCode _, admitted, (value _).trans held⟩, held⟩

/-- A class with a 12-bit operand: every value fits it. -/
theorem exists_classify_code_iff {con : Code → Instr} (isCode : ∀ x, (con x).isCode = true)
    (value : ∀ x, codeValue cc (con x) = x.toNat) :
    (∃ x, classify cc c = con x ∧ x.toNat = c) ↔ (con (BitVec.ofNat 12 c)).wfIn cc = true :=
  (exists_classify_iff h hc isCode value).trans
    (and_iff_right (Nat.lt_of_lt_of_le hc (CodeCtx.bounds h).pow_le))

theorem classify_eq_clr_iff : classify cc c = .clr ↔ c = cc.clear :=
  (classify_eq_iff h hc .clr).trans ⟨fun ⟨_, _, e⟩ => e.symm, fun e => ⟨rfl, rfl, e.symm⟩⟩

theorem classify_eq_eoi_iff : classify cc c = .eoi ↔ c = cc.eoi :=
  (classify_eq_iff h hc .eoi).trans ⟨fun ⟨_, _, e⟩ => e.symm, fun e => ⟨rfl, rfl, e.symm⟩⟩

end

/-- Settles O22: the equivalence `classify_eq_iff`, read at each row of the table; a code has 12 bits, so none reaches
4096. -/
theorem everyCodeHasExactlyOneClass : Obligations.EveryCodeHasExactlyOneClass := by
  intro cc c h hc
  obtain ⟨-, clearLe, -, -, -, -, powLe⟩ := CodeCtx.bounds h
  have wide : (BitVec.ofNat 12 c).toNat = c := toNat_ofNat_of_lt (by omega)
  refine ⟨decode_code h hc, classify_eq_clr_iff h hc, classify_eq_eoi_iff h hc, ?lit, ?tab, ?kwk, ?illNoPrev, ?illRange,
    fun full => ⟨fun x e => ?_, fun x e => ?_, fun x e => ?_⟩⟩
  case lit =>
    rw [exists_classify_iff h hc (fun _ => rfl) (fun _ => rfl), wfIn_lit, BitVec.toNat_ofNat]
    omega
  case tab =>
    rw [exists_classify_code_iff h hc (fun _ => rfl) (fun _ => rfl), wfIn_tab h, wide]
    simp only [hc, and_true]
  case kwk =>
    rw [exists_classify_code_iff h hc (fun _ => rfl) (fun _ => rfl), wfIn_kwk h, wide]
    simp only [hc, and_true]
  case illNoPrev =>
    rw [exists_classify_code_iff h hc (fun _ => rfl) (fun _ => rfl), wfIn_illNoPrev h, wide]
    simp only [hc, and_true]
  case illRange =>
    rw [exists_classify_code_iff h hc (fun _ => rfl) (fun _ => rfl), wfIn_illRange h, wide]
    simp only [hc, and_true]
  · obtain ⟨is, -⟩ := (wfIn_kwk h x).mp (wfIn_of_classify h hc e)
    omega
  · obtain ⟨is, -⟩ := (wfIn_illNoPrev h x).mp (wfIn_of_classify h hc e)
    omega
  · obtain ⟨above, -⟩ := (wfIn_illRange h x).mp (wfIn_of_classify h hc e)
    omega

/-! ### Codes as bits (R37, R49) -/

/-- Settles O44: the first `width` bits are the code's own, and they hold its whole value. -/
theorem decodeBitsGivesBackTheCodeAndTheRest : Obligations.DecodeBitsGivesBackTheCodeAndTheRest := by
  intro cc i rest h hw hi
  obtain ⟨-, fits, -, -⟩ := codeFits i cc h hw
  have len : (encodeBits cc i).length = cc.width := bitsOfNat_length _ _
  have value : natOfBits (encodeBits cc i) = codeValue cc i := by
    rw [encodeBits, natOfBits_bitsOfNat, Nat.mod_eq_of_lt fits]
  have enough : ¬ (encodeBits cc i ++ rest).length < cc.width := by
    rw [List.length_append, len]
    omega
  rw [decodeBits, if_neg enough, List.take_left' len, List.drop_left' len, value, decode_codeValue h hw hi]

/-! ### Framing (R47, R48, R55, R57) -/

theorem blocks_length_le (blocks : List (List Byte)) : blocks.length ≤ (blocks.flatMap subBlock).length := by
  induction blocks with
  | nil => exact Nat.le_refl 0
  | cons d blocks ih =>
    simp only [List.flatMap_cons, subBlock, List.cons_append, List.length_cons, List.length_append]
    omega

theorem unframe_cons {m : Byte} {bytes d after : List Byte} (low : 2 ≤ m.toNat) (high : m.toNat ≤ 8)
    (h : unframeBlocks (bytes.length + 1) bytes = .ok (d, after)) : unframe (m :: bytes) = .ok (m, d, after) := by
  rw [unframe, decodeByte_mcs low high, h]

/-- Any sub-blocks of 1 to 255 bytes, in any mix, are taken apart again (R57). -/
theorem unframe_blocks (m : Byte) (blocks : List (List Byte)) (rest : List Byte) (low : 2 ≤ m.toNat)
    (high : m.toNat ≤ 8) (sizes : ∀ d ∈ blocks, 1 ≤ d.length ∧ d.length ≤ 255) :
    unframe (m :: blocks.flatMap subBlock ++ [0#8] ++ rest) = .ok (m, blocks.flatten, rest) := by
  have shape : m :: blocks.flatMap subBlock ++ [0#8] ++ rest = m :: (blocks.flatMap subBlock ++ 0#8 :: rest) := by
    simp only [List.cons_append, List.append_assoc, List.nil_append]
  rw [shape]
  refine unframe_cons low high (unframeBlocks_blocks blocks rest sizes _ ?_)
  have := blocks_length_le blocks
  rw [List.length_append]
  omega

/-- Settles O45: the encoder's own framing is a case of the general one, and its length is that of its sub-blocks. -/
theorem framingGivesBackItsData : Obligations.FramingGivesBackItsData := by
  refine ⟨unframe_blocks, fun m d rest low high => ?_, fun m d => ?_⟩
  · obtain ⟨blocks, framed, rfl, sizes⟩ := frameBlocks_split d.length d (Nat.le_refl _)
    rw [frame, framed]
    exact unframe_blocks m blocks rest low high sizes
  · rw [frame, List.length_append, List.length_cons, frameBlocks_length d.length d (Nat.le_refl _), List.length_singleton]
    omega

/-! ### Words of the tables -/

/-- Settles O46: each word is fixed, so the decoder is run on it. -/
theorem wordsDecodeAsTheTablesSay : Obligations.WordsDecodeAsTheTablesSay := by
  unfold Obligations.WordsDecodeAsTheTablesSay
  decide

end Sys2Proof

end

/-! ## Host commands: how they start, what they leave alone, and that they end (R60 to R67, R105) -/

section

namespace Sys2Proof.Machine

/-! ### The start of a command (R64, R65, R110, R111) -/

theorem exec_encode_idle {r : EncodeRecord} {s : State} (idle : s.enc.phase ≠ .run) :
    exec (.encode r) s = .next { s with enc := EncUnit.begin r s.freeTick, freeTick := s.freeTick + 1 } := if_neg idle

theorem exec_decode_idle {r : DecodeRecord} {s : State} (idle : s.dec.phase ≠ .run) :
    exec (.decode r) s = .next { s with dec := DecUnit.begin r s.freeTick s.dec.idx, freeTick := s.freeTick + 1 } :=
  if_neg idle

/-- The first thing a DECODE finds stands at `p0` (R79). -/
theorem DecUnit.begin_fetch (r : DecodeRecord) (gen : Nat) (idx : Memory 8) :
    (DecUnit.begin r gen idx).fetch = (DecUnit.begin r gen idx).fetchByteAt .mcs r.p0 := rfl

theorem DecUnit.fetchByteAt_some {u : DecUnit} {a : Nat} {b : Byte} (pos : FramePos) (h : u.cmd.src[a]? = some b) :
    u.fetchByteAt pos a = .raw (.byte pos b) := by
  simp only [DecUnit.fetchByteAt, DecUnit.memRead, h]

/-- Settles O2: the start writes ENC by `EncUnit.begin`, and the start step is the next one, since none has run. -/
theorem encodeStartsCommand : Obligations.EncodeStartsCommand := fun _ _ idle =>
  ⟨_, exec_encode_idle idle, rfl, rfl, rfl, rfl, rfl, rfl, rfl, rfl, rfl⟩

/-- Settles O3: the start writes DEC by `DecUnit.begin`, and what DEC finds then depends on the byte at `p0` alone. -/
theorem decodeStartsCommand : Obligations.DecodeStartsCommand :=
  ⟨fun r _ idle => ⟨_, exec_decode_idle idle, rfl, rfl, rfl, rfl, rfl, rfl, rfl, rfl, rfl, rfl,
      fun _ hb => (DecUnit.begin_fetch r _ _).trans (DecUnit.fetchByteAt_some .mcs hb),
      fun beyond => (DecUnit.begin_fetch r _ _).trans (DecUnit.fetchByteAt_beyond .mcs beyond), rfl⟩,
    fun _ _ _ _ idle => ⟨_, exec_decode_idle idle, rfl, rfl⟩⟩

/-- Settles O4: both commands check the phase of their unit first. -/
theorem commandOnRunningUnitIsRefused : Obligations.CommandOnRunningUnitIsRefused :=
  ⟨fun _ _ busy => if_pos busy, fun _ _ busy => if_pos busy⟩

/-! ### What a unit's own steps leave alone (R42, R46, R61) -/

theorem ne_idle_of_run {p : Phase} (h : p = .run) : p ≠ .idle := by rw [h]; decide

theorem ne_idle_of_ended {p : Phase} (h : p = .done ∨ p = .fault) : p ≠ .idle := by
  rcases h with rfl | rfl <;> decide

/-- `v` is `u` after a step in RUN: in the same command, and still in RUN or at its end. -/
def EncUnit.StaysInCommand (u v : EncUnit) : Prop := v.phase ≠ .idle ∧ v.cmd = u.cmd

theorem EncUnit.IndexFrame.stays {u v : EncUnit} (frame : IndexFrame u v) (run : u.phase = .run) :
    u.StaysInCommand v := by
  obtain ⟨cmd, -⟩ := frame.appends
  exact ⟨ne_idle_of_run (frame.phase.trans run), cmd⟩

/-- The step of an encoder in RUN, in any registers. -/
theorem EncUnit.next_stays {u : EncUnit} (run : u.phase = .run) : u.StaysInCommand u.next := by
  simp only [EncUnit.next]
  split
  · rcases u.start_cases with ⟨c, i, he, -, -⟩ | ⟨first, rest, -, -, he⟩
    · rw [he]
      exact ⟨nofun, rfl⟩
    · have packed := (u.startRegs.append_frame u.cmd.m).trans (emitCode_frame _ (u.startRegs.regs.clearCode.setWidth 12))
      rw [he]
      exact ⟨ne_idle_of_run (packed.phase.trans run), packed.cmd⟩
  · split
    · obtain ⟨w, packed, finished⟩ := u.finish_packed
      rw [finished]
      exact ⟨nofun, packed.cmd⟩
    · split
      · exact (u.hit_frame _).stays run
      · split
        · exact (u.full_frame _).stays run
        · exact (u.miss_frame _).stays run

/-- The same of a decoder. -/
def DecUnit.StaysInCommand (u v : DecUnit) : Prop := v.phase ≠ .idle ∧ v.cmd = u.cmd

theorem DecUnit.finish_stays (u : DecUnit) : u.StaysInCommand u.finish :=
  ⟨ne_idle_of_ended u.finish_ends, by rw [DecUnit.finish_status_only]⟩

theorem DecUnit.start_stays {u : DecUnit} (run : u.phase = .run) (b : Byte) : u.StaysInCommand (u.start b) := by
  obtain ⟨cmd, -⟩ := u.start_cursor b
  refine ⟨?_, cmd⟩
  simp only [DecUnit.start]
  split
  · exact nofun
  · exact ne_idle_of_run run

theorem DecUnit.dataCode_stays {u : DecUnit} (run : u.phase = .run) (c : Code) (f : Index) (rest : List Index) :
    u.StaysInCommand (u.dataCode c f rest) := by
  refine ⟨?_, (u.dataCode_reader c f rest).cmd⟩
  by_cases fits : u.regs.outPos + (f :: rest).length ≤ u.cmd.outputLength
  · rw [DecUnit.dataCode_fits u c f rest fits, DecUnit.insert_regs_only]
    exact ne_idle_of_run run
  · rw [DecUnit.dataCode_overflows u c f rest (by omega)]
    exact ne_idle_of_ended u.overflow_ends

theorem DecUnit.act_stays {u v : DecUnit} {i : Instr} (run : u.phase = .run) (h : u.act i = some v) :
    u.StaysInCommand v := by
  rcases DecUnit.act_cases h with rfl | rfl | ⟨c, f, rest, rfl⟩ | ⟨cause, info, rfl⟩
  · exact ⟨ne_idle_of_run run, rfl⟩
  · exact DecUnit.finish_stays (u.setEndReason .eoi)
  · exact DecUnit.dataCode_stays run c f rest
  · exact ⟨nofun, rfl⟩

/-- The step of a decoder in RUN, in any registers. -/
theorem DecUnit.next?_stays {u v : DecUnit} (run : u.phase = .run) (hv : u.next? = some v) : u.StaysInCommand v := by
  simp only [DecUnit.next?] at hv
  split at hv
  · cases hv; exact ⟨nofun, rfl⟩
  · cases hv; exact DecUnit.finish_stays (u.setEndReason .exhausted)
  · cases hv; exact DecUnit.start_stays run _
  · split at hv
    · cases hv
      exact DecUnit.finish_stays (DecUnit.setEndReason .exhausted _)
    · cases hv; exact ⟨ne_idle_of_run run, rfl⟩
  · cases hv; exact ⟨ne_idle_of_run run, rfl⟩
  · split at hv
    · exact DecUnit.act_stays (u := u.consumeCode) run hv
    · cases hv
  · cases hv
  · cases hv
  · cases hv

/-- Outside RUN only the host's next ENCODE changes an encoder. -/
theorem step_enc_outside_run {s t : State} (h : step s = .next t) (idle : s.enc.phase ≠ .run) :
    t.enc = s.enc ∨ ∃ r rest, s.hostq = .encode r :: rest ∧ t.enc = EncUnit.begin r s.freeTick := by
  rcases step_cases h with ⟨-, rfl⟩ | ⟨r, rest, hq, -, rfl⟩ | ⟨_, _, -, -, rfl⟩ | ⟨_, _, _, -, -, rfl⟩ | ⟨run, -⟩ |
    ⟨_, -, -, rfl⟩
  · exact .inl rfl
  · exact .inr ⟨r, rest, hq, rfl⟩
  · exact .inl rfl
  · exact .inl rfl
  · exact absurd run idle
  · exact .inl rfl

/-- Outside RUN only the host's next DECODE, or its write to `IDX`, changes a decoder. -/
theorem step_dec_outside_run {s t : State} (h : step s = .next t) (idle : s.dec.phase ≠ .run) :
    t.dec = s.dec ∨
      (∃ r rest, s.hostq = .decode r :: rest ∧ t.dec = DecUnit.begin r s.freeTick s.dec.idx) ∨
      ∃ pos v rest, s.hostq = .writeIdx pos v :: rest ∧
        t.dec = { s.dec with idx := Memory.write s.dec.idx pos v } := by
  rcases step_cases h with ⟨-, rfl⟩ | ⟨_, _, -, -, rfl⟩ | ⟨r, rest, hq, -, rfl⟩ | ⟨pos, v, rest, hq, -, rfl⟩ |
    ⟨-, rfl⟩ | ⟨_, run, -, -⟩
  · exact .inl rfl
  · exact .inl rfl
  · exact .inr (.inl ⟨r, rest, hq, rfl⟩)
  · exact .inr (.inr ⟨pos, v, rest, hq, rfl⟩)
  · exact .inl rfl
  · exact absurd run idle

/-- Settles O5: outside RUN the host alone changes a unit, and in RUN the unit's own step keeps it in its command. -/
theorem unitsChangeOnlyByTheirCommands : Obligations.UnitsChangeOnlyByTheirCommands := by
  intro s t h
  refine ⟨step_enc_outside_run h, step_dec_outside_run h, fun run => ?_, fun run => ?_⟩
  · rcases step_enc_in_run h run with kept | moved
    · rw [kept]; exact ⟨ne_idle_of_run run, rfl⟩
    · rw [moved]; exact EncUnit.next_stays run
  · rcases step_dec_in_run h run with kept | moved
    · rw [kept]; exact ⟨ne_idle_of_run run, rfl⟩
    · exact DecUnit.next?_stays run moved

/-! ### The host's duties (R10, R66) -/

/-- The `m` of a palette with an index of `e` bits. -/
theorem hostMinCodeSize_two_pow (e : Nat) : hostMinCodeSize (2 ^ e) = max 2 e := by
  rw [hostMinCodeSize, Nat.clog_pow 2 e (by decide)]

/-- Settles O60: for a palette of `2^e` colours the host's `m` is `max 2 e`, which is in 2..8 and at least `e`. -/
theorem hostDutiesGiveALegalEncode : Obligations.HostDutiesGiveALegalEncode := by
  rintro p w h r ⟨⟨e, eLow, eHigh, rfl⟩, hm, hlen, hall⟩ frame
  rw [hostMinCodeSize_two_pow] at hm
  have holds : 2 ^ e ≤ 2 ^ r.m.toNat := Nat.pow_le_pow_right (by decide) (by omega)
  have nonempty : r.S ≠ [] := List.ne_nil_of_length_pos (by omega)
  exact ⟨(EncodeRecord.wf_iff r).mpr ⟨by omega, by omega, nonempty, fun v hv => (hall v hv).trans_le holds⟩, holds⟩

/-! ### An ENCODE ends after one step for its start, one for each further index and one for its end (R62) -/

/-- `u` runs the command `r` and has read `k` of its indices; each step so far added at most 24 bits to the code
stream (R54). -/
structure EncUnit.InRunAt (r : EncodeRecord) (k : Nat) (u : EncUnit) : Prop where
  running : u.Running
  phase : u.phase = .run
  started : u.started = true
  cmd : u.cmd = r
  cause : u.cause = .none
  inPos : u.regs.inPos = k
  emitted : ∃ bits, u.Emitted bits ∧ r.m.toNat + 1 ≤ bits.length ∧ bits.length + 24 ≤ r.m.toNat + 1 + 24 * k

/-- The start step of a legal ENCODE reads its first index and emits the clear code (R68). -/
theorem EncUnit.begin_inRunAt {r : EncodeRecord} (legal : r.wf = true) (gen : Nat) :
    (EncUnit.begin r gen).next.InRunAt r 1 := by
  have next_eq : (EncUnit.begin r gen).next = (EncUnit.begin r gen).start := rfl
  rw [next_eq]
  rcases (EncUnit.begin r gen).start_cases with ⟨-, -, -, -, bad⟩ | ⟨first, rest, hS, -, he⟩
  · cases legal.symm.trans bad
  · obtain ⟨regs, emitted, cmd, phase, started, cause, -, inPos, -, m, -, -⟩ :=
      (EncUnit.begin r gen).startValid_running first rest legal hS rfl rfl
    obtain ⟨-, -, nonempty, small⟩ := (EncodeRecord.wf_iff r).mp legal
    have hlen : 1 ≤ r.S.length := List.length_pos_iff.mpr nonempty
    have cmd : ((EncUnit.begin r gen).startValid first).cmd = r := cmd
    rw [he]
    refine ⟨.of_emitted regs ?_ ?_ ?_ emitted, phase, started, cmd, cause, inPos, _, emitted,
      (bitsOfNat_length _ _).ge, Nat.add_le_add_right (bitsOfNat_length _ _).le 24⟩
    · rw [cmd, m]; rfl
    · rw [cmd]; exact small
    · rw [cmd, inPos]; exact ⟨Nat.le_refl 1, hlen⟩

/-- A legal ENCODE is still in RUN after its start step and any index steps (R69). -/
theorem EncUnit.begin_steps {r : EncodeRecord} (legal : r.wf = true) (gen : Nat) {j : Nat} (hj : j < r.S.length) :
    ∃ v, EncUnit.Steps (j + 1) (EncUnit.begin r gen) v ∧ v.InRunAt r (j + 1) := by
  obtain ⟨running, phase, started, cmd, cause, inPos, bits, emitted, low, high⟩ := EncUnit.begin_inRunAt legal gen
  obtain ⟨v, more, steps, running', phase', started', emitted', cmd', cause', -, inPos', few⟩ :=
    (EncUnit.begin r gen).next.index_steps j bits running phase started emitted (by rw [inPos, cmd]; omega)
  refine ⟨v, .succ rfl steps, running', phase', started', cmd'.trans cmd, cause'.trans cause, by omega, _, emitted', ?_,
    ?_⟩ <;> rw [List.length_append] <;> omega

/-- The finish step of an encoder that has read every index: its two codes and the padding close a stream of at least
2 and at most `3n + 3` data bytes (R55, R73, R78). -/
theorem EncUnit.InRunAt.finish {r : EncodeRecord} {u : EncUnit} (h : u.InRunAt r r.S.length) (legal : r.wf = true) :
    u.next.phase = .done ∧ u.next.cause = .none ∧ u.next.regs.inPos = r.S.length ∧
      ∃ d : List Byte, u.next.out = frame r.m d ∧ u.next.outLen = 2 + d.length + (d.length + 254) / 255 ∧
        2 ≤ d.length ∧ d.length ≤ 3 * r.S.length + 3 := by
  obtain ⟨running, -, started, cmd, cause, inPos, bits, emitted, low, high⟩ := h
  obtain ⟨mLow, mHigh, -, -⟩ := (EncodeRecord.wf_iff r).mp legal
  have atEnd : u.view.atEnd = true := by simp [EncUnit.view, cmd, inPos]
  have next_eq : u.next = u.finish := by simp [EncUnit.next, started, atEnd]
  obtain ⟨d, pad, padLt, stream, out, outLen, phase, cause', -, inPos', -⟩ := u.finish_emitted bits running emitted
  rw [next_eq]
  refine ⟨phase, cause'.trans cause, inPos'.trans inPos, d, by rw [out, cmd], ?_, ?_⟩
  · obtain ⟨-, -, frame_length⟩ := framingGivesBackItsData
    rw [outLen, out, frame_length]
  · have widthHigh := running.regs.width_le
    have widthLow : u.regs.m.toNat + 1 ≤ u.regs.width.toNat := by
      rw [running.regs.width_eq]; exact Nat.le_max_left _ _
    have sameM := running.cmd_m
    rw [cmd] at sameM
    have count : 8 * d.length = bits.length + u.regs.width.toNat * 2 + pad := by
      rw [← dataBits_length, stream, List.length_append, List.length_append, codeBits_length, List.length_replicate]
      rfl
    omega

/-- Settles O54: the start step, an induction over the indices that follow, and the finish step. -/
theorem encodeEndsAfterItsSteps : Obligations.EncodeEndsAfterItsSteps := by
  intro r s t legal h
  have begun := execEncode_next h
  obtain ⟨-, -, nonempty, -⟩ := (EncodeRecord.wf_iff r).mp legal
  obtain ⟨j, hj⟩ : ∃ j, r.S.length = j + 1 := Nat.exists_eq_succ_of_ne_zero (by simpa using nonempty)
  refine ⟨fun k hk => ?_, ?_⟩
  · cases k with
    | zero => exact ⟨_, run_onlyFor_enc 0 t t.enc (.zero _), by rw [begun]; rfl⟩
    | succ i =>
      obtain ⟨v, steps, inRun⟩ := EncUnit.begin_steps legal s.freeTick (j := i) hk
      exact ⟨_, run_onlyFor_enc _ t v (begun ▸ steps), inRun.phase⟩
  · obtain ⟨v, steps, inRun⟩ := EncUnit.begin_steps legal s.freeTick (j := j) (by omega)
    rw [← hj] at steps inRun
    have last : EncUnit.Steps 1 v v.next := .succ inRun.phase (.zero _)
    exact ⟨_, run_onlyFor_enc _ t v.next (begun ▸ steps.trans last), inRun.finish legal⟩

/-! ### Every DECODE ends, each move on the way using up at least 3 units of the work left (R62) -/

/-- A decoder in a command whose start step has run, within its invariant. -/
structure DecUnit.Active (u : DecUnit) : Prop where
  phase : u.phase = .run
  started : u.started = true
  running : u.Running

/-- A decoder whose command has ended. -/
def DecUnit.Ended (u : DecUnit) : Prop := u.phase = .done ∨ u.phase = .fault

/-- What a decoder has still to do: the bits it holds, and `perByte` units for each byte of `SRC` it has not read.  A
byte is its 8 bits in the steps of the pseudocode, and 11 units in the model's own steps, where reading it is a step of
its own. -/
def DecUnit.workLeft (perByte : Nat) (u : DecUnit) : Nat :=
  u.regs.nbits.toNat + perByte * (u.cmd.src.length - u.regs.srcPos)

/-- A move from `u` to `v` that ends the command, or leaves at least 3 units of work fewer. -/
def DecUnit.Progress (perByte : Nat) (u v : DecUnit) : Prop :=
  v.Ended ∨ v.Active ∧ v.workLeft perByte + 3 ≤ u.workLeft perByte

theorem DecUnit.Progress.from_earlier {perByte : Nat} {u w v : DecUnit} (h : w.Progress perByte v)
    (less : w.workLeft perByte ≤ u.workLeft perByte) : u.Progress perByte v :=
  h.imp_right fun ⟨active, left⟩ => ⟨active, left.trans less⟩

/-- Moves that all make progress end the command, after a number of them bounded by the work left.  `Reach k u v` says
that `k` moves lead from `u` to `v`. -/
theorem DecUnit.ends_of_progress {perByte : Nat} {move : DecUnit → Option DecUnit}
    {Reach : Nat → DecUnit → DecUnit → Prop}
    (stay : ∀ u, Reach 0 u u)
    (go : ∀ {k u v w}, u.phase = .run → move u = some v → Reach k v w → Reach (k + 1) u w)
    (progress : ∀ u : DecUnit, u.Active → ∃ v, move u = some v ∧ u.Progress perByte v) (n : Nat) (u : DecUnit)
    (active : u.Active) (bound : u.workLeft perByte < 3 * n) : ∃ k, k ≤ n ∧ ∃ v, Reach k u v ∧ v.Ended := by
  induction n generalizing u with
  | zero => exact absurd bound (Nat.not_lt_zero _)
  | succ n ih =>
    obtain ⟨v, moved, ended | ⟨active', less⟩⟩ := progress u active
    · exact ⟨1, by omega, v, go active.phase moved (stay v), ended⟩
    · obtain ⟨k, hk, w, reach, ended⟩ := ih v active' (by omega)
      exact ⟨k + 1, by omega, w, go active.phase moved reach, ended⟩

/-! #### What one byte and one code use up -/

section

variable {u : DecUnit} {b : Byte} (hb : u.cmd.src[u.regs.srcPos]? = some b)
include hb

theorem DecUnit.srcPos_lt : u.regs.srcPos < u.cmd.src.length := (List.getElem?_eq_some_iff.mp hb).1

theorem DecUnit.src_range_succ (h : u.Running) :
    u.cmd.p0 < u.regs.srcPos + 1 ∧ u.regs.srcPos + 1 ≤ u.cmd.src.length :=
  ⟨Nat.lt_succ_of_lt h.src_range.1, DecUnit.srcPos_lt hb⟩

theorem DecUnit.lenByte_active (h : u.Active) (len : Byte) : (u.lenByte len).Active := by
  obtain ⟨phase, started, running⟩ := h
  exact ⟨phase, started, running.regs.congr rfl running.regs.nbits_le running.regs.acc_lt,
    DecUnit.src_range_succ hb running, running.out_range, running.no_warning, running.written⟩

theorem DecUnit.dataByte_active (h : u.Active) (needs : u.regs.nbits.toNat < u.regs.width.toNat) :
    (u.dataByte b).Active := by
  obtain ⟨phase, started, running⟩ := h
  obtain ⟨legal, -, -⟩ := u.dataByte_legal b running.regs needs
  exact ⟨phase, started, legal, DecUnit.src_range_succ hb running, running.out_range, running.no_warning,
    running.written⟩

theorem DecUnit.srcLeft_succ (perByte : Nat) :
    perByte * (u.cmd.src.length - (u.regs.srcPos + 1)) + perByte = perByte * (u.cmd.src.length - u.regs.srcPos) := by
  have inside := DecUnit.srcPos_lt hb
  rw [← Nat.mul_add_one]
  congr 1
  omega

/-- A length byte gives no bits. -/
theorem DecUnit.lenByte_workLeft (perByte : Nat) (len : Byte) :
    (u.lenByte len).workLeft perByte + perByte = u.workLeft perByte := by
  rw [DecUnit.workLeft, DecUnit.workLeft, ← DecUnit.srcLeft_succ hb, ← Nat.add_assoc]
  rfl

/-- A data byte gives 8 bits. -/
theorem DecUnit.dataByte_workLeft (h : u.Active) (perByte : Nat)
    (needs : u.regs.nbits.toNat < u.regs.width.toNat) :
    (u.dataByte b).workLeft perByte + perByte = u.workLeft perByte + 8 := by
  obtain ⟨-, held, -⟩ := u.dataByte_legal b h.running.regs needs
  rw [DecUnit.workLeft, held, DecUnit.workLeft, ← DecUnit.srcLeft_succ hb, Nat.add_right_comm _ 8,
    Nat.add_right_comm _ 8, ← Nat.add_assoc]
  rfl

end

theorem DecRegs.Legal.three_le_width {r : DecRegs} (h : r.Legal) : 3 ≤ r.width.toNat := by
  have long : 2 < bitlen r.nextCode.toNat := (lt_bitlen_iff _ 2).mpr (by
    have := h.two_pow_le; have := h.eoi_eq; have := h.next_range.1; omega)
  rw [h.width_eq]
  omega

/-- A code, whatever its class, takes its width, at least 3 bits, out of the accumulator (R81, R83). -/
theorem DecUnit.code_progress {u : DecUnit} (h : u.Active) (perByte : Nat)
    (enough : u.regs.width.toNat ≤ u.regs.nbits.toNat) {c : Nat} (hc : c < 4096) :
    ∃ v, u.consumeCode.act (classify u.consumeCode.regs.codeCtx c) = some v ∧ u.Progress perByte v := by
  obtain ⟨phase, started, running⟩ := h
  obtain ⟨v, acted, ⟨phase', started', running'⟩ | ended⟩ :=
    u.consumeCode.act_goes c (u.consumeCode_running running enough) phase started hc
  · refine ⟨v, acted, .inr ⟨⟨phase', started', running'⟩, ?_⟩⟩
    have frame := DecUnit.act_reader _ _ _ acted
    obtain ⟨-, held, -⟩ := u.consumeCode_legal running.regs enough
    have wide := running.regs.three_le_width
    have left : v.workLeft perByte = u.consumeCode.regs.nbits.toNat + perByte * (u.cmd.src.length - u.regs.srcPos) := by
      rw [DecUnit.workLeft, frame.nbits, frame.cmd, frame.srcPos]; rfl
    rw [left, held, DecUnit.workLeft]
    omega
  · exact ⟨v, acted, .inl ended⟩

theorem DecRegs.Legal.codeHeld_lt {r : DecRegs} (h : r.Legal) : r.codeHeld < 4096 :=
  Nat.lt_of_lt_of_le (Nat.mod_lt _ (Nat.two_pow_pos _)) (Nat.pow_le_pow_right (by decide) h.width_le)

/-! #### The model's own steps -/

/-- Every step of the model on a running decoder ends the command, or reads a byte or a code (R80, R81, R83). -/
theorem DecUnit.next?_progress (u : DecUnit) (h : u.Active) : ∃ v, u.next? = some v ∧ u.Progress 11 v := by
  rcases u.running_step h.running h.started with ⟨-, -, he⟩ | ⟨-, -, -, he⟩ | ⟨b, -, -, hb, -, he⟩ |
    ⟨b, needs, -, hb, he⟩ | ⟨enough, -, hc, he⟩
  · exact ⟨_, he, .inl (.inr rfl)⟩
  · exact ⟨_, he, .inl (DecUnit.finish_ends _)⟩
  · have used := DecUnit.lenByte_workLeft hb 11 b
    exact ⟨_, he, .inr ⟨DecUnit.lenByte_active hb h b, by omega⟩⟩
  · have used := DecUnit.dataByte_workLeft hb h 11 needs
    exact ⟨_, he, .inr ⟨DecUnit.dataByte_active hb h needs, by omega⟩⟩
  · rw [he]
    exact DecUnit.code_progress h 11 enough hc

/-! #### The steps of the pseudocode -/

/-- What `FetchByte` makes of a unit that is at a data byte (R80). -/
def DecUnit.dataByteRead (u : DecUnit) : DecUnit :=
  { u with regs := { u.regs with srcPos := u.regs.srcPos + 1, sbRem := BitVec.ofNat 8 (u.regs.sbRem.toNat - 1) } }

theorem DecUnit.readDataByte_cases (u : DecUnit) :
    (∃ v, u.readDataByte = .raised v ∧ v.Ended) ∨
      ∃ b, u.cmd.src[u.regs.srcPos]? = some b ∧ u.readDataByte = .value b u.dataByteRead := by
  simp only [DecUnit.readDataByte, DecUnit.memRead]
  cases u.cmd.src[u.regs.srcPos]? with
  | none => exact .inl ⟨_, rfl, .inr rfl⟩
  | some b => exact .inr ⟨b, rfl, rfl⟩

/-- `FetchByte` raises, finds no more bytes, or reads a data byte of a unit `w`, which is the unit itself or the unit at
the start of its next sub-block (R80). -/
theorem DecUnit.fetchByte_cases {u : DecUnit} (h : u.Active) (needs : u.regs.nbits.toNat < u.regs.width.toNat) :
    (∃ v, u.fetchByte = .raised v ∧ v.Ended) ∨ (∃ v, u.fetchByte = .noMore v) ∨
      ∃ (w : DecUnit) (b : Byte), u.fetchByte = .value b w.dataByteRead ∧ w.Active ∧
        w.regs.nbits.toNat < w.regs.width.toNat ∧ w.cmd.src[w.regs.srcPos]? = some b ∧ w.workLeft 8 ≤ u.workLeft 8 := by
  by_cases blockEnd : u.regs.sbRem = 0#8
  · have notEnded : ¬ u.regs.terminated = true := by simp [h.running.regs.not_terminated]
    simp only [DecUnit.fetchByte, if_pos blockEnd, if_neg notEnded, DecUnit.memRead]
    cases hb : u.cmd.src[u.regs.srcPos]? with
    | none => exact .inl ⟨_, rfl, .inr rfl⟩
    | some len =>
      by_cases last : len = 0#8
      · simp only [if_pos last]
        exact .inr (.inl ⟨_, rfl⟩)
      · simp only [if_neg last]
        have used := DecUnit.lenByte_workLeft hb 8 len
        rcases (u.lenByte len).readDataByte_cases with raised | ⟨b, hb', read⟩
        · exact .inl raised
        · exact .inr (.inr ⟨u.lenByte len, b, read, DecUnit.lenByte_active hb h len, needs, hb', by omega⟩)
  · simp only [DecUnit.fetchByte, if_neg blockEnd]
    rcases u.readDataByte_cases with raised | ⟨b, hb, read⟩
    · exact .inl raised
    · exact .inr (.inr ⟨u, b, read, h, needs, hb, Nat.le_refl _⟩)

/-- `ReadCode` raises, finds too few bits, or takes the code that a unit `w` holds, after reading some bytes (R81). -/
theorem DecUnit.readCode_cases (fuel : Nat) {u : DecUnit} (h : u.Active) :
    (∃ v, u.readCode fuel = .raised v ∧ v.Ended) ∨ (∃ v, u.readCode fuel = .noMore v) ∨
      ∃ w : DecUnit, u.readCode fuel = .value w.regs.codeHeld w.consumeCode ∧ w.Active ∧
        w.regs.width.toNat ≤ w.regs.nbits.toNat ∧ w.workLeft 8 ≤ u.workLeft 8 := by
  induction fuel generalizing u with
  | zero => exact .inr (.inl ⟨u, rfl⟩)
  | succ fuel ih =>
    by_cases needs : u.regs.nbits.toNat < u.regs.width.toNat
    · simp only [DecUnit.readCode, if_pos needs]
      rcases DecUnit.fetchByte_cases h needs with ⟨v, fetched, ended⟩ | ⟨v, fetched⟩ |
        ⟨w, b, fetched, active, needs', hb, less⟩ <;> rw [fetched]
      · exact .inl ⟨v, rfl, ended⟩
      · exact .inr (.inl ⟨v, rfl⟩)
      · have used := DecUnit.dataByte_workLeft hb active 8 needs'
        rcases ih (DecUnit.dataByte_active hb active needs') with raised | noMore | ⟨x, read, active', enough, less'⟩
        · exact .inl raised
        · exact .inr (.inl noMore)
        · exact .inr (.inr ⟨x, read, active', enough, by omega⟩)
    · simp only [DecUnit.readCode, if_neg needs]
      exact .inr (.inr ⟨u, rfl, h, Nat.le_of_not_lt needs, Nat.le_refl _⟩)

/-- Once `ReadCode` has a code, `DecStep` is the action of the code's class (R83). -/
theorem DecUnit.decStep_value {u v : DecUnit} {c : Nat} (read : u.readCode 3 = .value c v) (hc : c < 4096) :
    u.decStep = v.act (classify v.regs.codeCtx c) := by
  have fits : ¬ Config.tableSize ≤ c := Nat.not_le_of_lt hc
  have narrow : (BitVec.ofNat 12 c).setWidth 8 = BitVec.ofNat 8 c := BitVec.setWidth_ofNat_of_le (by decide) c
  have clearEq : v.regs.clearCode.toNat = v.regs.codeCtx.clear := rfl
  have eoiEq : v.regs.eoiCode.toNat = v.regs.codeCtx.eoi := rfl
  have nextEq : v.regs.nextCode.toNat = v.regs.codeCtx.next := rfl
  have validEq : v.regs.prevValid = v.regs.codeCtx.prevValid := rfl
  simp only [DecUnit.decStep, read, if_neg fits, narrow, ite_and, classify, clearEq, eoiEq, nextEq, validEq]
  -- both sides now make the same comparisons in the order of R52
  split_ifs <;> rfl

/-- Every step of the pseudocode on a running decoder ends the command or reads a code. -/
theorem DecUnit.decStep_progress (u : DecUnit) (h : u.Active) : ∃ v, u.decStep = some v ∧ u.Progress 8 v := by
  rcases DecUnit.readCode_cases 3 h with ⟨v, read, ended⟩ | ⟨v, read⟩ | ⟨w, read, active, enough, less⟩
  · exact ⟨v, by simp only [DecUnit.decStep, read], .inl ended⟩
  · exact ⟨(v.setEndReason .exhausted).finish, by simp only [DecUnit.decStep, read], .inl (DecUnit.finish_ends _)⟩
  · have held := active.running.regs.codeHeld_lt
    obtain ⟨v, acted, progress⟩ := DecUnit.code_progress active 8 enough held
    exact ⟨v, (DecUnit.decStep_value read held).trans acted, progress.from_earlier less⟩

/-! #### From the start of the command -/

/-- The start step of a DECODE leaves the bytes after the min-code-size byte to read (R79). -/
theorem DecUnit.begin_start {r : DecodeRecord} {b : Byte} (hb : r.src[r.p0]? = some b) (low : 2 ≤ b.toNat)
    (high : b.toNat ≤ 8) (gen : Nat) (idx : Memory 8) (perByte : Nat) :
    ((DecUnit.begin r gen idx).start b).Active ∧
      ((DecUnit.begin r gen idx).start b).workLeft perByte = perByte * (r.src.length - (r.p0 + 1)) := by
  obtain ⟨running, started, phase, cmd, -, -, -, -, srcPos, -, nbits, -⟩ :=
    (DecUnit.begin r gen idx).start_running b low high (List.getElem?_eq_some_iff.mp hb).1 ⟨rfl, rfl⟩
  refine ⟨⟨phase, started, running⟩, ?_⟩
  rw [DecUnit.workLeft, nbits, cmd, srcPos]
  exact Nat.zero_add _

/-- A DECODE ends within its bound in the model's own steps. -/
theorem DecUnit.begin_ends (r : DecodeRecord) (gen : Nat) (idx : Memory 8) :
    ∃ k, k ≤ 11 * (r.src.length - r.p0) / 3 + 2 ∧ ∃ v, DecUnit.Steps k (DecUnit.begin r gen idx) v ∧ v.Ended := by
  rcases (DecUnit.begin r gen idx).first_step rfl with ⟨-, he⟩ | ⟨b, hb, he⟩
  · exact ⟨1, by omega, _, .succ rfl he (.zero _), .inr rfl⟩
  · by_cases bad : b.toNat < 2 ∨ 8 < b.toNat
    · have ended : ((DecUnit.begin r gen idx).start b).Ended := by rw [DecUnit.start_faults _ b bad]; exact .inr rfl
      exact ⟨1, by omega, _, .succ rfl he (.zero _), ended⟩
    · have hb : r.src[r.p0]? = some b := hb
      have inside := (List.getElem?_eq_some_iff.mp hb).1
      obtain ⟨active, work⟩ := DecUnit.begin_start hb (by omega) (by omega) gen idx 11
      obtain ⟨k, hk, v, steps, ended⟩ := DecUnit.ends_of_progress DecUnit.Steps.zero DecUnit.Steps.succ
        DecUnit.next?_progress (11 * (r.src.length - (r.p0 + 1)) / 3 + 1) _ active (by omega)
      exact ⟨k + 1, by omega, v, .succ rfl he steps, ended⟩

/-- Settles O55: every step that does not end the command uses up at least 3 units of the work left, in the model's
steps and in those of the pseudocode. -/
theorem decodeEndsWithinItsBound : Obligations.DecodeEndsWithinItsBound := by
  intro r s t h
  have begun := execDecode_next h
  constructor
  · obtain ⟨k, hk, v, steps, ended⟩ := DecUnit.begin_ends r s.freeTick s.dec.idx
    exact ⟨k, hk, _, run_onlyFor_dec k t v (begun ▸ steps), ended⟩
  · intro b hb low high
    rw [begun]
    obtain ⟨active, work⟩ := DecUnit.begin_start hb low high s.freeTick s.dec.idx 8
    obtain ⟨k, hk, v, steps, ended⟩ := DecUnit.ends_of_progress (Reach := fun k u v => u.decSteps k = some v)
      (fun _ => rfl) (fun run moved rest => by simp only [DecUnit.decSteps, if_pos run, moved, Option.bind_some, rest])
      DecUnit.decStep_progress (8 * (r.src.length - (r.p0 + 1)) / 3 + 1) _ active (by omega)
    exact ⟨k, by omega, v, steps, ended⟩

end Sys2Proof.Machine

end

/-! ## The encoder: its steps, the sub-blocker and the bit packer (R54, R56, R68 to R76) -/

section

namespace Sys2Proof.Machine

/-! ### The start step (R68) -/

section

variable {u : EncUnit}

theorem EncUnit.start_of_bad_m (bad : u.cmd.m.toNat < 2 ∨ 8 < u.cmd.m.toNat) :
    u.start = u.raise .eBadMinCodeSize (.minCodeSize u.cmd.m) := if_pos bad

section

variable (low : 2 ≤ u.cmd.m.toNat) (high : u.cmd.m.toNat ≤ 8)

include low high

theorem EncUnit.good_m : ¬ (u.cmd.m.toNat < Config.mcsMin ∨ Config.mcsMax < u.cmd.m.toNat) :=
  not_or.mpr ⟨Nat.not_lt.mpr low, Nat.not_lt.mpr high⟩

theorem EncUnit.start_of_empty (empty : u.cmd.S = []) :
    u.start = u.raise .eEmptyInput .empty := by
  have none : u.inRead 0 = none := by rw [EncUnit.inRead, empty]; rfl
  simp only [EncUnit.start, if_neg (EncUnit.good_m low high), none]

/-- The third check names the lowest offending index. -/
theorem EncUnit.start_of_index_range {i v : Nat} (at_i : u.cmd.S[i]? = some v)
    (large : 2 ^ u.cmd.m.toNat ≤ v)
    (lowest : ∀ j w, j < i → u.cmd.S[j]? = some w → w < 2 ^ u.cmd.m.toNat) :
    u.start = u.raise .eIndexRange (.index i v) := by
  obtain ⟨inside, value⟩ := List.getElem?_eq_some_iff.mp at_i
  have first : u.inRead 0 = some u.cmd.S[0] := List.getElem?_eq_getElem (by omega)
  have found : (u.cmd.S.findIdx? fun v => decide (2 ^ u.cmd.m.toNat ≤ v)) = some i := by
    refine List.findIdx?_eq_some_iff_getElem.mpr ⟨inside, decide_eq_true (value ▸ large), fun j hj => ?_⟩
    have := lowest j _ hj (List.getElem?_eq_getElem (by omega))
    simpa using this
  have read : u.inRead i = some v := at_i
  simp only [EncUnit.start, if_neg (EncUnit.good_m low high), first, found, read, Option.getD_some]

end

theorem EncUnit.start_of_wf (legal : u.cmd.wf = true) {first : Nat} {rest : List Nat}
    (input : u.cmd.S = first :: rest) : u.start = u.startValid first := by
  rcases u.start_cases with ⟨-, -, -, -, illegal⟩ | ⟨x, xs, same, -, valid⟩
  · exact absurd (legal.symm.trans illegal) (by decide)
  · obtain ⟨rfl, -⟩ := List.cons.inj (input.symm.trans same)
    exact valid

end

/-- The clear code in 9 bits and in 12 is one number. -/
theorem clearCode_setWidth {m : Nat} (high : m ≤ 8) :
    (BitVec.ofNat 9 (2 ^ m)).setWidth 12 = BitVec.ofNat 12 (2 ^ m) := by
  have pos := Nat.two_pow_pos m
  have le : 2 ^ m ≤ 256 := Nat.pow_le_pow_right (n := 2) (by decide) high
  apply BitVec.eq_of_toNat_eq
  rw [BitVec.toNat_setWidth, BitVec.toNat_ofNat, BitVec.toNat_ofNat]
  omega

theorem exec_encStart {s : State} (run : s.enc.phase = .run) (fresh : s.enc.started = false) :
    exec .encStart s = .next { s with enc := s.enc.start } :=
  s.runEnc_selected _ (EncUnit.selects_start run fresh)

/-- Settles O6: the start step runs, and its three checks leave one outcome for each kind of record. -/
theorem encStartFollowsItsPseudocode : Obligations.EncStartFollowsItsPseudocode := by
  intro s run fresh
  refine ⟨fun bad => ?_, fun low high empty => ?_, fun low high i v at_i large lowest => ?_,
    fun low high first rest input small => ⟨_, rfl, ?_⟩⟩
  · rw [exec_encStart run fresh, EncUnit.start_of_bad_m bad]
    rfl
  · rw [exec_encStart run fresh, EncUnit.start_of_empty low high empty]
    rfl
  · rw [exec_encStart run fresh, EncUnit.start_of_index_range low high at_i large lowest]
    rfl
  · have legal := (EncodeRecord.wf_iff _).mpr ⟨low, high, input ▸ List.cons_ne_nil first rest, small⟩
    rw [exec_encStart run fresh, EncUnit.start_of_wf legal input, ← clearCode_setWidth high]
    rfl

/-! ### The steps on an index (R69 to R72) -/

section

variable {s : State} {k : Index}

theorem exec_encHit {c : Code} (at_k : s.enc.AtIndex k) (present : s.enc.regs.lookup s.enc.regs.curCode k = some c) :
    exec (.encHit k) s = .next { s with enc := EncUnit.hit k s.enc } :=
  s.runEnc_selected _ (EncUnit.selects_hit at_k present)

theorem exec_encMiss (at_k : s.enc.AtIndex k) (absent : s.enc.regs.lookup s.enc.regs.curCode k = none)
    (room : s.enc.regs.nextCode.toNat ≠ 4096) : exec (.encMiss k) s = .next { s with enc := EncUnit.miss k s.enc } :=
  s.runEnc_selected _ (EncUnit.selects_miss at_k absent room)

theorem exec_encFull (at_k : s.enc.AtIndex k) (absent : s.enc.regs.lookup s.enc.regs.curCode k = none)
    (full : s.enc.regs.nextCode.toNat = 4096) : exec (.encFull k) s = .next { s with enc := EncUnit.full k s.enc } :=
  s.runEnc_selected _ (EncUnit.selects_full at_k absent full)

end

theorem EncUnit.hit_eq {u : EncUnit} {k : Index} {c : Code} (present : u.regs.lookup u.regs.curCode k = some c) :
    EncUnit.hit k u = { u with regs := { u.regs with curCode := c, inPos := u.regs.inPos + 1 } } := by
  rw [EncUnit.hit, present]
  rfl

/-- Settles O8: a hit writes the key's code, which is the code of an entry of the table. -/
theorem encHitExtendsTheCurrentSequence : Obligations.EncHitExtendsTheCurrentSequence := by
  intro s k c at_k present
  refine ⟨?_, fun legal => legal.code_range (EncRegs.lookup_some present)⟩
  rw [exec_encHit at_k present, EncUnit.hit_eq present]

section

variable {r : EncRegs}

/-- A width that grows before the table is full is still below the largest (R115). -/
theorem EncRegs.width_le_of_grows (room : r.nextCode.toNat < 4096)
    (grows : 2 ^ r.width.toNat ≤ r.nextCode.toNat) : r.width.toNat ≤ 11 :=
  Nat.le_of_lt_succ ((Nat.pow_lt_pow_iff_right (a := 2) (by decide)).mp (Nat.lt_of_le_of_lt grows room))

/-- Past 2048 codes the width is the largest (R76). -/
theorem EncRegs.Legal.width_eq_twelve (h : r.Legal) (many : 2049 ≤ r.nextCode.toNat) : r.width.toNat = 12 := by
  have above : 2 ^ 11 < 2 ^ r.width.toNat := Nat.lt_of_lt_of_le many h.next_le
  have : 11 < r.width.toNat := (Nat.pow_lt_pow_iff_right (by decide)).mp above
  have := h.width_le
  omega

end

/-- Settles O9: a miss is `EncUnit.miss_eq`; `next_code` is never above `2^width`, so the width grows exactly there. -/
theorem encMissEmitsThenGrowsThenInserts : Obligations.EncMissEmitsThenGrowsThenInserts := by
  intro s k at_k absent room
  refine ⟨?_, fun legal => ⟨⟨legal.next_le.antisymm, Nat.le_of_eq ∘ Eq.symm⟩, EncRegs.width_le_of_grows room⟩⟩
  rw [exec_encMiss at_k absent (Nat.ne_of_lt room), EncUnit.miss_eq]

/-- Settles O10: a full step is `EncUnit.full_eq`, and at 4096 codes the width is 12. -/
theorem encFullEmitsClearAndResets : Obligations.EncFullEmitsClearAndResets := by
  intro s k at_k absent full
  refine ⟨?_, fun legal => legal.width_eq_twelve (by omega)⟩
  rw [exec_encFull at_k absent full, EncUnit.full_eq]

/-- Settles O14: every code of legal registers is below `2^width`. -/
theorem emittedCodesFitTheWidth : Obligations.EmittedCodesFitTheWidth := fun _ legal =>
  ⟨legal.cur_lt, legal.clear_lt, legal.eoi_lt, legal.width_le, legal.width_eq_twelve⟩

/-! ### The sub-blocker and the bit packer (R74, R75) -/

/-- Settles O12: below 254 bytes the sub-block stays open, and at 254 the byte closes it. -/
theorem putByteClosesFullSubBlocks : Obligations.PutByteClosesFullSubBlocks := by
  intro u b le
  rcases Nat.lt_or_eq_of_le le with lt | eq
  · have counted : (BitVec.ofNat 8 (u.regs.sbLen.toNat + 1)).toNat = u.regs.sbLen.toNat + 1 := by
      rw [BitVec.toNat_ofNat]; omega
    rw [EncUnit.putByte_open u b lt]
    exact ⟨fun _ => ⟨rfl, rfl, counted, EncUnit.sbBytes_write u.regs b le⟩, fun eq => absurd eq (Nat.ne_of_lt lt),
      rfl, rfl, rfl⟩
  · rw [EncUnit.putByte_closes u b eq]
    exact ⟨fun lt => absurd eq (Nat.ne_of_lt lt), fun _ => ⟨rfl, rfl, rfl⟩, rfl, rfl, rfl⟩

/-- Settles O13: `EncUnit.emitCode_spec` says what the packer does to the bits. -/
theorem emitCodeAppendsItsBits : Obligations.EmitCodeAppendsItsBits := by
  intro u c nbits acc width sbLen fits
  obtain ⟨⟨blocks, full, out, -, bits, notFull⟩, count, bound⟩ := EncUnit.emitCode_spec u c nbits acc width sbLen fits
  exact ⟨blocks, full, out, bits, count ▸ Nat.mod_lt _ (by decide), bound, notFull⟩

/-! ### The finish step (R56, R73) -/

/-- What R73 appends after the last byte of the code stream: the open sub-block, if it holds a byte, and the
terminator. -/
def EncRegs.tail (r : EncRegs) : List Byte := (if 0 < r.sbLen.toNat then r.sbLen :: r.sbBytes else []) ++ [0#8]

theorem EncUnit.close_append_eq (u : EncUnit) :
    (if 0 < u.regs.sbLen.toNat then u.closeSubBlock else u).append 0 =
      { u with
        out := u.out ++ u.regs.tail, outLen := u.outLen + u.regs.tail.length, regs := { u.regs with sbLen := 0 } } := by
  rw [EncRegs.tail]
  split
  · rw [closeSubBlock_eq]
    simp [EncUnit.append, Nat.add_assoc]
  · next zero =>
    have empty : u.regs.sbLen = 0 := BitVec.eq_of_toNat_eq (by simpa using zero)
    have same : ({ u.regs with sbLen := 0 } : EncRegs) = u.regs :=
      congrArg (fun len => { u.regs with sbLen := len }) empty.symm
    rw [same]
    rfl

/-- The unit before its tail is appended: both last codes emitted, then the partial byte put. -/
def EncUnit.flushed (e : EncUnit) : EncUnit :=
  if 0 < e.regs.nbits.toNat then e.putByte (e.regs.acc.setWidth 8) else e

theorem EncUnit.flushed_frame (e : EncUnit) : PackerFrame e e.flushed := by
  rw [EncUnit.flushed]
  split
  · exact putByte_frame e _
  · exact .refl e

/-- EncFinish, beside the packer's registers: the accumulator is left empty if it held only its valid bits. -/
theorem EncUnit.finish_eq (u : EncUnit) :
    let e := (u.emitCode u.regs.curCode).emitCode (u.regs.eoiCode.setWidth 12)
    let p := e.flushed
    ∃ a : BitVec 20, (e.regs.acc.toNat < 2 ^ e.regs.nbits.toNat → a = 0#20) ∧
      u.finish =
        { p with
          phase := .done, out := p.out ++ p.regs.tail, outLen := p.outLen + p.regs.tail.length
          regs := { p.regs with acc := a, nbits := 0, sbLen := 0 } } := by
  intro e p
  obtain ⟨a, padded, empty⟩ := e.padByte_eq
  refine ⟨a, empty, ?_⟩
  have finish : u.finish =
      { (if 0 < e.padByte.regs.sbLen.toNat then e.padByte.closeSubBlock else e.padByte).append 0 with
        phase := .done } := rfl
  rw [finish, EncUnit.close_append_eq, padded]
  rfl

/-- A number below `2^n` has no bit from `n` on. -/
theorem getLsbD_setWidth_of_lt {w v n j : Nat} {x : BitVec w} (lt : x.toNat < 2 ^ n) (ge : n ≤ j) :
    (x.setWidth v).getLsbD j = false := by
  have : x.getLsbD j = false := Nat.testBit_lt_two_pow (Nat.lt_of_lt_of_le lt (Nat.pow_le_pow_right (by decide) ge))
  rw [BitVec.getLsbD_setWidth, this, Bool.and_false]

theorem exec_encFinish {s : State} (run : s.enc.phase = .run) (started : s.enc.started = true)
    (atEnd : s.enc.cmd.S.length ≤ s.enc.regs.inPos) :
    exec .encFinish s = .next { s with enc := s.enc.finish } :=
  s.runEnc_selected _ (EncUnit.selects_finish run started atEnd)

/-- Settles O11: `EncUnit.finish_eq` gives the tail, and the packer's frame what stays; two codes that fit the width
leave legal registers. -/
theorem encFinishClosesTheStream : Obligations.EncFinishClosesTheStream := by
  intro s run started atEnd r e p tail
  obtain ⟨a, empty, finish⟩ := s.enc.finish_eq
  have packed : EncUnit.PackerFrame s.enc p :=
    ((EncUnit.emitCode_frame _ _).trans (EncUnit.emitCode_frame _ _)).trans e.flushed_frame
  have emittedLegal (legal : r.Legal) : e.regs.Legal :=
    (s.enc.emitCode_twice r.curCode (r.eoiCode.setWidth 12) legal legal.cur_lt (r.eoi_toNat ▸ legal.eoi_lt)).1
  refine ⟨_, exec_encFinish run started atEnd, rfl, ?_⟩
  rw [finish]
  exact ⟨rfl, rfl, rfl, rfl, rfl,
    fun legal => ⟨empty (emittedLegal legal).acc_lt, (emittedLegal legal).nbits_lt, (emittedLegal legal).acc_lt,
      fun _ => getLsbD_setWidth_of_lt (emittedLegal legal).acc_lt⟩,
    packed.cmd, packed.cause, packed.info, packed.table, packed.nextCode, packed.width, packed.curCode, packed.inPos⟩

end Sys2Proof.Machine

end

/-! ## The decoder: framing bytes, codes and the sequences they stand for, `DecStep`, and the round trip (R79 to R97) -/

section

namespace Sys2Proof.Machine

/-! ### Framing bytes (R79 to R82) -/

theorem DecUnit.start_of_legal_byte {u : DecUnit} {b : Byte} (low : 2 ≤ b.toNat) (high : b.toNat ≤ 8) :
    u.start b =
      { u with
        started := true
        regs :=
          { u.regs with
            m := BitVec.ofNat 4 b.toNat, clearCode := BitVec.ofNat 9 (2 ^ b.toNat)
            eoiCode := BitVec.ofNat 9 (2 ^ b.toNat + 1), nextCode := BitVec.ofNat 13 (2 ^ b.toNat + 2)
            width := BitVec.ofNat 4 (b.toNat + 1), prevValid := false, acc := 0, nbits := 0
            srcPos := u.cmd.p0 + 1, sbRem := 0, terminated := false, outPos := 0 } } := by
  have good : ¬ (b.toNat < Config.mcsMin ∨ Config.mcsMax < b.toNat) :=
    not_or.mpr ⟨Nat.not_lt.mpr low, Nat.not_lt.mpr high⟩
  rw [DecUnit.start, BitVec.ofNat_toNat]
  exact if_neg good

theorem exec_bMcs {s : State} {b : Byte} (run : s.dec.phase = .run) (fresh : s.dec.started = false)
    (found : s.dec.cmd.src[s.dec.cmd.p0]? = some b) : exec (.bMcs b) s = .next { s with dec := s.dec.start b } :=
  s.runDec_selected _ (DecUnit.selects_mcs run fresh found)

/-- Settles O16: the start step runs, and a byte in 2..8 passes its check. -/
theorem legalMinCodeSizeByteStartsDecoding : Obligations.LegalMinCodeSizeByteStartsDecoding := by
  intro s b run fresh found low high
  rw [exec_bMcs run fresh found, DecUnit.start_of_legal_byte low high]

/-- Settles O17: the start step runs on the byte that the table rejects, and its check faults. -/
theorem illegalMinCodeSizeByteFaults : Obligations.IllegalMinCodeSizeByteFaults := by
  intro s b run fresh found illegal
  have rejected : ¬ (Config.mcsMin ≤ b.toNat ∧ b.toNat ≤ Config.mcsMax) := fun legal =>
    illegal.elim (Nat.not_lt.mpr legal.1) (Nat.not_lt.mpr legal.2)
  exact ⟨if_neg rejected, _, exec_bMcs run fresh found, rfl, s.dec.start_faults b illegal⟩

/-- Settles O18: B-LEN is the move, and it writes `src_pos` and `sb_rem`. -/
theorem lengthByteOpensASubBlock : Obligations.LengthByteOpensASubBlock := fun s _ needs blockEnd go found nonzero =>
  s.runDec_selected _ (DecUnit.selects_len needs blockEnd go found nonzero)

/-- Settles O19: B-TERM is the move, and it ends in `DecFinish`. -/
theorem terminatorEndsByExhaustion : Obligations.TerminatorEndsByExhaustion := fun s needs blockEnd go found =>
  s.runDec_selected _ (DecUnit.selects_term needs blockEnd go found)

/-! ### The bit accumulator (R37, R53, R81) -/

/-- A byte put above at most 12 valid bits loses none of its own. -/
theorem DecUnit.pushByte_acc_toNat {u : DecUnit} (b : Byte) (few : u.regs.nbits.toNat ≤ 12)
    (valid : u.regs.acc.toNat < 2 ^ u.regs.nbits.toNat) :
    (u.pushByte b).regs.acc.toNat = u.regs.acc.toNat + 2 ^ u.regs.nbits.toNat * b.toNat := by
  have inAcc : b.toNat <<< u.regs.nbits.toNat < 2 ^ 20 := by
    calc b.toNat <<< u.regs.nbits.toNat = b.toNat * 2 ^ u.regs.nbits.toNat := Nat.shiftLeft_eq _ _
      _ < 2 ^ 8 * 2 ^ u.regs.nbits.toNat := Nat.mul_lt_mul_of_pos_right b.isLt (Nat.two_pow_pos _)
      _ ≤ 2 ^ 8 * 2 ^ 12 := Nat.mul_le_mul_left _ (Nat.pow_le_pow_right (by decide) few)
  rw [DecUnit.pushByte_acc, BitVec.toNat_or, BitVec.toNat_shiftLeft,
    BitVec.toNat_setWidth_of_le (by decide), Nat.mod_eq_of_lt inAcc, or_shift_eq_add _ _ _ valid]

theorem DecUnit.pushByte_nbits_toNat {u : DecUnit} (b : Byte) (few : u.regs.nbits.toNat < 24) :
    (u.pushByte b).regs.nbits.toNat = u.regs.nbits.toNat + 8 := by
  rw [DecUnit.pushByte_nbits, BitVec.toNat_ofNat]
  omega

/-- Settles O20: in the accumulator the byte's bits follow those held, by `bitsOfNat_add`. -/
theorem dataByteFillsTheAccumulator : Obligations.DataByteFillsTheAccumulator := by
  intro s b needs inBlock found
  have short := needs.2.2
  have width := s.dec.regs.width.isLt
  have held := DecUnit.pushByte_nbits_toNat (u := s.dec.advance) b (by rw [DecUnit.advance_nbits]; omega)
  refine ⟨_, s.runDec_selected _ (DecUnit.selects_data needs inBlock found), rfl, ?_, held, fun narrow valid => ?_⟩
  · show (BitVec.ofNat 8 (s.dec.regs.sbRem.toNat - 1)).toNat = _
    have := s.dec.regs.sbRem.isLt
    rw [BitVec.toNat_ofNat]
    omega
  · have sum := DecUnit.pushByte_acc_toNat (u := s.dec.advance) b (by rw [DecUnit.advance_nbits]; omega) valid
    refine ⟨sum, ?_⟩
    show bitsOfNat (s.dec.advance.pushByte b).regs.nbits.toNat (s.dec.advance.pushByte b).regs.acc.toNat = _
    rw [held, sum]
    exact bitsOfNat_add _ _ _ _ valid

theorem DecUnit.consumeCode_nbits_toNat (u : DecUnit) :
    u.consumeCode.regs.nbits.toNat = u.regs.nbits.toNat - u.regs.width.toNat := by
  have := u.regs.nbits.isLt
  rw [DecUnit.consumeCode_nbits, BitVec.toNat_ofNat]
  omega

theorem DecUnit.consumeCode_acc_toNat (u : DecUnit) :
    u.consumeCode.regs.acc.toNat = u.regs.acc.toNat / 2 ^ u.regs.width.toNat := by
  rw [DecUnit.consumeCode_acc, BitVec.toNat_ushiftRight, Nat.shiftRight_eq_div_pow]

/-- Settles O32: the bits held split at the width. -/
theorem consumedCodeIsTheNextBits : Obligations.ConsumedCodeIsTheNextBits := by
  intro u enough
  have split := bitsOfNat_split u.regs.width.toNat (u.regs.nbits.toNat - u.regs.width.toNat) u.regs.acc.toNat
  rw [Nat.add_sub_cancel' enough] at split
  refine ⟨?_, u.consumeCode_nbits_toNat, rfl⟩
  rw [u.consumeCode_nbits_toNat, u.consumeCode_acc_toNat]
  exact split

/-! ### Insertion, output and the end of the command (R36, R92, R93, R95) -/

/-- Settles O33: an insertion that takes place writes one cell of each store; the other two cases write nothing. -/
theorem insertAddsOneEntry : Obligations.InsertAddsOneEntry := by
  refine fun u f => ⟨fun valid room => ?_, fun stays => ?_⟩
  · rw [u.insert_stores f valid room]
    refine ⟨fun c => Store.read_write _ _ c _, fun c => Store.read_write _ _ c _, toNat_ofNat_of_lt (by omega), ?_, rfl⟩
    split
    · exact toNat_ofNat_of_lt (by omega)
    · rfl
  · exact stays.elim (u.insert_no_prev f) (u.insert_full f)

/-- Settles O34: `Memory.read_writeRun`, inside the run and outside it. -/
theorem writeRunWritesItsCells : Obligations.WriteRunWritesItsCells := by
  refine fun u run => ⟨fun j hj => ?_, fun a ha => ?_, rfl⟩
  · rw [DecUnit.writeRun_idx, Memory.read_writeRun, if_pos (by omega), Nat.add_sub_cancel_left]
  · rw [DecUnit.writeRun_idx, Memory.read_writeRun, if_neg (by omega)]

/-- Settles O35: the three ends of `DecFinish`. -/
theorem finishChecksTheLength : Obligations.FinishChecksTheLength := fun _ =>
  ⟨DecUnit.finish_full, DecUnit.finish_strict, fun short tolerant => DecUnit.finish_tolerant short (by simp [tolerant])⟩

/-! ### Clear, end of information and the illegal classes (R84, R85, R89, R90) -/

/-- A unit that holds a code below 4096 selects its class. -/
theorem DecUnit.HoldsCode.selects {u : DecUnit} {c : Nat} {i : Instr} (holds : u.HoldsCode c) (small : c < 4096)
    (cls : classify u.regs.codeCtx c = i) : u.selects i = true := cls ▸ DecUnit.selects_code holds small

/-- Settles O24: the code is the clear code, whose action is the reset. -/
theorem clearResetsTheDecoder : Obligations.ClearResetsTheDecoder := by
  intro s c holds is
  have := s.dec.regs.clearCode.isLt
  exact s.runDec_selected DecUnit.clearCode (holds.selects (by omega) (classify_clr is))

/-- Settles O25: the code is the EOI code, whose action ends in `DecFinish`. -/
theorem eoiEndsDecoding : Obligations.EoiEndsDecoding := by
  intro s c holds notClear is
  have := s.dec.regs.eoiCode.isLt
  exact s.runDec_selected DecUnit.endOfInformation (holds.selects (by omega) (classify_eoi notClear is))

/-- Settles O31: above `clear_code` the class is decided by `next_code` and `prev_valid`, and both faults are the same
operation. -/
theorem illegalCodesFault : Obligations.IllegalCodesFault := by
  intro s c holds notClear notEoi notLit fault
  have above : s.dec.regs.clearCode.toNat < c.toNat := Nat.lt_of_le_of_ne notLit notClear.symm
  exact ⟨fun is invalid => s.runDec_selected _ (holds.selects c.isLt (classify_illNoPrev notEoi above is invalid)),
    fun beyond => s.runDec_selected _ (holds.selects c.isLt (classify_illRange notEoi above beyond))⟩

/-! ### Data codes (R86 to R88, R91, R92) -/

/-- A data code's action is `DataCode` with its run. -/
theorem DecUnit.act_of_runOf {u : DecUnit} {i : Instr} {c : Code} {f : Index} {rest : List Index}
    (run : u.regs.runOf i = some (c, f :: rest)) :
    i.isCode = true ∧ u.consumeCode.act i = some (u.consumeCode.dataCode c f rest) := by
  cases i with
  | lit k => cases run; exact ⟨rfl, rfl⟩
  | tab d =>
    obtain ⟨_, seq, same⟩ := Option.map_eq_some_iff.mp run
    cases same
    exact ⟨rfl, by simp only [DecUnit.act, DecUnit.consumeCode_seq, seq]⟩
  | kwk d =>
    obtain ⟨_, kwk, same⟩ := Option.map_eq_some_iff.mp run
    cases same
    exact ⟨rfl, by simp only [DecUnit.act, DecUnit.consumeCode_kwkRun, kwk]⟩
  | encode | decode | encStart | encHit | encMiss | encFull | encFinish | bMcs | bLen | bTerm | bData | clr | eoi
  | illNoPrev | illRange => cases run

section

variable {s : State} {i : Instr} {c : Code} {f : Index} {rest : List Index} (selected : s.dec.selects i = true)
  (run : s.dec.regs.runOf i = some (c, f :: rest))
include selected run

theorem exec_dataCode : exec i s = .next { s with dec := s.dec.consumeCode.dataCode c f rest } := by
  obtain ⟨code, acted⟩ := DecUnit.act_of_runOf run
  rw [exec_code s i code selected, acted]

theorem exec_dataCode_fits (fits : s.dec.regs.outPos + (f :: rest).length ≤ s.dec.cmd.outputLength) :
    exec i s =
      .next { s with dec := ((s.dec.consumeCode.writeRun (f :: rest)).insert f).setPrev c } := by
  rw [exec_dataCode selected run, DecUnit.dataCode_fits s.dec.consumeCode c f rest fits]

end

/-- Settles O26: a literal is a data code with a run of one index. -/
theorem literalWritesItsIndex : Obligations.LiteralWritesItsIndex := by
  rintro s c k holds - notEoi below rfl fits
  have := s.dec.regs.clearCode.isLt
  exact exec_dataCode_fits (holds.selects (by omega) (classify_lit notEoi below)) rfl fits

/-- Settles O27: a table code is a data code with the run of R94. -/
theorem tableCodeWritesItsRun : Obligations.TableCodeWritesItsRun := by
  intro s c f rest holds notClear notEoi notLit below seq fits
  have above : s.dec.regs.clearCode.toNat < c.toNat := Nat.lt_of_le_of_ne notLit notClear.symm
  exact exec_dataCode_fits (holds.selects c.isLt (classify_tab notEoi above below))
    (by simp only [DecRegs.runOf, seq, Option.map_some]) fits

/-- Settles O28: a KwKwK code is a data code with the run of the previous code and its first index. -/
theorem kwkwkCodeWritesItsRun : Obligations.KwkwkCodeWritesItsRun := by
  intro s c f rest holds notClear notEoi notLit is valid seq fits
  have above : s.dec.regs.clearCode.toNat < c.toNat := Nat.lt_of_le_of_ne notLit notClear.symm
  exact exec_dataCode_fits (rest := rest ++ [f]) (holds.selects c.isLt (classify_kwk notEoi above is valid))
    (by simp only [DecRegs.runOf, DecRegs.kwkRun, seq]; rfl)
    (by rw [List.length_cons, List.length_append, List.length_singleton]; exact fits)

/-- Settles O30: an overflowing data code is `DecUnit.overflow`, in each mode. -/
theorem overflowingRunIsDroppedWhole : Obligations.OverflowingRunIsDroppedWhole := by
  intro s i c f rest selected run long
  rw [exec_dataCode selected run, DecUnit.dataCode_overflows s.dec.consumeCode c f rest long]
  refine ⟨fun strict => ?_, fun tolerant => ?_⟩
  · rw [DecUnit.overflow_strict s.dec.consumeCode strict]
    rfl
  · rw [DecUnit.overflow_tolerant s.dec.consumeCode tolerant]
    rfl

/-! ### The sequence of a code (R28, R87, R88, R94) -/

/-- Settles O36: the two equations of R94; the link of an entry leads to an older code, so its sequence is shorter. -/
theorem everyDataCodeHasItsSequence : Obligations.EveryDataCodeHasItsSequence := by
  refine fun r c legal => ⟨DecRegs.Legal.seq_literal r c, fun above below => ?_⟩
  have clear := legal.clear_eq
  have eoi := legal.eoi_eq
  have link := legal.links c.toNat above below
  have older : DataCodeBelow r.clearCode.toNat r.eoiCode.toNat r.nextCode.toNat (r.prefixes.read c.toNat).toNat :=
    link.imp_right fun ⟨isEntry, older⟩ => ⟨isEntry, older.trans below⟩
  obtain ⟨f, rest, seq, -, short⟩ := legal.seq_spec _ older
  refine ⟨f :: rest, seq, List.cons_ne_nil f rest, by rw [legal.seq_table c above below, seq, Option.map_some], ?_⟩
  rcases link with literal | ⟨isEntry, older⟩ <;> omega

/-- A run written in two parts. -/
theorem Memory.writeRun_append {w : Nat} (mem : Memory w) (a : Nat) (vs ws : List (BitVec w)) :
    Memory.writeRun mem a (vs ++ ws) = Memory.writeRun (Memory.writeRun mem a vs) (a + vs.length) ws := by
  induction vs generalizing mem a with
  | nil => rfl
  | cons v vs ih =>
    rw [List.cons_append, Memory.writeRun, ih, List.length_cons, Nat.add_comm vs.length, ← Nat.add_assoc]
    rfl

/-- Settles O37: both walks write the run (`chase_writes`), and for a KwKwK code one more cell after it. -/
theorem twoPhaseChaseWritesTheSequence : Obligations.TwoPhaseChaseWritesTheSequence := by
  refine fun r mem at0 legal => ⟨fun c data => ?_, fun valid => ?_⟩
  · obtain ⟨f, rest, seq, -⟩ := legal.seq_spec c data
    obtain ⟨p, count, -, -, writes⟩ := r.chase_writes c _ seq
    exact ⟨f :: rest, _, seq, by rw [DecRegs.chase, count, Option.map_some], writes mem at0⟩
  · obtain ⟨f, rest, seq, kwk, -⟩ := legal.kwkRun_spec valid
    obtain ⟨p, count, length, first, writes⟩ := r.chase_writes r.prevCode _ seq
    have first : p.1 = f := (Option.some.inj first).symm
    refine ⟨f, rest, _, seq, kwk, by rw [DecRegs.chaseKwk, count, Option.map_some], fun a => ?_⟩
    have longer : Memory.writeRun mem at0 (f :: rest ++ [f]) =
        Memory.write (Memory.writeRun mem at0 (f :: rest)) (at0 + p.2 + 1) p.1 := by
      rw [Memory.writeRun_append, length, first]
      rfl
    rw [longer, Memory.read_write, Memory.read_write, writes]

/-- `q` has the code constants of `r`, and every entry of its table. -/
structure DecRegs.Extends (r q : DecRegs) : Prop where
  clearCode : q.clearCode = r.clearCode
  eoiCode : q.eoiCode = r.eoiCode
  nextCode : r.nextCode.toNat ≤ q.nextCode.toNat
  prefixes : ∀ c, c < r.nextCode.toNat → q.prefixes.read c = r.prefixes.read c
  suffixes : ∀ c, c < r.nextCode.toNat → q.suffixes.read c = r.suffixes.read c

/-- A sequence that exists stays the same while entries are added (R28). -/
theorem DecRegs.Extends.seqRev_eq {r q : DecRegs} (h : r.Extends q) (fuel : Nat) (c : Code) (l : List Index)
    (known : r.seqRev fuel c = some l) : q.seqRev fuel c = some l := by
  induction fuel generalizing c l with
  | zero => cases known
  | succ fuel ih =>
    simp only [DecRegs.seqRev, h.clearCode, h.eoiCode] at known ⊢
    split at known
    · next literal => rw [if_pos literal, known]
    · next notLiteral =>
      split at known
      · next entry =>
        obtain ⟨l', rest, rfl⟩ := Option.map_eq_some_iff.mp known
        rw [if_neg notLiteral, if_pos ⟨entry.1, entry.2.trans_le h.nextCode⟩, h.prefixes _ entry.2,
          h.suffixes _ entry.2, ih _ _ rest, Option.map_some]
      · cases known

theorem DecRegs.Extends.seq_eq {r q : DecRegs} (h : r.Extends q) {c : Code} {run : List Index}
    (known : r.seq c = some run) : q.seq c = some run := by
  obtain ⟨l, rev, rfl⟩ := Option.map_eq_some_iff.mp known
  rw [DecRegs.seq, h.seqRev_eq _ c l rev, Option.map_some]

/-- A data code adds to the table and takes nothing from it (R91, R93). -/
theorem DecUnit.insert_setPrev_extends (u : DecUnit) (f : Index) (p : Code) :
    u.regs.Extends ((u.insert f).setPrev p).regs := by
  have frame := u.insert_regs_only f
  refine ⟨by rw [frame]; rfl, by rw [frame]; rfl, ?_, fun c hc => (u.insert_tables f c (Nat.ne_of_lt hc)).1,
    fun c hc => (u.insert_tables f c (Nat.ne_of_lt hc)).2⟩
  simp only [DecUnit.setPrev_nextCode, DecUnit.insert]
  split
  · next inserts =>
    have room : u.regs.nextCode.toNat < 4096 := inserts.2
    show _ ≤ (BitVec.ofNat 13 (u.regs.nextCode.toNat + 1)).toNat
    rw [toNat_ofNat_of_lt (by omega)]
    exact Nat.le_succ _
  · exact Nat.le_refl _

/-- The entry that a data code inserts stands for the previous code's sequence and the new last byte (R93, R94). -/
theorem DecUnit.insert_setPrev_seq {u : DecUnit} {f : Index} {c p : Code} {run : List Index}
    (legal : ((u.insert f).setPrev p).regs.Legal) (valid : u.regs.prevValid = true)
    (is : c.toNat = u.regs.nextCode.toNat) (above : u.regs.eoiCode.toNat < c.toNat)
    (prev : u.regs.seq u.regs.prevCode = some run) :
    ((u.insert f).setPrev p).regs.seq c = some (run ++ [f]) := by
  have room : u.regs.nextCode.toNat < 4096 := is ▸ c.isLt
  have kept := u.insert_setPrev_extends f p
  have stores := u.insert_stores f valid room
  have next : (u.insert f).regs.nextCode.toNat = u.regs.nextCode.toNat + 1 := by
    rw [stores]
    exact toNat_ofNat_of_lt (by omega)
  have pre : (u.insert f).regs.prefixes.read c.toNat = u.regs.prevCode := by
    rw [stores, is]
    exact (Store.read_write _ _ _ _).trans (if_pos rfl)
  have last : (u.insert f).regs.suffixes.read c.toNat = f := by
    rw [stores, is]
    exact (Store.read_write _ _ _ _).trans (if_pos rfl)
  rw [legal.seq_table c (by rwa [kept.eoiCode]) (by rw [DecUnit.setPrev_nextCode]; omega), DecUnit.setPrev_prefixes,
    DecUnit.setPrev_suffixes, pre, last, kept.seq_eq prev, Option.map_some]

/-- What `WriteRun` writes is no part of the table. -/
theorem DecUnit.writeRun_seq (u : DecUnit) (run : List Index) (c : Code) :
    (u.writeRun run).regs.seq c = u.regs.seq c := by
  rw [DecRegs.seq, DecRegs.seqRev_congr u.regs (u.writeRun run).regs rfl rfl rfl rfl rfl, DecRegs.seq]

/-- Only a code of the stream is decoded as a code. -/
theorem decode_eq_code {r : Raw} {i : Instr} (decoded : decode r = .instr i) (code : i.isCode = true) :
    ∃ cc c, r = .code cc c ∧ c < 2 ^ cc.width ∧ classify cc c = i := by
  cases r with
  | encodeCommand | decodeCommand => cases decoded; cases code
  | encState v =>
    cases decoded
    simp only [selectEnc] at code
    split_ifs at code <;> cases code
  | byte pos b =>
    cases pos <;> simp only [decode, decodeByte] at decoded
    case mcs | length => split at decoded <;> cases decoded <;> cases code
    case data => cases decoded; cases code
  | code cc c =>
    simp only [decode] at decoded
    split at decoded
    · next fits => cases decoded; exact ⟨cc, c, rfl, fits.1, rfl⟩
    · cases decoded

/-- A code is found only while the accumulator holds one (R81). -/
theorem DecUnit.enough_of_fetch_code {u : DecUnit} {cc : CodeCtx} {c : Nat} (h : u.fetch = .raw (.code cc c)) :
    u.regs.width.toNat ≤ u.regs.nbits.toNat := by
  by_contra short
  simp only [DecUnit.fetch, if_pos (Nat.lt_of_not_le short), DecUnit.fetchByteAt] at h
  split_ifs at h <;> split at h <;> cases h

/-- A code that a unit with legal registers selects is held in the accumulator, and its row admits it (R52, R81). -/
theorem DecUnit.held_of_selects {u : DecUnit} {i : Instr} (legal : u.regs.Legal) (selected : u.selects i = true)
    (code : i.isCode = true) : u.regs.width.toNat ≤ u.regs.nbits.toNat ∧ i.wfIn u.regs.codeCtx = true := by
  simp only [DecUnit.selects, Bool.and_eq_true] at selected
  obtain ⟨-, found⟩ := selected
  split at found
  · next r fetched =>
    split at found
    · next j decoded =>
      cases of_decide_eq_true found
      obtain ⟨cc, c, rfl, fits, cls⟩ := decode_eq_code decoded code
      cases DecUnit.fetch_code fetched
      exact ⟨DecUnit.enough_of_fetch_code fetched, wfIn_of_classify legal.codeCtx_ok fits cls⟩
    · next b _ => cases of_decide_eq_true found; cases code
    · cases found
  · cases found
  · cases found

/-- A data code that leaves the command in RUN had room for its run (R92). -/
theorem DecUnit.fits_of_dataCode_run {u : DecUnit} {c : Code} {f : Index} {rest : List Index}
    (run : (u.dataCode c f rest).phase = .run) : u.regs.outPos + (f :: rest).length ≤ u.cmd.outputLength := by
  by_contra long
  rw [u.dataCode_overflows c f rest (Nat.lt_of_not_le long)] at run
  rcases u.overflow_ends with ended | ended <;> cases ended.symm.trans run

/-- Settles O29: the run of a KwKwK code is the sequence of the previous code and its first index, which is what the
entry inserted stands for. -/
theorem kwkwkEntryStandsForItsRun : Obligations.KwkwkEntryStandsForItsRun := by
  intro s t c run inv started kwk executed goes
  have selected := State.runDataCode_selected (c := c) (run := s.dec.regs.kwkRun) executed
  obtain ⟨phase, -⟩ := Bool.and_eq_true_iff.mp selected
  have running : s.dec.Running := by simpa only [started, if_true] using inv.2.1 (of_decide_eq_true phase)
  obtain ⟨enough, admitted⟩ := DecUnit.held_of_selects running.regs selected rfl
  obtain ⟨is, valid, -⟩ := (wfIn_kwk running.regs.codeCtx_ok c).mp admitted
  obtain ⟨f, rest, prev, kwk', small⟩ := running.regs.kwkRun_spec valid
  cases kwk.symm.trans kwk'
  have isRun : s.dec.regs.runOf (.kwk c) = some (c, f :: (rest ++ [f])) := by
    simp only [DecRegs.runOf, kwk, Option.map_some, List.cons_append]
  cases executed.symm.trans (exec_dataCode selected isRun)
  have fits := DecUnit.fits_of_dataCode_run goes
  have written := s.dec.consumeCode.data_running c f (rest ++ [f]) (s.dec.consumeCode_running running enough) small
    (.inr ⟨is, valid⟩) fits
  have above : s.dec.regs.eoiCode.toNat < c.toNat := by
    have is : c.toNat = s.dec.regs.nextCode.toNat := is
    have := running.regs.next_range
    omega
  have prev' : (s.dec.consumeCode.writeRun (f :: (rest ++ [f]))).regs.seq s.dec.regs.prevCode = some (f :: rest) := by
    rw [DecUnit.writeRun_seq, DecUnit.consumeCode_seq, prev]
  rw [DecUnit.dataCode_fits s.dec.consumeCode c f (rest ++ [f]) fits]
  exact DecUnit.insert_setPrev_seq written.regs valid is above prev'

/-! ### The steps of the machine add up to `DecStep` (R80, R81, R83) -/

/-- What the rest of `DecStep` makes of a code read, of `NONE` or of a fault (R82, R83, R101). -/
def Got.decStep : Got Nat → Option DecUnit
  | .value c v => if Config.tableSize ≤ c then none else v.act (classify v.regs.codeCtx c)
  | .noMore v => some v.exhaust
  | .raised v => some v

/-- `DecStep` reads a code, then acts on it. -/
theorem DecUnit.decStep_eq (u : DecUnit) : u.decStep = (u.readCode 3).decStep := by
  cases read : u.readCode 3 with
  | value c v =>
    by_cases large : Config.tableSize ≤ c
    · simp only [DecUnit.decStep, read, Got.decStep, if_pos large]
    · rw [DecUnit.decStep_value read (Nat.lt_of_not_le large), Got.decStep, if_neg large]
  | noMore v => simp only [DecUnit.decStep, read]; rfl
  | raised v => simp only [DecUnit.decStep, read]; rfl

/-- What `ReadCode` does with the answer of `FetchByte` (R81). -/
def Got.fill (fuel : Nat) : Got Byte → Got Nat
  | .value b v =>
    DecUnit.readCode fuel
      { v with
        regs :=
          { v.regs with
            acc := v.regs.acc ||| (b.setWidth 20 <<< v.regs.nbits.toNat)
            nbits := BitVec.ofNat 5 (v.regs.nbits.toNat + 8) } }
  | .noMore v => .noMore v
  | .raised v => .raised v

theorem DecUnit.readCode_succ {u : DecUnit} (fuel : Nat) (needs : u.regs.nbits.toNat < u.regs.width.toNat) :
    u.readCode (fuel + 1) = u.fetchByte.fill fuel := by
  rw [DecUnit.readCode, if_pos needs]
  cases u.fetchByte <;> rfl

/-- A data byte fetched and put into the accumulator is B-DATA. -/
theorem Got.fill_dataByteRead (fuel : Nat) (u : DecUnit) (b : Byte) :
    (Got.value b u.dataByteRead).fill fuel = (u.dataByte b).readCode fuel := rfl

/-- After at most `n` moves the unit is still in RUN, and its next move makes `result`. -/
def DecUnit.ComesTo (n : Nat) (u : DecUnit) (result : Option DecUnit) : Prop :=
  ∃ k v, k ≤ n ∧ DecUnit.Steps k u v ∧ v.phase = .run ∧ v.next? = result

theorem DecUnit.ComesTo.here {u : DecUnit} {result : Option DecUnit} (n : Nat) (run : u.phase = .run)
    (next : u.next? = result) : u.ComesTo n result := ⟨0, u, Nat.zero_le n, .zero u, run, next⟩

theorem DecUnit.ComesTo.step {n : Nat} {u v : DecUnit} {result : Option DecUnit} (run : u.phase = .run)
    (next : u.next? = some v) (h : v.ComesTo n result) : u.ComesTo (n + 1) result := by
  obtain ⟨k, w, hk, steps, run', next'⟩ := h
  exact ⟨k + 1, w, Nat.succ_le_succ hk, .succ run next steps, run', next'⟩

/-- The move of a unit that holds enough bits is the action on its code. -/
theorem DecUnit.next?_code {u : DecUnit} (started : u.started = true)
    (enough : ¬ u.regs.nbits.toNat < u.regs.width.toNat) :
    u.next? = (Got.value u.regs.codeHeld u.consumeCode).decStep := by
  have found : u.fetch = .raw (.code u.regs.codeCtx u.regs.codeHeld) := by
    rw [DecUnit.fetch, if_neg (by simp [started]), if_neg enough]
  have inWidth : u.regs.codeHeld < 2 ^ u.regs.codeCtx.width := Nat.mod_lt _ (Nat.two_pow_pos _)
  simp only [DecUnit.next?, found, inWidth, true_and, Got.decStep, ← Nat.not_lt, ite_not]
  rfl

section

variable {u : DecUnit} (needs : u.NeedsByte)
include needs

theorem DecUnit.NeedsByte.fetch_length (blockEnd : u.regs.sbRem = 0#8) (go : u.regs.terminated = false) :
    u.fetch = u.fetchByteAt .length u.regs.srcPos := by
  obtain ⟨-, started, short⟩ := needs
  rw [DecUnit.fetch, if_neg (by simp [started]), if_pos short, if_pos blockEnd, if_neg (by simp [go])]

theorem DecUnit.NeedsByte.fetch_data (inBlock : u.regs.sbRem ≠ 0#8) :
    u.fetch = u.fetchByteAt .data u.regs.srcPos := by
  obtain ⟨-, started, short⟩ := needs
  rw [DecUnit.fetch, if_neg (by simp [started]), if_pos short, if_neg inBlock]

/-- The data byte of `FetchByte` is one move, B-DATA or the read past `SRC` (R80). -/
theorem DecUnit.NeedsByte.readDataByte_comesTo {n fuel : Nat} (inBlock : u.regs.sbRem ≠ 0#8)
    (go : ∀ b, (u.dataByte b).ComesTo n ((u.dataByte b).readCode fuel).decStep) :
    u.ComesTo (n + 1) (u.readDataByte.fill fuel).decStep := by
  have found := needs.fetch_data inBlock
  cases hb : u.cmd.src[u.regs.srcPos]? with
  | none =>
    refine .here _ needs.1 ?_
    simp only [DecUnit.readDataByte, DecUnit.next?, found, DecUnit.fetchByteAt, DecUnit.memRead, hb]
    rfl
  | some b =>
    have read : u.readDataByte = .value b u.dataByteRead := by
      simp only [DecUnit.readDataByte, DecUnit.memRead, hb]
      rfl
    rw [read, Got.fill_dataByteRead]
    exact .step needs.1 (by simp only [DecUnit.next?, found, DecUnit.fetchByteAt_some .data hb]) (go b)

/-- `FetchByte` is at most two moves: the length byte of a sub-block, and a data byte (R80). -/
theorem DecUnit.NeedsByte.fetchByte_comesTo {n fuel : Nat}
    (go : ∀ (v : DecUnit) (b : Byte), v.NeedsByte → v.regs.width = u.regs.width → v.regs.nbits = u.regs.nbits →
      (v.dataByte b).ComesTo n ((v.dataByte b).readCode fuel).decStep) :
    u.ComesTo (n + 2) (u.fetchByte.fill fuel).decStep := by
  by_cases blockEnd : u.regs.sbRem = 0#8
  · cases terminated : u.regs.terminated with
    | true =>
      refine .here _ needs.1 ?_
      simp only [DecUnit.next?, DecUnit.fetch_exhausted needs blockEnd terminated, DecUnit.fetchByte, if_pos blockEnd,
        terminated, if_true]
      rfl
    | false =>
      have found := needs.fetch_length blockEnd terminated
      have notTerminated : ¬ u.regs.terminated = true := by simp [terminated]
      simp only [DecUnit.fetchByte, if_pos blockEnd, if_neg notTerminated, DecUnit.memRead]
      cases hb : u.cmd.src[u.regs.srcPos]? with
      | none =>
        refine .here _ needs.1 ?_
        simp only [DecUnit.next?, found, DecUnit.fetchByteAt, DecUnit.memRead, hb]
        rfl
      | some len =>
        have next : u.next? = if len = 0#8 then some u.terminator else some (u.lenByte len) := by
          simp only [DecUnit.next?, found, DecUnit.fetchByteAt_some .length hb]
        by_cases last : len = 0#8
        · rw [if_pos last] at next
          simp only [if_pos last]
          exact .here _ needs.1 next
        · rw [if_neg last] at next
          simp only [if_neg last]
          exact .step needs.1 next
            (DecUnit.NeedsByte.readDataByte_comesTo (u := u.lenByte len) needs last fun b => go _ b needs rfl rfl)
  · have read : u.fetchByte = u.readDataByte := by rw [DecUnit.fetchByte, if_neg blockEnd]
    obtain ⟨k, v, hk, rest⟩ := needs.readDataByte_comesTo blockEnd fun b => go u b needs rfl rfl
    rw [read]
    exact ⟨k, v, by omega, rest⟩

end

/-- A unit that lacks at most `8 * fuel` bits for its code comes in at most two moves for each byte to the move that is
its `DecStep`. -/
theorem DecUnit.readCode_comesTo (fuel : Nat) {u : DecUnit} (run : u.phase = .run) (started : u.started = true)
    (lacks : u.regs.width.toNat ≤ u.regs.nbits.toNat + 8 * fuel) :
    u.ComesTo (2 * fuel) (u.readCode (fuel + 1)).decStep := by
  induction fuel generalizing u with
  | zero =>
    have enough : ¬ u.regs.nbits.toNat < u.regs.width.toNat := by omega
    refine .here _ run ((DecUnit.next?_code started enough).trans ?_)
    rw [DecUnit.readCode, if_neg enough]
  | succ fuel ih =>
    by_cases short : u.regs.nbits.toNat < u.regs.width.toNat
    · have needs : u.NeedsByte := ⟨run, started, short⟩
      rw [DecUnit.readCode_succ _ short]
      refine needs.fetchByte_comesTo fun v b needs' width nbits => ih needs'.1 needs'.2.1 ?_
      have filled : (v.dataByte b).regs.nbits.toNat = u.regs.nbits.toNat + 8 := by
        have := u.regs.width.isLt
        show (BitVec.ofNat 5 (v.regs.nbits.toNat + 8)).toNat = _
        rw [nbits, BitVec.toNat_ofNat]
        omega
      rw [filled]
      show v.regs.width.toNat ≤ _
      rw [width]
      omega
    · refine .here _ run ((DecUnit.next?_code started short).trans ?_)
      rw [DecUnit.readCode, if_neg short]

/-- Settles O48: a width below 16 needs at most two more bytes, so at most four moves read them, and the next move is
`DecStep`. -/
theorem stepsRefineDecStep : Obligations.StepsRefineDecStep := by
  intro s run started
  have lacks : s.dec.regs.width.toNat ≤ s.dec.regs.nbits.toNat + 8 * 2 := by
    have := s.dec.regs.width.isLt
    omega
  obtain ⟨k, v, hk, steps, run', next⟩ := DecUnit.readCode_comesTo 2 run started lacks
  rw [← DecUnit.decStep_eq] at next
  constructor
  · intro u made
    exact ⟨k + 1, Nat.succ_pos k, Nat.succ_le_succ hk,
      run_onlyFor_dec (k + 1) s u (steps.trans (.succ run' (next.trans made) (.zero u)))⟩
  · intro stuck
    exact ⟨k + 1, Nat.succ_pos k, Nat.succ_le_succ hk,
      run_scheduled_dec_stops k (s.onlyFor .dec (k + 1)) v steps run' (next.trans stuck) rfl⟩

/-! ### DECODE gives back what ENCODE was given (R97) -/

/-- The encoder after the start step of a legal record (R68): the clear code is emitted, and the current code is the
first index. -/
structure EncUnit.OpensStream (r : EncodeRecord) (a : EncUnit) : Prop where
  inRun : a.InRunAt r 1
  emitted : a.Emitted (bitsOfNat (r.m.toNat + 1) (2 ^ r.m.toNat))
  first : r.S.take 1 = [(a.regs.curCode.setWidth 8).toNat]
  small : a.regs.curCode.toNat < a.regs.clearCode.toNat
  table : a.regs.table = []

theorem EncUnit.begin_opensStream {r : EncodeRecord} (legal : r.wf = true) (gen : Nat) :
    (EncUnit.begin r gen).next.OpensStream r := by
  have inRun := EncUnit.begin_inRunAt legal gen
  have next_eq : (EncUnit.begin r gen).next = (EncUnit.begin r gen).start := rfl
  rw [next_eq] at inRun ⊢
  rcases (EncUnit.begin r gen).start_cases with ⟨-, -, -, -, bad⟩ | ⟨first, rest, input, -, valid⟩
  · cases legal.symm.trans bad
  · have input : r.S = first :: rest := input
    obtain ⟨regs, emitted, -, -, -, -, -, -, cur, m, table, -⟩ :=
      (EncUnit.begin r gen).startValid_running first rest legal input rfl rfl
    obtain ⟨-, high, -, small⟩ := (EncodeRecord.wf_iff r).mp legal
    have small : first < 2 ^ r.m.toNat := small first (by rw [input]; exact List.mem_cons_self)
    have literal : first < 2 ^ 8 := small.trans_le (Nat.pow_le_pow_right (by decide) high)
    rw [valid] at inRun ⊢
    refine ⟨inRun, emitted, ?_, ?_, table⟩
    · rw [input, BitVec.toNat_setWidth, cur, Nat.mod_eq_of_lt literal]
      rfl
    · rw [cur, regs.clear_eq, m]
      exact small

/-- What ENCODE makes of a legal record: the framing of the clear code, what its further steps emit, and pad bits (R55,
R56). -/
theorem EncUnit.begin_encodes {r : EncodeRecord} (legal : r.wf = true) (gen : Nat) :
    ∃ f data pad, EncUnit.Steps (r.S.length + 1) (EncUnit.begin r gen) f ∧ f.out = frame r.m data ∧
      dataBits data = bitsOfNat (r.m.toNat + 1) (2 ^ r.m.toNat) ++
        (EncUnit.future (r.S.length - 1) (EncUnit.begin r gen).next ++ List.replicate pad false) := by
  obtain ⟨⟨running, phase, started, cmd, -, inPos, -⟩, emitted, -, -, -⟩ := EncUnit.begin_opensStream legal gen
  have range := running.pos_range
  rw [cmd, inPos] at range
  obtain ⟨f, data, pad, steps, out, -, bits⟩ := enc_future (r.S.length - 1) _ _ running phase started emitted
    (by rw [cmd, inPos]; omega)
  rw [cmd] at out
  rw [Nat.sub_add_cancel range.2] at steps
  exact ⟨f, data, pad, .succ rfl steps, out, by rw [bits, List.append_assoc]⟩

/-- The decoder after the start step of a DECODE of framed data (R79): all the data is still to be read, and nothing has
been produced. -/
structure DecUnit.OpensFrame (d : DecodeRecord) (m : Byte) (data : List Byte) (u : DecUnit) : Prop where
  active : u.Active
  cmd : u.cmd = d
  cause : u.cause = .none
  m_eq : u.regs.m.toNat = m.toNat
  outPos : u.regs.outPos = 0
  prevValid : u.regs.prevValid = false
  feeds : u.Feeds (dataBits data)

theorem DecUnit.begin_opensFrame {d : DecodeRecord} {m : Byte} {data : List Byte} (low : 2 ≤ m.toNat)
    (high : m.toNat ≤ 8) (src : d.src = frame m data) (p0 : d.p0 = 0) (gen : Nat) (idx : Memory 8) :
    (DecUnit.begin d gen idx).next? = some ((DecUnit.begin d gen idx).start m) ∧
      ((DecUnit.begin d gen idx).start m).OpensFrame d m data := by
  have first : d.src[d.p0]? = some m := by rw [src, p0]; rfl
  have found : (DecUnit.begin d gen idx).fetch = .raw (.byte .mcs m) :=
    (DecUnit.begin_fetch d gen idx).trans (DecUnit.fetchByteAt_some .mcs first)
  obtain ⟨running, started, phase, cmd, cause, -, -, m_eq, srcPos, outPos, nbits, sbRem, prevValid⟩ :=
    (DecUnit.begin d gen idx).start_running m low high (List.getElem?_eq_some_iff.mp first).1 ⟨rfl, rfl⟩
  have cmd : ((DecUnit.begin d gen idx).start m).cmd = d := cmd
  have srcPos : ((DecUnit.begin d gen idx).start m).regs.srcPos = d.p0 + 1 := srcPos
  refine ⟨by simp only [DecUnit.next?, found], ⟨phase, started, running⟩, cmd, cause, m_eq, outPos, prevValid, [], data,
    ?_, by rw [sbRem]; rfl, by rw [nbits]; rfl⟩
  rw [cmd, srcPos, src, p0]
  rfl

/-- With an empty table the width is `m + 1` (R96). -/
theorem DecRegs.Legal.width_of_fresh {r : DecRegs} (h : r.Legal) (fresh : r.prevValid = false) :
    r.width.toNat = r.m.toNat + 1 := by
  have next := h.fresh fresh
  have eoi := h.eoi_eq
  have range := h.m_range
  have pow := h.two_pow_le
  rw [h.width_eq, bitlen_eq (w := r.m.toNat) (by omega) (by rw [Nat.pow_succ]; omega)]
  omega

/-- A clear code at the head of the stream of an empty table is read, and resets the table (R84). -/
theorem DecUnit.Active.read_clear {u : DecUnit} {rest : List Bool} (h : u.Active) (fresh : u.regs.prevValid = false)
    (feeds : u.Feeds (bitsOfNat (u.regs.m.toNat + 1) (2 ^ u.regs.m.toNat) ++ rest)) :
    ∃ k v, DecUnit.Steps k u v.resetTable ∧ DecUnit.ReadFrom u v ∧ v.Running ∧ v.Feeds rest := by
  obtain ⟨phase, started, running⟩ := h
  have width := running.regs.width_of_fresh fresh
  rw [← width] at feeds
  obtain ⟨k, p, v, steps, run, next, readFrom, running', feeds'⟩ := u.read_code _ rest running phase started
    (by rw [width]; exact Nat.pow_lt_pow_right (by decide) (Nat.lt_succ_self _)) feeds
  rw [classify_clr running.regs.clear_eq.symm] at next
  exact ⟨k + 1, v, steps.trans (.succ run next (.zero _)), readFrom, running', feeds'⟩

/-- Once the decoder has read the clear code, both units are at the start of the first table period (R97). -/
theorem EncUnit.OpensStream.sync {r : EncodeRecord} {d : DecodeRecord} {a : EncUnit} {u v : DecUnit}
    {data : List Byte} (ha : a.OpensStream r) (hu : u.OpensFrame d r.m data) (readFrom : DecUnit.ReadFrom u v)
    (running : v.Running) : a.regs.Sync v.resetTable [] [a.regs.curCode.setWidth 8] := by
  have m_eq : u.regs.m = a.regs.m := BitVec.eq_of_toNat_eq (by
    rw [hu.m_eq, ← ha.inRun.running.cmd_m, ha.inRun.cmd])
  have regs : v.resetTable.Running :=
    ⟨v.resetTable_legal running.regs, running.src_range, running.out_range, running.no_warning, running.written⟩
  refine ⟨⟨ha.inRun.running.regs, regs, ?_, ?_, ?_, ?_⟩, .literal _ ha.small, ⟨?_, nofun⟩, .inl ⟨rfl, ha.table⟩⟩
  · show v.phase = _; rw [readFrom]; exact hu.active.phase
  · show v.started = _; rw [readFrom]; exact hu.active.started
  · show v.regs.m = _; rw [readFrom]; exact m_eq
  · show v.cause = _; rw [readFrom]; exact hu.cause
  · show v.regs.outPos = _; rw [readFrom]; exact hu.outPos

/-- Settles O56: the decoder reads the clear code the encoder opened its stream with, and from there follows it code by
code (`sync_run`). -/
theorem decodeGivesBackWhatWasEncoded : Obligations.DecodeGivesBackWhatWasEncoded := by
  intro r d s1 t1 u1 s2 t2 legal encode encoded src p0 outputLength decode
  obtain ⟨low, high, -, -⟩ := (EncodeRecord.wf_iff r).mp legal
  have opens := EncUnit.begin_opensStream legal s1.freeTick
  obtain ⟨f, data, pad, encSteps, out, bits⟩ := EncUnit.begin_encodes legal s1.freeTick
  rw [← execEncode_next encode] at encSteps
  cases encoded.symm.trans (run_onlyFor_enc _ t1 f encSteps)
  obtain ⟨start, frame⟩ := DecUnit.begin_opensFrame low high (src.trans out) p0 s2.freeTick s2.dec.idx
  have feeds := frame.feeds
  rw [bits, ← frame.m_eq] at feeds
  obtain ⟨j, v, toClear, readFrom, running, feeds'⟩ := frame.active.read_clear frame.prevValid feeds
  have sync := opens.sync frame readFrom running
  obtain ⟨enc, phase, started, cmd, -, inPos, -⟩ := opens.inRun
  have range := enc.pos_range
  have length : v.resetTable.cmd.outputLength = r.S.length := by
    show v.cmd.outputLength = _
    rw [readFrom]
    exact (congrArg DecodeRecord.outputLength frame.cmd).trans outputLength
  rw [cmd, inPos] at range
  obtain ⟨k, w, follow, result⟩ := sync_run (r.S.length - 1) _ v.resetTable [] _ pad enc phase started
    (by rw [cmd, inPos]; omega) sync
    (by rw [cmd, inPos, opens.first]; rfl)
    (by rw [length, cmd]) feeds'
  rw [cmd] at result
  have decSteps : DecUnit.Steps (j + k + 1) t2.dec w := by
    rw [execDecode_next decode]
    exact .succ rfl start (toClear.trans follow)
  exact ⟨_, _, run_onlyFor_dec _ t2 w decSteps, result⟩

end Sys2Proof.Machine

end

/-! ## Exceptions: cause codes, precise faults and warnings (R98 to R103) -/

section

namespace Sys2Proof.Machine

/-! ### The cause codes (R98) -/

/-- The cause a value of the field `cause` stands for; a value that is no row of R98 reads as no cause. -/
def Cause.ofCode (code : BitVec 8) : Cause :=
  if code = 0x01#8 then .eBadMinCodeSize
  else if code = 0x02#8 then .eEmptyInput
  else if code = 0x03#8 then .eIndexRange
  else if code = 0x11#8 then .dBadMinCodeSize
  else if code = 0x12#8 then .dSourceOverrun
  else if code = 0x13#8 then .dKwkwkNoPrev
  else if code = 0x14#8 then .dInvalidCode
  else if code = 0x15#8 then .dLengthMismatch
  else .none

theorem Cause.ofCode_code : Function.LeftInverse Cause.ofCode Cause.code := by
  intro cause
  cases cause <;> rfl

/-- Settles O40: the codes are those of the definition, and a cause is read back from its code. -/
theorem causeCodesAreTheTable : Obligations.CauseCodesAreTheTable :=
  ⟨rfl, rfl, rfl, rfl, rfl, rfl, rfl, rfl, rfl, Cause.ofCode_code.injective⟩

/-! ### Only the start step of an encoder faults (R101) -/

/-- After the start step the unit's moves stay in RUN or end in DONE. -/
theorem EncUnit.next_no_fault {u : EncUnit} (run : u.phase = .run) (started : u.started = true) :
    u.next.phase ≠ .fault := by
  have ofRun : ∀ {v : EncUnit}, v.phase = u.phase → v.phase ≠ .fault := fun same => by rw [same, run]; nofun
  simp only [EncUnit.next, started, reduceCtorEq, if_false]
  split
  · exact nofun
  · split
    · exact ofRun (u.hit_frame _).phase
    · split
      · exact ofRun (u.full_frame _).phase
      · exact ofRun (u.miss_frame _).phase

/-- A start step that faults raises a cause, before it writes anything (R68). -/
theorem EncUnit.start_fault {u : EncUnit} (run : u.phase = .run) (fault : u.start.phase = .fault) :
    ∃ cause info, cause ≠ .none ∧ u.start = u.raise cause info := by
  rcases u.start_cases with ⟨cause, info, raised, isCause, -⟩ | ⟨first, rest, -, -, valid⟩
  · exact ⟨cause, info, isCause, raised⟩
  · have packed := emitCode_frame (u.startRegs.append u.cmd.m) (u.startRegs.regs.clearCode.setWidth 12)
    rw [valid] at fault
    cases fault.symm.trans (packed.phase.trans run)

/-- A move of an encoder that faults is a start step, which leaves `OUT` empty. -/
theorem EncUnit.next_fault {u : EncUnit} (inv : u.Inv) (run : u.phase = .run) (fault : u.next.phase = .fault) :
    u.next.out = [] ∧ u.next.outLen = 0 ∧ u.next.cause ≠ .none ∧ u.started = false := by
  cases started : u.started with
  | true => exact absurd fault (EncUnit.next_no_fault run started)
  | false =>
    have empty : u.out = [] ∧ u.outLen = 0 := by simpa [started] using inv run
    have next : u.next = u.start := by simp only [EncUnit.next, started, if_true]
    rw [next] at fault ⊢
    obtain ⟨cause, info, isCause, raised⟩ := EncUnit.start_fault run fault
    rw [raised]
    exact ⟨empty.1, empty.2, isCause, rfl⟩

/-! ### How a DECODE ends (R92, R95, R99, R101) -/

/-- The status record of a decoder at the end of its command. -/
inductive DecUnit.Outcome (v : DecUnit) : Prop
  | fault (phase : v.phase = .fault) (cause : v.cause ≠ .none) (long : v.tooLong = false) (short : v.tooShort = false)
  | tooLong (phase : v.phase = .done) (tolerant : v.cmd.strict = false) (reason : v.endReason = .overflow)
      (long : v.tooLong = true) (short : v.tooShort = false)
  | tooShort (phase : v.phase = .done) (tolerant : v.cmd.strict = false) (reason : v.endReason ≠ .overflow)
      (length : v.produced ≠ v.cmd.outputLength) (long : v.tooLong = false) (short : v.tooShort = true)
  | full (phase : v.phase = .done) (reason : v.endReason ≠ .overflow) (length : v.produced = v.cmd.outputLength)
      (long : v.tooLong = false) (short : v.tooShort = false)

/-- `u` becomes `v` by the end of its command: no index is written, and `produced` counts those written before. -/
def DecUnit.EndsIn (u v : DecUnit) : Prop :=
  v.idx = u.idx ∧ v.regs.outPos = u.regs.outPos ∧ v.produced = u.regs.outPos ∧ v.Outcome

/-- No warning has been given. -/
def DecUnit.Quiet (u : DecUnit) : Prop := u.tooLong = false ∧ u.tooShort = false

section

variable {u v : DecUnit} (quiet : u.Quiet)
include quiet

theorem DecUnit.Quiet.raise_ends {cause : Cause} (info : Info) (isCause : cause ≠ .none) :
    u.EndsIn (u.raise cause info) :=
  ⟨rfl, rfl, rfl, .fault rfl isCause quiet.1 quiet.2⟩

/-- `DecFinish` after EOI or exhaustion (R95). -/
theorem DecUnit.Quiet.finish_ends {r : EndReason} (reason : r ≠ .overflow) : u.EndsIn (u.setEndReason r).finish := by
  rcases (u.setEndReason r).finish_cases with ⟨full, ends⟩ | ⟨-, -, -, ends⟩ | ⟨-, length, tolerant, ends⟩ <;> rw [ends]
  · exact ⟨rfl, rfl, rfl, .full rfl reason (full.resolve_left reason) quiet.1 quiet.2⟩
  · exact ⟨rfl, rfl, rfl, .fault rfl nofun quiet.1 quiet.2⟩
  · exact ⟨rfl, rfl, rfl, .tooShort rfl tolerant reason length quiet.1 rfl⟩

/-- A run that does not fit (R92). -/
theorem DecUnit.Quiet.overflow_ends : u.EndsIn u.overflow := by
  cases strict : u.cmd.strict with
  | true =>
    rw [u.overflow_strict strict]
    exact quiet.raise_ends _ nofun
  | false =>
    rw [u.overflow_tolerant strict]
    exact ⟨rfl, rfl, rfl, .tooLong rfl strict rfl rfl quiet.2⟩

variable (run : u.phase = .run) (ended : v.phase ≠ .run)
include run ended

theorem DecUnit.Quiet.dataCode?_ends {c : Code} {s : Option (List Index)} (coded : u.dataCode? c s = some v) :
    u.EndsIn v := by
  match s with
  | none | some [] => cases coded
  | some (f :: rest) =>
    cases coded
    by_cases fits : u.regs.outPos + (f :: rest).length ≤ u.cmd.outputLength
    · rw [u.dataCode_fits c f rest fits, DecUnit.insert_regs_only] at ended
      exact absurd run ended
    · rw [u.dataCode_overflows c f rest (Nat.lt_of_not_le fits)]
      exact quiet.overflow_ends

theorem DecUnit.Quiet.act_ends {i : Instr} (acted : u.act i = some v) : u.EndsIn v := by
  cases i with
  | clr => cases acted; exact absurd run ended
  | eoi => cases acted; exact quiet.finish_ends nofun
  | lit k => exact quiet.dataCode?_ends run ended (c := k.setWidth 12) (s := some [k]) acted
  | tab c => exact quiet.dataCode?_ends run ended (s := u.regs.seq c) acted
  | kwk c => exact quiet.dataCode?_ends run ended (s := u.regs.kwkRun) acted
  | illNoPrev c => cases acted; exact quiet.raise_ends _ nofun
  | illRange c => cases acted; exact quiet.raise_ends _ nofun
  | encode | decode | encStart | encHit | encMiss | encFull | encFinish | bMcs | bLen | bTerm | bData => cases acted

/-- The move of a decoder that ends its command. -/
theorem DecUnit.Quiet.next?_ends (moved : u.next? = some v) : u.EndsIn v := by
  simp only [DecUnit.next?] at moved
  split at moved
  · cases moved; exact quiet.raise_ends _ nofun
  · cases moved; exact quiet.finish_ends nofun
  · next b _ =>
    cases moved
    by_cases illegal : b.toNat < 2 ∨ 8 < b.toNat
    · rw [u.start_faults b illegal]
      exact ⟨rfl, rfl, rfl, .fault rfl nofun quiet.1 quiet.2⟩
    · rw [DecUnit.start_of_legal_byte (by omega) (by omega)] at ended
      exact absurd run ended
  · split at moved <;> cases moved
    · exact DecUnit.Quiet.finish_ends (u := { u.advance with regs := { u.advance.regs with terminated := true } })
        quiet nofun
    · exact absurd run ended
  · cases moved; exact absurd run ended
  · split at moved
    · exact DecUnit.Quiet.act_ends (u := u.consumeCode) quiet run ended moved
    · cases moved
  all_goals cases moved

end

/-- In a command no warning has been given, and `out_pos` is inside the output. -/
theorem DecUnit.Inv.quiet {u : DecUnit} (inv : u.Inv) (run : u.phase = .run) :
    u.Quiet ∧ u.regs.outPos ≤ u.cmd.outputLength := by
  have inv := inv run
  cases started : u.started with
  | true =>
    rw [started, if_pos rfl] at inv
    exact ⟨inv.no_warning, inv.out_range⟩
  | false =>
    rw [started, if_neg nofun] at inv
    obtain ⟨outPos, -, quiet⟩ := inv
    exact ⟨quiet, outPos ▸ Nat.zero_le _⟩

/-- A step of the block that ends a DECODE is the unit's own move. -/
theorem step_dec_ends {s t : State} (inv : s.dec.Inv) (run : s.dec.phase = .run) (h : step s = .next t)
    (ended : t.dec.phase ≠ .run) : s.dec.EndsIn t.dec ∧ t.dec.produced ≤ t.dec.cmd.outputLength := by
  obtain ⟨quiet, range⟩ := inv.quiet run
  rcases step_dec_in_run h run with kept | moved
  · exact absurd (kept ▸ run) ended
  · have ends := quiet.next?_ends run ended moved
    have ⟨_, _, produced, _⟩ := ends
    have ⟨_, cmd⟩ := DecUnit.next?_stays run moved
    rw [produced, cmd]
    exact ⟨ends, range⟩

/-- Settles O41: an encoder faults in its start step only, which has written nothing, and a decoder's move that ends the
command writes no index. -/
theorem faultsArePrecise : Obligations.FaultsArePrecise := by
  intro s t inv h
  obtain ⟨encInv, decInv, -⟩ := inv
  refine ⟨fun run fault => ?_, fun run fault => ?_⟩
  · rcases step_enc_in_run h run with kept | moved
    · rw [kept, run] at fault
      cases fault
    · rw [moved] at fault ⊢
      exact EncUnit.next_fault encInv run fault
  · obtain ⟨⟨idx, outPos, produced, outcome⟩, -⟩ := step_dec_ends decInv run h (by rw [fault]; nofun)
    refine ⟨idx, produced, outPos, ?_⟩
    cases outcome with
    | fault _ cause => exact cause
    | tooLong phase | tooShort phase | full phase => cases fault.symm.trans phase

/-- Settles O42: each of the four outcomes says which warning was given and how the length went. -/
theorem warningsSayTheLength : Obligations.WarningsSayTheLength := by
  intro s t inv run h ended
  obtain ⟨⟨-, -, -, outcome⟩, range⟩ := step_dec_ends inv.2.1 run h ended
  cases outcome with
  | fault phase _ long short => simp [phase, long, short]
  | tooLong phase tolerant reason long short => simp [phase, tolerant, reason, long, short]
  | tooShort phase tolerant reason length long short =>
    have fewer : t.dec.produced < t.dec.cmd.outputLength := Nat.lt_of_le_of_ne range length
    simp [phase, tolerant, reason, fewer, long, short]
  | full phase reason length long short => simp [phase, reason, length, long, short]

end Sys2Proof.Machine

end

/-! ## Reset and hazards: power-on, the next instruction, the start of ENC and the widths (R109 to R122) -/

section

namespace Sys2Proof.Machine

/-! ### Power-on (R109, R113) -/

/-- No agent has a move at power-on: both units are IDLE and the host's queue is empty. -/
theorem State.reset_nextAgent : State.reset.nextAgent = none := rfl

theorem step_of_no_agent {s : State} (rest : s.nextAgent = none) : step s = .next s := by
  simp only [step, rest]

/-- Settles O1: at power-on no agent has a move. -/
theorem powerOnTakesNoStep : Obligations.PowerOnTakesNoStep :=
  ⟨rfl, rfl, step_of_no_agent State.reset_nextAgent⟩

theorem EncUnit.inv_of_not_running {u : EncUnit} (h : u.phase ≠ .run) : u.Inv := fun run => absurd run h

/-- Settles O49: nothing is claimed of a unit that is IDLE, and every memory is empty. -/
theorem invariantHoldsAtReset : Obligations.InvariantHoldsAtReset :=
  ⟨EncUnit.inv_of_not_running nofun, DecUnit.inv_of_not_running nofun,
    (State.memWf_iff _).mpr State.reset_memory_wf⟩

/-! ### The instruction that is next (R69, R80, R83, R113) -/

section

variable {s : State}

theorem step_enc_turn (turn : s.nextAgent = some .enc) : step s = stepEnc s.nextTurn := by simp only [step, turn]

theorem step_dec_turn (turn : s.nextAgent = some .dec) : step s = stepDec s.nextTurn := by simp only [step, turn]

theorem step_host_turn (turn : s.nextAgent = some .host) : step s = stepHost s.nextTurn := by simp only [step, turn]

theorem stepDec_found {r : Raw} {i : Instr} (found : s.dec.fetch = .raw r) (decoded : decode r = .instr i) :
    stepDec s = exec i s := by
  simp only [stepDec, found, decoded]

/-- A byte that the table rejects at the first framing position is left to the meaning of B-MCS (R79). -/
theorem stepDec_rejected {r : Raw} {b : Byte} (found : s.dec.fetch = .raw r)
    (rejected : decode r = .reject (.badMinCodeSize b)) : stepDec s = exec (.bMcs b) s := by
  simp only [stepDec, found, rejected]

theorem stepHost_encode {r : EncodeRecord} {rest : List HostMove} (waiting : s.hostq = .encode r :: rest) :
    stepHost s = exec (.encode r) { s with hostq := rest } := by
  simp only [stepHost, waiting]

theorem stepHost_decode {r : DecodeRecord} {rest : List HostMove} (waiting : s.hostq = .decode r :: rest) :
    stepHost s = exec (.decode r) { s with hostq := rest } := by
  simp only [stepHost, waiting]

/-- The host may write `IDX` when its turn has come (R42, R66). -/
theorem stepHost_writeIdx {pos : Nat} {v : Index} {rest : List HostMove} (ready : s.ready .host = true)
    (waiting : s.hostq = .writeIdx pos v :: rest) :
    stepHost s = .next { s with hostq := rest, dec := { s.dec with idx := Memory.write s.dec.idx pos v } } := by
  have idle : s.dec.phase ≠ .run := by simpa only [State.ready, waiting, decide_eq_true_eq] using ready
  simp only [stepHost, waiting, State.hostWriteIdx, if_neg idle]

end

/-- Settles O47: a step is the move of the agent whose turn it is, after the turn has passed on. -/
theorem stepRunsTheNextInstruction : Obligations.StepRunsTheNextInstruction := by
  intro s
  refine ⟨fun turn => ?_, fun r i turn found decoded => ?_, fun r b turn found rejected => ?_,
    fun r rest turn waiting => ?_, fun r rest turn waiting => ?_, fun pos v rest turn waiting => ?_, step_of_no_agent⟩
  · exact step_enc_turn turn
  · exact (step_dec_turn turn).trans (stepDec_found (s := s.nextTurn) found decoded)
  · exact (step_dec_turn turn).trans (stepDec_rejected (s := s.nextTurn) found rejected)
  · exact (step_host_turn turn).trans (stepHost_encode (s := s.nextTurn) waiting)
  · exact (step_host_turn turn).trans (stepHost_decode (s := s.nextTurn) waiting)
  · exact ⟨_, (step_host_turn turn).trans
        (stepHost_writeIdx (s := s.nextTurn) (State.nextAgent_ready (s := s) turn) waiting),
      fun a => Memory.read_write s.dec.idx pos a v⟩

/-! ### Widths (R115 to R118) -/

theorem bitlen_two_pow_sub_one (w : Nat) : bitlen (2 ^ w - 1) = w := by
  cases w with
  | zero => rfl
  | succ w =>
    have pos := Nat.two_pow_pos w
    exact bitlen_eq (by rw [Nat.pow_succ]; omega) (by rw [Nat.pow_succ]; omega)

/-- A width of 4 bits that grows to at most 12 does not wrap. -/
theorem grown_width_toNat {width : BitVec 4} (le : width.toNat ≤ 12) :
    (BitVec.ofNat 4 (width.toNat + 1)).toNat = width.toNat + 1 :=
  toNat_ofNat_of_lt (by omega)

namespace EncRegs.Legal

variable {e : EncRegs} (h : e.Legal)

include h

/-- The codes handed out always need at least `m + 1` bits, so they alone give the width (R76). -/
theorem width_eq_bitlen : e.width.toNat = bitlen (e.nextCode.toNat - 1) := by
  have eoi := h.eoi_eq
  have next := h.next_range
  have : e.m.toNat < bitlen (e.nextCode.toNat - 1) := (lt_bitlen_iff _ _).mpr (by omega)
  rw [h.width_eq]
  omega

/-- With an empty table the width is `m + 1` (R68). -/
theorem width_of_empty (empty : e.nextCode.toNat = e.eoiCode.toNat + 1) : e.width.toNat = e.m.toNat + 1 := by
  have eoi := h.eoi_eq
  have pow := h.two_pow_le
  rw [h.width_eq_bitlen]
  exact bitlen_eq (by omega) (by rw [Nat.pow_succ]; omega)

theorem next_lt_of_empty (empty : e.nextCode.toNat = e.eoiCode.toNat + 1) : e.nextCode.toNat < 2 ^ e.width.toNat := by
  have eoi := h.eoi_eq
  have large := h.two_pow_le
  have width := h.two_pow_succ_le
  omega

/-- `next_code` never passes `2^width`, so R71 finds it too large only there. -/
theorem grows_iff : 2 ^ e.width.toNat ≤ e.nextCode.toNat ↔ e.nextCode.toNat = 2 ^ e.width.toNat :=
  ⟨h.next_le.antisymm, Nat.le_of_eq ∘ Eq.symm⟩

theorem m_succ_le_width : e.m.toNat + 1 ≤ e.width.toNat := by
  rw [h.width_eq]
  exact Nat.le_max_left _ _

/-- The next value is a power of two in reach of the width exactly when it is `2^width`, before the last growth. -/
theorem next_pow_iff : (∃ w, e.m.toNat + 1 ≤ w ∧ w ≤ 11 ∧ e.nextCode.toNat = 2 ^ w) ↔
    e.nextCode.toNat = 2 ^ e.width.toNat ∧ e.width.toNat ≤ 11 := by
  constructor
  · rintro ⟨w, -, high, next⟩
    have : e.width.toNat = w := by rw [h.width_eq_bitlen, next, bitlen_two_pow_sub_one]
    rw [this]
    exact ⟨next, high⟩
  · rintro ⟨next, high⟩
    exact ⟨_, h.m_succ_le_width, high, next⟩

end EncRegs.Legal

/-- Below the largest width every code handed out fits, `next_code` included (R96). -/
theorem DecRegs.Legal.next_lt {d : DecRegs} (h : d.Legal) (narrow : d.width.toNat ≤ 11) :
    d.nextCode.toNat < 2 ^ d.width.toNat := by
  have width := h.width_eq
  have : d.width.toNat = bitlen d.nextCode.toNat := by omega
  rw [this]
  exact lt_two_pow_bitlen _

/-- A decoder with room for one more entry reaches `2^width` exactly, if its width can still grow (R93). -/
theorem DecRegs.Legal.grows_iff {d : DecRegs} (h : d.Legal) :
    2 ^ d.width.toNat ≤ d.nextCode.toNat + 1 ∧ d.width.toNat < 12 ↔
      d.nextCode.toNat + 1 = 2 ^ d.width.toNat ∧ d.width.toNat ≤ 11 := by
  constructor
  · rintro ⟨reached, narrow⟩
    have := h.next_lt (Nat.le_of_lt_succ narrow)
    omega
  · rintro ⟨next, narrow⟩
    exact ⟨next.ge, Nat.lt_succ_of_le narrow⟩

theorem EncUnit.growWidth_width {u : EncUnit} (legal : u.regs.Legal) :
    u.growWidth.regs.width.toNat =
      if u.regs.nextCode.toNat = 2 ^ u.regs.width.toNat then u.regs.width.toNat + 1 else u.regs.width.toNat := by
  rw [EncUnit.growWidth_eq]
  simp only [legal.grows_iff, apply_ite BitVec.toNat, grown_width_toNat legal.width_le]

theorem DecUnit.insert_width {u : DecUnit} (legal : u.regs.Legal) (prev : u.regs.prevValid = true)
    (room : u.regs.nextCode.toNat < 4096) (f : Index) :
    (u.insert f).regs.width.toNat =
      if u.regs.nextCode.toNat + 1 = 2 ^ u.regs.width.toNat ∧ u.regs.width.toNat ≤ 11 then u.regs.width.toNat + 1
      else u.regs.width.toNat := by
  rw [DecUnit.insert_stores u f prev room]
  simp only [legal.grows_iff, apply_ite BitVec.toNat, grown_width_toNat legal.width_le]

/-- Settles O52: neither unit's width falls behind its codes, so each grows exactly at a power of two. -/
theorem widthGrowsAtPowersOfTwo : Obligations.WidthGrowsAtPowersOfTwo :=
  ⟨fun _ legal room => ⟨EncUnit.growWidth_width legal, fun next =>
      ⟨legal.m_succ_le_width, EncRegs.width_le_of_grows room next.ge⟩⟩,
    fun _ f legal prev room => DecUnit.insert_width legal prev room f⟩

section

variable {e : EncRegs} {d : DecRegs} (enc : e.Legal) (dec : d.Legal)

include enc dec

/-- The encoder's width is that of the newest code, and this is what a decoder one entry behind inserts next (R117). -/
theorem width_eq_of_one_behind (behind : d.nextCode.toNat + 1 = e.nextCode.toNat) :
    e.width.toNat = d.width.toNat := by
  have encWidth := enc.width_eq_bitlen
  have narrow := enc.width_le
  have decWidth := dec.width_eq
  rw [← behind, Nat.add_sub_cancel] at encWidth
  omega

/-- With one `next_code` the decoder's width has made the growth that the encoder's is about to make (R118). -/
theorem width_of_same_next (same : d.nextCode.toNat = e.nextCode.toNat) :
    d.width.toNat = if e.nextCode.toNat = 2 ^ e.width.toNat ∧ e.width.toNat ≤ 11 then e.width.toNat + 1
      else e.width.toNat := by
  have narrow := enc.width_le
  have next := enc.next_range
  have succ := bitlen_succ (e.nextCode.toNat - 1)
  rw [Nat.sub_add_cancel (by omega), ← enc.width_eq_bitlen] at succ
  rw [dec.width_eq, same, succ]
  split_ifs <;> omega

end

/-- Settles O53: `width_eq_of_one_behind` and `width_of_same_next`; two empty tables have one `next_code`, which is no
power of two. -/
theorem encoderAndDecoderWidthsAgree : Obligations.EncoderAndDecoderWidthsAgree := by
  intro e d enc dec sameM
  refine ⟨width_eq_of_one_behind enc dec, fun encEmpty decEmpty => ?_, fun same => ?_⟩
  · have same : d.nextCode.toNat = e.nextCode.toNat := by
      rw [encEmpty, decEmpty, enc.eoi_eq, dec.eoi_eq, sameM]
    have below := enc.next_lt_of_empty encEmpty
    rw [width_of_same_next enc dec same, if_neg (fun power => below.ne power.1)]
  · rw [enc.next_pow_iff, width_of_same_next enc dec same]
    exact ⟨fun power => if_pos power, fun power => if_neg power⟩

/-! ### The first data code of a table period (R120) -/

/-- Settles O23: with no previous code the table is empty, so above `eoi_code` there is no table code. -/
theorem firstDataCodeIsALiteral : Obligations.FirstDataCodeIsALiteral := by
  intro r c legal fresh fits _ notEoi
  have next := legal.fresh fresh
  have clear := legal.clear_eq
  have eoi := legal.eoi_eq
  have value : (BitVec.ofNat 12 c).toNat = c :=
    toNat_ofNat_of_lt (fits.trans_le (Nat.pow_le_pow_right (by decide) legal.width_le))
  refine ⟨classify_lit notEoi, fun first => ?_, fun beyond => ?_⟩
  · rw [← classify_illNoPrev (r := r) (c := BitVec.ofNat 12 c) (by omega) (by omega) (by omega) fresh, value]
  · rw [← classify_illRange (r := r) (c := BitVec.ofNat 12 c) (by omega) (by omega) (by omega), value]

/-! ### The registers after the start step of ENC (R110) -/

theorem EncRegs.sbBytes_one {r : EncRegs} (one : r.sbLen.toNat = 1) : r.sbBytes = [r.sbBuf.read 0] := by
  rw [EncRegs.sbBytes, one]
  rfl

/-- The number that the held bits stand for, with at most one whole byte among them. -/
theorem EncRegs.Legal.natOfBits_heldBits {r : EncRegs} (h : r.Legal) :
    (r.sbLen.toNat = 0 → natOfBits r.heldBits = r.acc.toNat) ∧
      (r.sbLen.toNat = 1 → natOfBits r.heldBits = (r.sbBuf.read 0).toNat + 256 * r.acc.toNat) := by
  refine ⟨fun none => ?_, fun one => ?_⟩
  · have empty : r.sbBytes = [] := List.eq_nil_of_length_eq_zero ((EncUnit.sbBytes_length r).trans none)
    rw [EncRegs.heldBits, empty]
    exact (natOfBits_bitsOfNat _ _).trans (Nat.mod_eq_of_lt h.acc_lt)
  · have byte := (r.sbBuf.read 0).isLt
    have bound : (r.sbBuf.read 0).toNat + 2 ^ 8 * r.acc.toNat < 2 ^ (8 + r.nbits.toNat) := by
      have := h.acc_lt
      rw [Nat.pow_add]
      omega
    have bits := bitsOfNat_add 8 r.nbits.toNat (r.sbBuf.read 0).toNat r.acc.toNat byte
    rw [EncRegs.heldBits, EncRegs.sbBytes_one one]
    simp only [dataBits, List.flatMap_cons, List.flatMap_nil, List.append_nil, ← bits, natOfBits_bitsOfNat]
    exact Nat.mod_eq_of_lt bound

theorem EncRegs.heldBits_length (r : EncRegs) : r.heldBits.length = 8 * r.sbLen.toNat + r.nbits.toNat := by
  rw [EncRegs.heldBits, List.length_append, dataBits_length, bitsOfNat_length, EncUnit.sbBytes_length]

/-- Fewer bits than one full sub-block are all still held, so `OUT` is `m` alone. -/
theorem EncUnit.Emitted.all_held {u : EncUnit} {bits : List Bool} (h : u.Emitted bits) (few : bits.length < 8 * 255) :
    u.out = [u.cmd.m] ∧ u.outLen = 1 ∧ u.regs.heldBits = bits := by
  obtain ⟨blocks, full, out, outLen, held⟩ := h
  cases blocks with
  | nil =>
    have out : u.out = [u.cmd.m] := out
    exact ⟨out, by rw [outLen, out]; rfl, held⟩
  | cons d rest =>
    have block := full d List.mem_cons_self
    have := congrArg List.length held
    rw [List.length_append, dataBits_length, List.flatten_cons, List.length_append] at this
    omega

/-- The packer after a start step with minimum code size `m`: the `m + 1` bits of the clear code, whole bytes first. -/
theorem EncRegs.Legal.packer_after_clear {r : EncRegs} (h : r.Legal) {m : Nat} (high : m ≤ 8)
    (held : r.heldBits = bitsOfNat (m + 1) (2 ^ m)) :
    (m ≤ 6 → r.acc.toNat = 2 ^ m ∧ r.nbits.toNat = m + 1 ∧ r.sbLen.toNat = 0) ∧
      (m = 7 → r.acc.toNat = 0 ∧ r.nbits.toNat = 0 ∧ r.sbLen.toNat = 1 ∧ r.sbBuf.read 0 = 0x80#8) ∧
      (m = 8 → r.acc.toNat = 1 ∧ r.nbits.toNat = 1 ∧ r.sbLen.toNat = 1 ∧ r.sbBuf.read 0 = 0x00#8) := by
  have count : 8 * r.sbLen.toNat + r.nbits.toNat = m + 1 := by
    rw [← r.heldBits_length, held, bitsOfNat_length]
  have value : natOfBits r.heldBits = 2 ^ m := by
    rw [held, natOfBits_bitsOfNat, Nat.mod_eq_of_lt (Nat.pow_lt_pow_right (by decide) (Nat.lt_succ_self m))]
  have few := h.nbits_lt
  have byte := (r.sbBuf.read 0).isLt
  obtain ⟨noByte, oneByte⟩ := h.natOfBits_heldBits
  refine ⟨fun low => ?_, ?_, ?_⟩
  · have := noByte (by omega)
    omega
  · rintro rfl
    have := oneByte (by omega)
    refine ⟨by omega, by omega, by omega, BitVec.eq_of_toNat_eq ?_⟩
    show _ = 128
    omega
  · rintro rfl
    have := oneByte (by omega)
    refine ⟨by omega, by omega, by omega, BitVec.eq_of_toNat_eq ?_⟩
    show _ = 0
    omega

/-- Settles O7: the start step emits the clear code alone, so the packer holds its bits, and the other registers are
those of legal registers with an empty table. -/
theorem encStartLeavesTheTabledValues : Obligations.EncStartLeavesTheTabledValues := by
  intro s run fresh out outLen legal
  obtain ⟨-, high, nonempty, -⟩ := (EncodeRecord.wf_iff _).mp legal
  obtain ⟨first, rest, input⟩ := List.exists_cons_of_ne_nil nonempty
  obtain ⟨regs, emitted, cmd, phase, started, cause, info, inPos, cur, m, table, next⟩ :=
    s.enc.startValid_running first rest legal input out outLen
  obtain ⟨out, outLen, held⟩ := emitted.all_held (by rw [bitsOfNat_length]; omega)
  have clear := regs.clear_eq
  have eoi := regs.eoi_eq
  have width := regs.width_of_empty next
  obtain ⟨low, seven, eight⟩ := regs.packer_after_clear high held
  rw [m] at clear eoi width
  rw [exec_encStart run fresh, EncUnit.start_of_wf legal input]
  exact ⟨_, rfl, rfl, phase.trans run, started, cmd, cause, info, outLen, out.trans (by rw [cmd]), m, clear, eoi,
    by rw [next, eoi], width, table, low, seven, eight, by rw [input, cur]; rfl, inPos⟩

end Sys2Proof.Machine

end
